-- ==== Sys2Proof/Word.lean ====
section
/-! DEFINITION. The word types of JDQ and the three components (spec/00_scope.md R10, R15). -/

namespace Sys2Proof

/-- A 32-bit word: a register, a RAM word, a command word (R10). Bit 0 is the least significant bit. -/
abbrev Word := BitVec 32

/-- One byte of Host space (20_memory.md R59). -/
abbrev Byte := BitVec 8

/-- A 32-bit word read as an IEEE 754 binary32 pattern (R12). -/
abbrev F32 := BitVec 32

/-- The three components, numbered 0, 1, 2 (R15). There is no component 3. -/
inductive Comp where
  | y
  | cb
  | cr
  deriving DecidableEq, Repr, Inhabited

/-- One value for each component: the three copies of a COMPc register, or PREV_DC0..2. -/
structure PerComp (α : Type) where
  y : α
  cb : α
  cr : α
  deriving DecidableEq, Repr

/-- The value of component `c`. -/
def PerComp.get {α : Type} (p : PerComp α) : Comp → α
  | .y => p.y
  | .cb => p.cb
  | .cr => p.cr

/-- `p` with the value of component `c` replaced. -/
def PerComp.set {α : Type} (p : PerComp α) (c : Comp) (v : α) : PerComp α :=
  match c with
  | .y => { p with y := v }
  | .cb => { p with cb := v }
  | .cr => { p with cr := v }

end Sys2Proof
end

