-- ==== Sys2Proof/Config.lean ====
section
/-! DEFINITION. What an implementation of JDQ fixes (spec/00_scope.md R9) and the free values, which nothing fixes. -/

namespace Sys2Proof

/-- Parameter CHROMA_FILTER (40_dispatch.md R105). -/
inductive ChromaFilter where
  | point
  | box
  deriving DecidableEq, Repr

/-- Parameter QUANT_ROUND (40_dispatch.md R111). -/
inductive QuantRound where
  | tiesEven
  | tiesAway
  | trunc
  deriving DecidableEq, Repr

/-- Parameter DCT_ARITH (40_dispatch.md R108): the sequential binary32 evaluation, or any deterministic
function (`Config.fdct`). -/
inductive DctArith where
  | seq32
  | free
  deriving DecidableEq, Repr

/-- Parameter ColorConvert (40_dispatch.md R106): the JFIF default, or any deterministic function into the
finite binary32 values (`Config.colorConvert`). -/
inductive ColorConv where
  | jfif
  | free
  deriving DecidableEq, Repr

/-- The parameters a model takes (R9). They stand in State as data no step changes, so that a statement about
every state is a statement about every value of every parameter. DESIGN CHOICE, notes/assumptions/1.md; safe. -/
structure Params where
  resultWords : Nat
  dcmWords : Nat
  cqDepth : Nat
  colorConvert : ColorConv
  chromaFilter : ChromaFilter
  quantRound : QuantRound
  dctArith : DctArith
  deriving DecidableEq, Repr

/-- The value R9 gives for this hardware: every parameter at its default. -/
def Params.default : Params where
  resultWords := 4194304
  dcmWords := 1048576
  cqDepth := 16
  colorConvert := .jfif
  chromaFilter := .point
  quantRound := .tiesEven
  dctArith := .seq32

/-- The legal values of R9: RESULT_WORDS and DCM_WORDS 1 to 2^22, CQ_DEPTH 1 to 65 535. -/
def Params.legal (p : Params) : Bool :=
  decide (1 ≤ p.resultWords ∧ p.resultWords ≤ 4194304) &&
  decide (1 ≤ p.dcmWords ∧ p.dcmWords ≤ 4194304) &&
  decide (1 ≤ p.cqDepth ∧ p.cqDepth ≤ 65535)

/-- A finite binary32 value by its fields: the biased exponent is below 255 (R12). -/
structure FiniteF32 where
  neg : Bool
  exp : Fin 255
  frac : BitVec 23
  deriving DecidableEq, Repr, Inhabited

/-- The binary32 pattern of a finite value. -/
def FiniteF32.toF32 (x : FiniteF32) : F32 :=
  BitVec.ofBool x.neg ++ BitVec.ofNat 8 x.exp.val ++ x.frac

/-- FREE VALUE. An open ColorConvert (R106): "Any value of the parameter must be a deterministic function that
returns a finite binary32". Nothing else constrains it. notes/assumptions/7.md; safe. -/
opaque Config.colorConvert : Comp → Nat → Nat → Nat → FiniteF32

/-- FREE VALUE. An open DCT_ARITH (R108): coefficient `n` of the transform of a block by two matrices, each a
list of 64 binary32 words. Nothing else constrains it. notes/assumptions/8.md; safe. -/
opaque Config.fdct : List F32 → List F32 → List F32 → Nat → F32

/-- FREE VALUE. The texel of the prepared surface at a pixel that State does not list (20_memory.md R66).
notes/assumptions/3.md; safe. -/
opaque Config.surface : Nat → Nat → Word

/-- FREE VALUE. The `n`-th value drawn freely by a Host read (20_memory.md R64, 10_state.md R50).
notes/assumptions/6.md; safe. -/
opaque Config.freeWord : Nat → Word

end Sys2Proof
end

