-- ==== Sys2Proof/Machine/Binary32.lean ====
section
/-! DEFINITION. IEEE 754 binary32 on bit patterns: round to nearest, ties to even; no fused operation; subnormals
kept (spec/00_scope.md R12). Every operation computes exactly and rounds once. -/

namespace Sys2Proof.Machine

/-- What a binary32 pattern stands for: NaN, an infinity, or `(-1)^neg · mant · 2^exp` exactly. -/
inductive F32Val where
  | nan
  | inf (neg : Bool)
  | fin (neg : Bool) (mant : Nat) (exp : Int)
  deriving DecidableEq, Repr

/-- The sign bit of a pattern. -/
def f32Neg (w : F32) : Bool := w.getLsbD 31

/-- The biased exponent field, bits [30:23]. -/
def f32Exp (w : F32) : Nat := w.toNat / 2 ^ 23 % 2 ^ 8

/-- The fraction field, bits [22:0]. -/
def f32Frac (w : F32) : Nat := w.toNat % 2 ^ 23

/-- "A binary32 is finite when it is neither infinite nor NaN." (R12) -/
def f32Finite (w : F32) : Bool := f32Exp w != 255

/-- The value of a pattern. Subnormals are kept (R12). -/
def f32Unpack (w : F32) : F32Val :=
  if f32Exp w = 255 then (if f32Frac w = 0 then .inf (f32Neg w) else .nan)
  else if f32Exp w = 0 then .fin (f32Neg w) (f32Frac w) (-149)
  else .fin (f32Neg w) (f32Frac w + 2 ^ 23) ((f32Exp w : Int) - 150)

/-- The one NaN pattern the model writes. DEDUCED, notes/assumptions/9.md; safe: a NaN's payload does not matter
(40_dispatch.md R108). -/
def f32NaN : F32 := 0x7FC00000#32

/-- The infinity of a sign. -/
def f32Inf (neg : Bool) : F32 := BitVec.ofBool neg ++ 0x7F800000#31

/-- The zero of a sign. -/
def f32Zero (neg : Bool) : F32 := BitVec.ofBool neg ++ 0#31

/-- `n / d` rounded to the nearest natural number, ties to even. -/
def divNearestEven (n d : Nat) : Nat :=
  let q := n / d
  let r := n % d
  if 2 * r < d then q else if d < 2 * r then q + 1 else q + q % 2

/-- The exponent `e` with `2^e ≤ num / den < 2^(e+1)`, for positive `num` and `den`. -/
def ratioExp (num den : Nat) : Int :=
  let e : Int := (Nat.log2 num : Int) - (Nat.log2 den : Int)
  if num * 2 ^ (-e).toNat < den * 2 ^ e.toNat then e - 1 else e

/-- The lower 31 bits of `fl(num / den)`: the quotient in units of the last place at the exponent of the result,
rounded to nearest even. The carry out of the fraction, the step from subnormal to normal, and the overflow to
infinity are all the plain addition of the fields. -/
def roundRatio (num den : Nat) : Nat :=
  if num = 0 then 0
  else
    let e := max (ratioExp num den) (-126)
    let q := divNearestEven (num * 2 ^ (23 - e).toNat) (den * 2 ^ (e - 23).toNat)
    min ((e + 126).toNat * 2 ^ 23 + q) 0x7F800000

/-- `fl(±num / den · 2^k)` (R12). -/
def f32Round (neg : Bool) (num den : Nat) (k : Int) : F32 :=
  BitVec.ofBool neg ++ BitVec.ofNat 31 (roundRatio (num * 2 ^ k.toNat) (den * 2 ^ (-k).toNat))

/-- `fl(z / den)` for an integer `z`: the rounding of an exact rational. -/
def f32OfRatio (z : Int) (den : Nat) : F32 := f32Round (decide (z < 0)) z.natAbs den 0

/-- `a ⊗ b = fl(a·b)` (R12). -/
def f32Mul (a b : F32) : F32 :=
  match f32Unpack a, f32Unpack b with
  | .nan, _ => f32NaN
  | _, .nan => f32NaN
  | .inf s, .inf t => f32Inf (s != t)
  | .inf s, .fin t m _ => if m = 0 then f32NaN else f32Inf (s != t)
  | .fin s m _, .inf t => if m = 0 then f32NaN else f32Inf (s != t)
  | .fin s m k, .fin t n l => f32Round (s != t) (m * n) 1 (k + l)

/-- The signed integer `±m · 2^k`, for `0 ≤ k`. -/
def signedShift (neg : Bool) (m : Nat) (k : Int) : Int :=
  if neg then -((m * 2 ^ k.toNat : Nat) : Int) else ((m * 2 ^ k.toNat : Nat) : Int)

/-- `a ⊕ b = fl(a+b)` (R12). An exact zero sum is -0 only when both operands are negative zeros. -/
def f32Add (a b : F32) : F32 :=
  match f32Unpack a, f32Unpack b with
  | .nan, _ => f32NaN
  | _, .nan => f32NaN
  | .inf s, .inf t => if s = t then f32Inf s else f32NaN
  | .inf s, .fin _ _ _ => f32Inf s
  | .fin _ _ _, .inf t => f32Inf t
  | .fin s m k, .fin t n l =>
    let e := min k l
    let z := signedShift s m (k - e) + signedShift t n (l - e)
    if z = 0 then f32Zero (s && t) else f32Round (decide (z < 0)) z.natAbs 1 e

/-- `a ⊘ b = fl(a/b)` (R12). -/
def f32Div (a b : F32) : F32 :=
  match f32Unpack a, f32Unpack b with
  | .nan, _ => f32NaN
  | _, .nan => f32NaN
  | .inf _, .inf _ => f32NaN
  | .inf s, .fin t _ _ => f32Inf (s != t)
  | .fin s _ _, .inf t => f32Zero (s != t)
  | .fin s m k, .fin t n l =>
    if n = 0 then (if m = 0 then f32NaN else f32Inf (s != t))
    else f32Round (s != t) m n (k - l)

/-- The integer nearest `n / d` in the mode of QUANT_ROUND, for a magnitude (40_dispatch.md R111). -/
def roundMagnitude (mode : QuantRound) (n d : Nat) : Nat :=
  match mode with
  | .tiesEven => divNearestEven n d
  | .tiesAway => if d ≤ 2 * (n % d) then n / d + 1 else n / d
  | .trunc => n / d

/-- `Round(x)`, an exact integer, for a finite `x` (40_dispatch.md R111); none when `x` is not finite. -/
def f32ToInt (mode : QuantRound) (w : F32) : Option Int :=
  match f32Unpack w with
  | .nan => none
  | .inf _ => none
  | .fin neg m k =>
    let n := roundMagnitude mode (m * 2 ^ k.toNat) (2 ^ (-k).toNat)
    some (if neg then -(n : Int) else (n : Int))

end Sys2Proof.Machine
end

