-- ==== Sys2Proof/Syntax.lean ====
section
/-! DEFINITION. The commands of JDQ: one constructor per row of spec/opcode_table.json (30_encoding.md R75 to R80). -/

namespace Sys2Proof

/-- A queue entry: the command word and the argument word (30_encoding.md R75, 10_state.md R18). -/
structure Entry where
  word : Word
  arg : Word
  deriving DecidableEq, Repr

/-- A command. Every constructor carries ALL the bits of its queue entry beside the opcode: COMP, the reserved
field RSVD and the argument, used or not (R76, R77). So the command word, which the errors CFG and RANGE
capture (60_exceptions.md R197), is a function of the command, and encoding loses nothing. -/
inductive Instr where
  /-- NOP: COMP, RSVD and `arg` are ignored (43_sync.md R177). -/
  | nop (comp : BitVec 2) (rsvd : BitVec 22) (arg : Word)
  /-- DISPATCH of component `comp`; RSVD and `arg` are ignored (40_dispatch.md R100). -/
  | dispatch (comp : BitVec 2) (rsvd : BitVec 22) (arg : Word)
  /-- SIGNAL of the fence value `arg`; COMP and RSVD are ignored (43_sync.md R178). -/
  | signal (comp : BitVec 2) (rsvd : BitVec 22) (arg : Word)
  /-- DCRST: COMP, RSVD and `arg` are ignored (42_dc_coder.md R155). -/
  | dcrst (comp : BitVec 2) (rsvd : BitVec 22) (arg : Word)
  /-- DCENC of component `comp` and region `arg`; RSVD is ignored (42_dc_coder.md R156). -/
  | dcenc (comp : BitVec 2) (rsvd : BitVec 22) (arg : Word)
  deriving DecidableEq, Repr

/-- Why an entry decodes to no command (30_encoding.md R79, R81). -/
inductive Reject where
  /-- OPC `0x05` to `0xFF`. -/
  | badOpcode
  /-- COMP = 3 on DISPATCH or DCENC. -/
  | badComp
  deriving DecidableEq, Repr

end Sys2Proof
end

