-- ==== Sys2Proof/WellFormed.lean ====
section
/-! DEFINITION. Which commands are legal (spec/30_encoding.md R79, R80). -/

namespace Sys2Proof

/-- A command is well formed when the COMP field its opcode uses names a component: COMP = 3 is illegal for
DISPATCH and DCENC, and any COMP is accepted for NOP, SIGNAL and DCRST (R79). RSVD and an unused `arg` may hold
anything (R77, R80). -/
def Instr.wellFormed : Instr → Bool
  | .nop _ _ _ => true
  | .dispatch comp _ _ => comp != 3#2
  | .signal _ _ _ => true
  | .dcrst _ _ _ => true
  | .dcenc comp _ _ => comp != 3#2

end Sys2Proof
end

