-- ==== Sys2Proof/Decode.lean ====
section
/-! DEFINITION. Decoding a queue entry (spec/30_encoding.md R76 to R82), total on every entry, and the encoder
written from the same table. -/

namespace Sys2Proof

/-- OPC, bits [31:24] of the command word (R76). -/
def opcField (w : Word) : BitVec 8 := w.extractLsb' 24 8

/-- COMP, bits [23:22] of the command word (R76). -/
def compField (w : Word) : BitVec 2 := w.extractLsb' 22 2

/-- RSVD, bits [21:0] of the command word (R76). -/
def rsvdField (w : Word) : BitVec 22 := w.extractLsb' 0 22

/-- The component a COMP field names: 0 = Y, 1 = Cb, 2 = Cr, and none for 3 (R76, R79). -/
def compOf (comp : BitVec 2) : Option Comp :=
  if comp = 0#2 then some .y
  else if comp = 1#2 then some .cb
  else if comp = 2#2 then some .cr
  else none

/-- The COMP field of a component (R15). -/
def compBits : Comp → BitVec 2
  | .y => 0#2
  | .cb => 1#2
  | .cr => 2#2

/-- The decode algorithm of R82: every entry is a command or a named rejection. -/
def decode (e : Entry) : Except Reject Instr :=
  let comp := compField e.word
  let rsvd := rsvdField e.word
  if opcField e.word = 0x00#8 then .ok (.nop comp rsvd e.arg)
  else if opcField e.word = 0x01#8 then
    if comp = 3#2 then .error .badComp else .ok (.dispatch comp rsvd e.arg)
  else if opcField e.word = 0x02#8 then .ok (.signal comp rsvd e.arg)
  else if opcField e.word = 0x03#8 then .ok (.dcrst comp rsvd e.arg)
  else if opcField e.word = 0x04#8 then
    if comp = 3#2 then .error .badComp else .ok (.dcenc comp rsvd e.arg)
  else .error .badOpcode

/-- The opcode map of R78, row by row: the opcode of each command. -/
def opcodeOf : Instr → BitVec 8
  | .nop _ _ _ => 0x00#8
  | .dispatch _ _ _ => 0x01#8
  | .signal _ _ _ => 0x02#8
  | .dcrst _ _ _ => 0x03#8
  | .dcenc _ _ _ => 0x04#8

/-- A command word from its fields (R76). -/
def commandWord (opc : BitVec 8) (comp : BitVec 2) (rsvd : BitVec 22) : Word := opc ++ comp ++ rsvd

/-- The queue entry of a command (R76, R78). -/
def encode : Instr → Entry
  | .nop comp rsvd arg => { word := commandWord 0x00#8 comp rsvd, arg := arg }
  | .dispatch comp rsvd arg => { word := commandWord 0x01#8 comp rsvd, arg := arg }
  | .signal comp rsvd arg => { word := commandWord 0x02#8 comp rsvd, arg := arg }
  | .dcrst comp rsvd arg => { word := commandWord 0x03#8 comp rsvd, arg := arg }
  | .dcenc comp rsvd arg => { word := commandWord 0x04#8 comp rsvd, arg := arg }

/-- The opcode table of R78 as (match, mask) pairs, in the table's order. -/
def opcodeRows : List (Word × Word) :=
  [(0x00000000#32, 0xFF000000#32), (0x01000000#32, 0xFF000000#32), (0x02000000#32, 0xFF000000#32),
   (0x03000000#32, 0xFF000000#32), (0x04000000#32, 0xFF000000#32)]

/-- A row matches a command word when `(w & mask) = match` (R78). -/
def rowMatches (row : Word × Word) (w : Word) : Bool := w &&& row.2 == row.1

/-- The queue entry whose 64 bits are `w`: bits 31..0 the command word, bits 63..32 the argument, every bit at or
above `nbits` zero. JDQ takes a command as two 32-bit words (R75); no byte order enters. -/
def entryOfBits (nbits w : Nat) : Entry :=
  { word := BitVec.ofNat 32 (w % 2 ^ nbits), arg := BitVec.ofNat 32 (w % 2 ^ nbits / 2 ^ 32) }

/-- The command the decoder reads from a table word, or none where it rejects. -/
def decodeTableWord (nbits w : Nat) : Option Instr :=
  match decode (entryOfBits nbits w) with
  | .ok i => some i
  | .error _ => none

end Sys2Proof
end

