-- ==== Sys2Proof/Machine/State.lean ====
section
/-! DEFINITION. The state of JDQ as plain data (spec/10_state.md), its errors, its faults, the events of the
outside world, and the state after reset (70_reset_and_hazards.md R231). -/

namespace Sys2Proof.Machine

/-- The thirteen recorded errors, in the order of the error table (60_exceptions.md R197). -/
inductive ErrKind where
  | cqOverflow
  | badOpcode
  | badComp
  | cfg
  | range
  | quantInvalid
  | acCategory
  | acNoCode
  | acOverflow
  | dcCategory
  | dcNoCode
  | busyWrite
  | busError
  deriving DecidableEq, Repr

/-- The RAMs of the Host address map (20_memory.md R53, 00_scope.md R11). -/
inductive Space where
  | dmat
  | dtmat
  | qtab0
  | qtab1
  | achuf0
  | achuf1
  | dchuf0
  | dchuf1
  | result
  | dcm
  deriving DecidableEq, Repr

/-- Host space as stored: the bytes of every RAM word written since reset, by byte address, little-endian
(20_memory.md R53, R59). An address not listed is undefined (10_state.md R50). -/
abbrev Memory := List Host.Cell

/-- CTRL's stored fields (10_state.md R22). Its reserved bits are RAZ/WI and are not stored. -/
structure Ctrl where
  quality : BitVec 7
  subsample : BitVec 2
  fenceIrqEn : Bool
  errIrqEn : Bool
  deriving DecidableEq, Repr

/-- The three configuration registers of one component (10_state.md R33, R34, R35). -/
structure CompRegs where
  nb : Word
  base : BitVec 22
  sel : BitVec 3
  deriving DecidableEq, Repr

/-- What a Host `WAIT` polls for (30_encoding.md R84, 43_sync.md R181). -/
inductive WaitCond where
  /-- `FENCE_COMPLETED ≥ v`. -/
  | fenceAtLeast (v : Word)
  /-- `STATUS.BUSY = 0`. -/
  | notBusy
  /-- `STATUS.IRQ = 1`. -/
  | irqHigh
  deriving DecidableEq, Repr

/-- One event of the interleaving of Host accesses and Engine steps (20_memory.md R69), or of the reset input. -/
inductive Input where
  /-- A slot in which the Engine takes a step if one is enabled (43_sync.md R175). -/
  | engine
  /-- The Host writes a word (20_memory.md R58). -/
  | hostWrite (addr data : Word)
  /-- The Host reads a word (20_memory.md R58). -/
  | hostRead (addr : Word)
  /-- The Host polls until a condition holds (43_sync.md R181). -/
  | wait (c : WaitCond)
  /-- The reset input is asserted (70_reset_and_hazards.md R230). -/
  | reset
  deriving DecidableEq, Repr

/-- Why a step ends in a fault. JDQ itself has no traps (60_exceptions.md R195): every error of its table is
recorded and the machine goes on. -/
inductive Fault where
  /-- Raised by DISPATCH and DCENC where the command reads a RAM word not written since reset, which 10_state.md
  R50 tells a model to treat as a fault. Safe: the hardware computes with whatever the RAM holds, and no
  claim about that can be proved. -/
  | undefinedRead (space : Space) (index : Nat)
  /-- Raised by the Host's WAIT when its condition does not hold and no command is left that could make it hold
  (93_implementation_defined.md I35, "stuck"). Safe: the hardware's Host polls forever. -/
  | waitNeverEnds (c : WaitCond)
  deriving DecidableEq, Repr

/-- Why a step is refused. -/
inductive Refusal where
  /-- Raised by an arm of `exec` whose command has no meaning yet. Safe: no claim about it can be proved. -/
  | notModelled (mnemonic : String)
  deriving DecidableEq, Repr

/-- The state of JDQ. The registers ID, STATUS, EBS, CAP_* and CMD hold no value of their own (10_state.md R20,
R21, R23, R30 to R32, R39): they are computed where they are read. -/
structure State where
  /-- The command queue, oldest entry first (R18). -/
  cq : List Entry
  /-- CTRL (R22). -/
  ctrl : Ctrl
  /-- ERR, the sticky error flags (R24). -/
  err : BitVec 13
  /-- ERR_CODE (R25). -/
  errCode : BitVec 8
  /-- ERR_REGION (R26). -/
  errRegion : Word
  /-- ERR_AUX (R27). -/
  errAux : Word
  /-- SURF_W (R28). -/
  surfW : BitVec 16
  /-- SURF_H (R29). -/
  surfH : BitVec 16
  /-- COMPc_NB, COMPc_BASE, COMPc_SEL (R33, R34, R35). -/
  comps : PerComp CompRegs
  /-- FENCE_COMPLETED (R36). -/
  fenceCompleted : Word
  /-- FENCE_EVENT (R37). -/
  fenceEvent : Word
  /-- CMD_ARG (R38). -/
  cmdArg : Word
  /-- PREV_DC0, PREV_DC1, PREV_DC2 (R40). -/
  prevDc : PerComp Word
  /-- All RAMs: DMAT, DTMAT, QTAB0/1, ACHUF0/1, DCHUF0/1, RESULT, DCM (R41 to R44, R46, R47, R50). -/
  mem : Memory
  /-- The binding of the source surface (R49, 20_memory.md R66): rows of texels; `Config.surface` gives the pixels
  not listed. No step changes it. -/
  surface : List (List Word)
  /-- The implementation parameters (00_scope.md R9). No step changes them. -/
  params : Params
  /-- The model's own: the pending events of the outside world, in order (notes/assumptions/2.md). -/
  inputs : List Input
  /-- The model's own: the values Host reads have returned, newest first (notes/assumptions/6.md). -/
  reads : List Word
  /-- The model's own: how many free values have been drawn (notes/assumptions/6.md). -/
  draws : Nat
  deriving DecidableEq, Repr

/-- The state after reset (70_reset_and_hazards.md R231, 10_state.md §7), with the default parameters (00_scope.md
R9), no listed texel, no pending event, and no free value drawn (DESIGN CHOICE, notes/assumptions/1.md, 2.md,
3.md, 6.md). -/
def State.reset : State where
  cq := []
  ctrl := { quality := 100#7, subsample := 0#2, fenceIrqEn := false, errIrqEn := false }
  err := 0#13
  errCode := 0#8
  errRegion := 0#32
  errAux := 0#32
  surfW := 0#16
  surfH := 0#16
  comps :=
    { y := { nb := 0#32, base := 0#22, sel := 0#3 }
      cb := { nb := 0#32, base := 0#22, sel := 7#3 }
      cr := { nb := 0#32, base := 0#22, sel := 7#3 } }
  fenceCompleted := 0#32
  fenceEvent := 0xFFFFFFFF#32
  cmdArg := 0#32
  prevDc := { y := 0#32, cb := 0#32, cr := 0#32 }
  mem := []
  surface := []
  params := Params.default
  inputs := []
  reads := []
  draws := 0

end Sys2Proof.Machine
end

