-- ==== Sys2Proof/Machine/Memory.lean ====
section
/-! DEFINITION. The byte memory behind the RAM windows: one canonical form, reading and writing one byte, and the
32-bit little-endian words built from it (spec/20_memory.md R58, R59; 10_state.md R50). -/

namespace Sys2Proof.Machine

/-- The byte at address `a`, or none where nothing has been stored (10_state.md R50: undefined). This is the one
definition of what an unlisted address reads as. -/
def readByte : Memory → Nat → Option Byte
  | [], _ => none
  | (b, v) :: rest, a => if b = a then some v else readByte rest a

/-- Store one byte, keeping the addresses strictly rising. -/
def writeByte : Memory → Nat → Byte → Memory
  | [], a, v => [(a, v)]
  | (b, w) :: rest, a, v =>
    if a < b then (a, v) :: (b, w) :: rest
    else if a = b then (a, v) :: rest
    else (b, w) :: writeByte rest a v

/-- Every address of `m` is above `lo` and the addresses rise strictly. -/
def risingAbove : Option Nat → Memory → Bool
  | _, [] => true
  | none, (a, _) :: rest => risingAbove (some a) rest
  | some lo, (a, _) :: rest => decide (lo < a) && risingAbove (some a) rest

/-- The canonical form: addresses strictly rising. An unlisted address has no value, so no entry can equal what it
reads as. -/
def Memory.wf (m : Memory) : Bool := risingAbove none m

/-- A word from its four bytes, the byte at the lowest address in bits [7:0] (R59). -/
def wordOfBytes (b0 b1 b2 b3 : Byte) : Word := b3 ++ b2 ++ b1 ++ b0

/-- Byte `k` of a word, bits [8k+7:8k] (R59). -/
def byteOfWord (w : Word) (k : Nat) : Byte := w.extractLsb' (8 * k) 8

/-- The word at byte address `a`, or none where a byte of it is undefined. -/
def readWord (m : Memory) (a : Nat) : Option Word :=
  match readByte m a, readByte m (a + 1), readByte m (a + 2), readByte m (a + 3) with
  | some b0, some b1, some b2, some b3 => some (wordOfBytes b0 b1 b2 b3)
  | _, _, _, _ => none

/-- Store a word at byte address `a`. -/
def writeWord (m : Memory) (a : Nat) (w : Word) : Memory :=
  writeByte (writeByte (writeByte (writeByte m a (byteOfWord w 0)) (a + 1) (byteOfWord w 1))
    (a + 2) (byteOfWord w 2)) (a + 3) (byteOfWord w 3)

end Sys2Proof.Machine
end

