-- ==== Sys2Proof/Machine/Ops.lean ====
section
/-! DEFINITION. The named operations every command and every Host access is built from: the address map,
`MemRead` and `MemWrite`, the command queue, recording an error and acknowledging it, reset, and free draws
(spec/00_scope.md R11, 20_memory.md R53, 43_sync.md R185, 60_exceptions.md R196, R218). -/

namespace Sys2Proof.Machine

/-- Base byte address of a RAM's window (20_memory.md R53). -/
def spaceBase : Space → Nat
  | .dmat => 0x00001000
  | .dtmat => 0x00001100
  | .qtab0 => 0x00001200
  | .qtab1 => 0x00001300
  | .achuf0 => 0x00001400
  | .achuf1 => 0x00001800
  | .dchuf0 => 0x00001C00
  | .dchuf1 => 0x00001C40
  | .result => 0x01000000
  | .dcm => 0x02000000

/-- Number of 32-bit words of a RAM (20_memory.md R53). -/
def spaceWords (p : Params) : Space → Nat
  | .dmat => 64
  | .dtmat => 64
  | .qtab0 => 64
  | .qtab1 => 64
  | .achuf0 => 256
  | .achuf1 => 256
  | .dchuf0 => 12
  | .dchuf1 => 12
  | .result => p.resultWords
  | .dcm => p.dcmWords

/-- The RAMs in the order of the map (20_memory.md R53). -/
def allSpaces : List Space :=
  [.dmat, .dtmat, .qtab0, .qtab1, .achuf0, .achuf1, .dchuf0, .dchuf1, .result, .dcm]

/-- Byte address of word `i` of a RAM (20_memory.md R55, R56, R57). -/
def spaceAddr (sp : Space) (i : Nat) : Nat := spaceBase sp + 4 * i

/-- `MemRead(space, i)` (00_scope.md R11), or none where the word is undefined (10_state.md R50). -/
def memRead (s : State) (sp : Space) (i : Nat) : Option Word := readWord s.mem (spaceAddr sp i)

/-- `MemWrite(space, i, v)` (00_scope.md R11). -/
def memWrite (s : State) (sp : Space) (i : Nat) (v : Word) : State :=
  { s with mem := writeWord s.mem (spaceAddr sp i) v }

/-- A word a command reads, or the fault of 10_state.md R50. -/
def fetchWord (s : State) (sp : Space) (i : Nat) : Except Fault Word :=
  match memRead s sp i with
  | some w => .ok w
  | none => .error (.undefinedRead sp i)

/-- The words `i, i + 1, ...` (`n` of them) of a RAM, or the fault of the first undefined one. -/
def fetchWords (s : State) (sp : Space) : Nat → Nat → Except Fault (List Word)
  | _, 0 => .ok []
  | i, n + 1 =>
    match fetchWord s sp i with
    | .error f => .error f
    | .ok w =>
      match fetchWords s sp (i + 1) n with
      | .error f => .error f
      | .ok ws => .ok (w :: ws)

/-- Store a list of words at consecutive indexes of a RAM, in ascending order. -/
def memWriteList (s : State) (sp : Space) : Nat → List Word → State
  | _, [] => s
  | i, w :: ws => memWriteList (memWrite s sp i w) sp (i + 1) ws

/-- Bit index of an error in ERR (60_exceptions.md R197). -/
def errBit : ErrKind → Nat
  | .cqOverflow => 0
  | .badOpcode => 1
  | .badComp => 2
  | .cfg => 3
  | .range => 4
  | .quantInvalid => 5
  | .acCategory => 6
  | .acNoCode => 7
  | .acOverflow => 8
  | .dcCategory => 9
  | .dcNoCode => 10
  | .busyWrite => 11
  | .busError => 12

/-- Code of an error in ERR_CODE: its bit index plus one (60_exceptions.md R197). -/
def errCodeOf (e : ErrKind) : BitVec 8 := BitVec.ofNat 8 (errBit e + 1)

/-- ERR with only the bit of `e` set. -/
def errMask (e : ErrKind) : BitVec 13 := 1#13 <<< errBit e

/-- The `raise` primitive (60_exceptions.md R196): the first error since ERR was all zero is captured, and the
error's sticky bit is set. JDQ's whole exception entry (R195, R217). -/
def raise (e : ErrKind) (region aux : Word) (s : State) : State :=
  if s.err = 0#13 then
    { s with errCode := errCodeOf e, errRegion := region, errAux := aux, err := s.err ||| errMask e }
  else { s with err := s.err ||| errMask e }

/-- The Host's acknowledgement of errors, JDQ's whole return from a handler (60_exceptions.md R218, 10_state.md
R24): `ERR <- ERR & ~w[12:0]`. The capture registers keep their values. -/
def ackErrors (w : Word) (s : State) : State := { s with err := s.err &&& ~~~(w.setWidth 13) }

/-- STATUS.BUSY: the queue holds at least one entry (10_state.md R21). -/
def busy (s : State) : Bool := !s.cq.isEmpty

/-- A Host write of `w` to CMD (43_sync.md R185). -/
def pushCommand (w : Word) (s : State) : State :=
  if s.cq.length = s.params.cqDepth then raise .cqOverflow 0#32 w s
  else { s with cq := s.cq ++ [{ word := w, arg := s.cmdArg }] }

/-- `pop(cq)`: the executed entry leaves the queue (43_sync.md R175). -/
def popCommand (s : State) : State := { s with cq := s.cq.tail }

/-- One free value, and the state with the draw counted (20_memory.md R64). -/
def drawWord (s : State) : Word × State := (Config.freeWord s.draws, { s with draws := s.draws + 1 })

/-- The reset input (70_reset_and_hazards.md R230): every element of JDQ's state takes its reset value. The
parameters, the surface and the outside world's own data are not JDQ's state and stay. -/
def resetEvent (s : State) : State :=
  { State.reset with
    params := s.params, surface := s.surface, inputs := s.inputs, reads := s.reads, draws := s.draws }

end Sys2Proof.Machine
end

