-- ==== Sys2Proof/Machine/Flags.lean ====
section
/-! DEFINITION. The values JDQ computes from its state: EBS, STATUS and the interrupt level (spec/10_state.md R21,
R23; 60_exceptions.md R213 to R216), and CTRL's legalization (10_state.md R22). -/

namespace Sys2Proof.Machine

/-- EBS, the words of a region: `N = max(QUALITY, 12) div 3 + 2` (10_state.md R23). -/
def ebs (s : State) : Nat := max s.ctrl.quality.toNat 12 / 3 + 2

/-- The fence interrupt source (60_exceptions.md R215), an unsigned comparison (R213). -/
def fenceIrq (s : State) : Bool := s.ctrl.fenceIrqEn && decide (s.fenceEvent.toNat ≤ s.fenceCompleted.toNat)

/-- The error interrupt source (60_exceptions.md R216). -/
def errIrq (s : State) : Bool := s.ctrl.errIrqEn && s.err != 0#13

/-- The level-sensitive interrupt output (60_exceptions.md R213). -/
def irq (s : State) : Bool := fenceIrq s || errIrq s

/-- STATUS.CQ_FULL (10_state.md R21). -/
def cqFull (s : State) : Bool := s.cq.length == s.params.cqDepth

/-- The STATUS word: CQ_COUNT [23:8], IRQ [2], CQ_FULL [1], BUSY [0], the rest 0 (10_state.md R21). -/
def statusWord (s : State) : Word :=
  0#8 ++ BitVec.ofNat 16 s.cq.length ++ 0#5 ++ BitVec.ofBool (irq s) ++ BitVec.ofBool (cqFull s)
    ++ BitVec.ofBool (busy s)

/-- The CTRL word: QUALITY [6:0], SUBSAMPLE [9:8], FENCE_IRQ_EN [16], ERR_IRQ_EN [17], the rest 0
(10_state.md R22). -/
def ctrlWord (c : Ctrl) : Word :=
  0#14 ++ BitVec.ofBool c.errIrqEn ++ BitVec.ofBool c.fenceIrqEn ++ 0#6 ++ c.subsample ++ 0#1 ++ c.quality

/-- "A written 0 is stored as 1; a written 101 to 127 is stored as 100." (10_state.md R22) -/
def legalQuality (q : BitVec 7) : BitVec 7 :=
  if q = 0#7 then 1#7 else if 100 < q.toNat then 100#7 else q

/-- "A written 3 leaves the field unchanged." (10_state.md R22) -/
def legalSubsample (old new : BitVec 2) : BitVec 2 := if new = 3#2 then old else new

end Sys2Proof.Machine
end

