-- ==== Sys2Proof/Machine/Operands.lean ====
section
/-! DEFINITION. The operands of the commands: the configuration of a component, its tables, the Huffman entries,
the block grid, the surface and the sample block (spec/30_encoding.md R77, 40_dispatch.md R100 to R107). -/

namespace Sys2Proof.Machine

/-- NBX, the number of block columns of component `c` (10_state.md R33). -/
def gridCols (s : State) (c : Comp) : Nat := ((s.comps.get c).nb.extractLsb' 0 16).toNat

/-- NBY, the number of block rows of component `c` (10_state.md R33). -/
def gridRows (s : State) (c : Comp) : Nat := ((s.comps.get c).nb.extractLsb' 16 16).toNat

/-- BASE, the region index of block (0, 0) of component `c` (10_state.md R34). -/
def regionBase (s : State) (c : Comp) : Nat := (s.comps.get c).base.toNat

/-- The quantization table COMPc_SEL.QSEL selects (10_state.md R35). -/
def qtabOf (s : State) (c : Comp) : Space := if (s.comps.get c).sel.getLsbD 0 then .qtab1 else .qtab0

/-- The AC Huffman table COMPc_SEL.ACSEL selects (10_state.md R35). -/
def achufOf (s : State) (c : Comp) : Space := if (s.comps.get c).sel.getLsbD 1 then .achuf1 else .achuf0

/-- The DC Huffman table COMPc_SEL.DCSEL selects (10_state.md R35). -/
def dchufOf (s : State) (c : Comp) : Space := if (s.comps.get c).sel.getLsbD 2 then .dchuf1 else .dchuf0

/-- LEN of a Huffman entry word, bits [20:16] (10_state.md R43). -/
def huffLen (e : Word) : Nat := (e.extractLsb' 16 5).toNat

/-- CODE of a Huffman entry word cut to its low LEN bits (10_state.md R43). -/
def huffCode (e : Word) : Nat := (e.extractLsb' 0 16).toNat % 2 ^ huffLen e

/-- An entry is valid when `1 ≤ LEN ≤ 16`; otherwise the symbol has no code (10_state.md R43, R44). -/
def huffValid (e : Word) : Bool := decide (1 ≤ huffLen e ∧ huffLen e ≤ 16)

/-- `CAT_LUT[m]`: `bitlen(m)` for `m < 2048`, and no entry above (10_state.md R45). -/
def catLut (m : Nat) : Option Nat :=
  if m < 2048 then some (if m = 0 then 0 else Nat.log2 m + 1) else none

/-- `Amp(v, s)`: `v` if it is not negative, else `v + 2^s - 1` (41_zigzag_ac.md R135, 42_dc_coder.md R161). -/
def amplitude (v : Int) (s : Nat) : Nat := if 0 ≤ v then v.toNat else (v + 2 ^ s - 1).toNat

/-- The pixel footprint `(fx, fy)` of a block of component `c` (40_dispatch.md R103). -/
def footprint (c : Comp) (subsample : BitVec 2) : Nat × Nat :=
  match c with
  | .y => (8, 8)
  | .cb => if subsample = 1#2 then (16, 8) else if subsample = 2#2 then (16, 16) else (8, 8)
  | .cr => if subsample = 1#2 then (16, 8) else if subsample = 2#2 then (16, 16) else (8, 8)

/-- `Surface(x, y)`: the texel at pixel `(x, y)` (20_memory.md R66), the listed one or the free value. -/
def surfaceTexel (s : State) (x y : Nat) : Word :=
  match s.surface[y]? with
  | some row => row.getD x (Config.surface x y)
  | none => Config.surface x y

/-- `clampx`, `clampy`: only the upper clamp applies (40_dispatch.md R104). -/
def clampCoord (v dim : Nat) : Nat := min v (dim - 1)

/-- The pixel cell of sample `(i, j)` of block `(bx, by)`, in row order, top-left pixel first (40_dispatch.md
R104). -/
def sampleCell (s : State) (fx fy bx row i j : Nat) : List (Nat × Nat) :=
  (List.range (fy / 8)).flatMap fun b =>
    (List.range (fx / 8)).map fun a =>
      (clampCoord (bx * fx + i * (fx / 8) + a) s.surfW.toNat,
       clampCoord (row * fy + j * (fy / 8) + b) s.surfH.toNat)

/-- The default ColorConvert, JFIF with the level shift, evaluated exactly and rounded once (40_dispatch.md R106). -/
def jfifConvert (c : Comp) (r g b : Int) : F32 :=
  match c with
  | .y => f32OfRatio (299 * r + 587 * g + 114 * b - 128000) 1000
  | .cb => f32OfRatio (-168736 * r - 331264 * g + 500000 * b) 1000000
  | .cr => f32OfRatio (500000 * r - 418688 * g - 81312 * b) 1000000

/-- `ColorConvert(c, R, G, B)` under the parameter (40_dispatch.md R106). -/
def colorConvert (p : Params) (c : Comp) (r g b : Nat) : F32 :=
  match p.colorConvert with
  | .jfif => jfifConvert c r g b
  | .free => (Config.colorConvert c r g b).toF32

/-- `ColorConvert(c, rgb(t))` of a texel: R in [7:0], G in [15:8], B in [23:16]; alpha is ignored (40_dispatch.md
R105, 20_memory.md R66). -/
def convertTexel (p : Params) (c : Comp) (t : Word) : F32 :=
  colorConvert p c (t.extractLsb' 0 8).toNat (t.extractLsb' 8 8).toNat (t.extractLsb' 16 8).toNat

/-- The value of one sample from the texels of its cell: the top-left pixel under POINT, the mean under BOX, and
that one pixel under either when the cell has one (40_dispatch.md R105). A cell is never empty. -/
def filterCell (p : Params) (c : Comp) : List Word → F32
  | [] => f32Zero false
  | [t] => convertTexel p c t
  | t :: t' :: ts =>
    match p.chromaFilter with
    | .point => convertTexel p c t
    | .box =>
      f32Div ((t' :: ts).foldl (fun acc u => f32Add acc (convertTexel p c u)) (convertTexel p c t))
        (f32OfRatio ((t :: t' :: ts).length : Nat) 1)

/-- `SampleBlock`: the 64 samples of block `(bx, by)`, sample `(i, j)` at index `8j + i` (40_dispatch.md R105,
R107). -/
def sampleBlock (s : State) (c : Comp) (bx row : Nat) : List F32 :=
  let (fx, fy) := footprint c s.ctrl.subsample
  (List.range 64).map fun n =>
    filterCell s.params c
      ((sampleCell s fx fy bx row (n % 8) (n / 8)).map fun xy => surfaceTexel s xy.1 xy.2)

/-- The blocks of a grid in raster order, as pairs (block column, block row): rows outer, columns inner
(40_dispatch.md R102). -/
def gridBlocks (cols rows : Nat) : List (Nat × Nat) :=
  (List.range rows).flatMap fun row => (List.range cols).map fun col => (col, row)

/-- The region of block `(bx, by)`: `BASE + by·NBX + bx` (40_dispatch.md R102). -/
def blockRegion (s : State) (c : Comp) (blk : Nat × Nat) : Nat :=
  regionBase s c + blk.2 * gridCols s c + blk.1

/-- The tables a DISPATCH reads whole: the two matrices and the selected divisors (40_dispatch.md R100). -/
structure Tables where
  d : List F32
  dt : List F32
  q : List F32
  deriving DecidableEq, Repr

/-- Read a DISPATCH's tables, or the fault of an undefined word (10_state.md R50). DEDUCED,
notes/assumptions/10.md: all 64 words of each are read before the first block. -/
def fetchTables (s : State) (c : Comp) : Except Fault Tables :=
  match fetchWords s .dmat 0 64 with
  | .error f => .error f
  | .ok d =>
    match fetchWords s .dtmat 0 64 with
    | .error f => .error f
    | .ok dt =>
      match fetchWords s (qtabOf s c) 0 64 with
      | .error f => .error f
      | .ok q => .ok { d := d, dt := dt, q := q }

end Sys2Proof.Machine
end

