-- ==== Sys2Proof/Machine/DcCoder.lean ====
section
/-! DEFINITION. The meanings of DCRST and DCENC (spec/42_dc_coder.md R155 to R167). -/

namespace Sys2Proof.Machine

/-- `DCRST` (42_dc_coder.md R155). -/
def execDcrst (_comp : BitVec 2) (_rsvd : BitVec 22) (_arg : Word) (s : State) :
    Host.Outcome State Fault Refusal :=
  .next { s with prevDc := { y := 0#32, cb := 0#32, cr := 0#32 } }

/-- The DCM error word (42_dc_coder.md R163). -/
def dcmMarker : Word := 0xFFFFFFFF#32

/-- The DCM word of a code of length `len` and a difference of category `cat` (42_dc_coder.md R162). -/
def dcmWord (len code cat : Nat) (diff : Int) : Word :=
  (BitVec.ofNat 32 (len + cat) <<< 27) ||| (BitVec.ofNat 32 code <<< cat) ||| BitVec.ofNat 32 (amplitude diff cat)

/-- Whether region `r` lies wholly in RESULT and its word in DCM, in exact integer arithmetic (42_dc_coder.md
R165). -/
def dcRangeOk (s : State) (r : Nat) : Bool :=
  decide ((r + 1) * ebs s ≤ s.params.resultWords ∧ r < s.params.dcmWords)

/-- `diff = dc - PREV_DCc`, exact (42_dc_coder.md R157). -/
def dcDiff (s : State) (c : Comp) (dc : Word) : Int := dc.toInt - (s.prevDc.get c).toInt

/-- `PREV_DCc <- dc` (42_dc_coder.md R157, R167). -/
def setPrevDc (s : State) (c : Comp) (dc : Word) : State := { s with prevDc := s.prevDc.set c dc }

/-- DCENC past its range check, with the region's DC word read: predictor update, category, table look-up, DCM
word (42_dc_coder.md R156). -/
def dcencWith (c : Comp) (r : Word) (dc : Word) (s : State) : Except Fault State :=
  let diff := dcDiff s c dc
  let t := setPrevDc s c dc
  match catLut diff.natAbs with
  | none => .ok (raise .dcCategory r (BitVec.ofInt 32 diff) (memWrite t .dcm r.toNat dcmMarker))
  | some cat =>
    match fetchWord s (dchufOf s c) cat with
    | .error f => .error f
    | .ok e =>
      if huffValid e then .ok (memWrite t .dcm r.toNat (dcmWord (huffLen e) (huffCode e) cat diff))
      else .ok (raise .dcNoCode r (BitVec.ofNat 32 cat) (memWrite t .dcm r.toNat dcmMarker))

/-- `DCENC c, r` (42_dc_coder.md R156). COMP = 3 is rejected at decode and is BAD_COMP here too (30_encoding.md
R79). -/
def execDcenc (comp : BitVec 2) (rsvd : BitVec 22) (arg : Word) (s : State) :
    Host.Outcome State Fault Refusal :=
  let word := commandWord 0x04#8 comp rsvd
  match compOf comp with
  | none => .next (raise .badComp 0#32 word s)
  | some c =>
    if dcRangeOk s arg.toNat then
      match fetchWord s .result (arg.toNat * ebs s) with
      | .error f => .fault f
      | .ok dc =>
        match dcencWith c arg dc s with
        | .error f => .fault f
        | .ok t => .next t
    else .next (raise .range arg word s)

end Sys2Proof.Machine
end

