-- ==== Sys2Proof/Machine/Transform.lean ====
section
/-! DEFINITION. The forward DCT, quantization and the zig-zag order (spec/40_dispatch.md R108 to R112,
41_zigzag_ac.md R130, R131). Blocks and matrices are lists of 64, row-major (00_scope.md R13). -/

namespace Sys2Proof.Machine

/-- A sum of products, left to right, with no fused operation (40_dispatch.md R108). -/
def seqDot : List (F32 × F32) → F32
  | [] => f32Zero false
  | (a, b) :: rest => rest.foldl (fun acc xy => f32Add acc (f32Mul xy.1 xy.2)) (f32Mul a b)

/-- The product of two 8×8 matrices under SEQ32 (40_dispatch.md R108). -/
def matMul (a b : List F32) : List F32 :=
  (List.range 64).map fun n =>
    seqDot ((List.range 8).map fun k => (a.getD (8 * (n / 8) + k) 0#32, b.getD (8 * k + n % 8) 0#32))

/-- `FDCT(S) = (D·S)·Dt` under the parameter DCT_ARITH (40_dispatch.md R108). -/
def fdct (p : Params) (d dt s : List F32) : List F32 :=
  match p.dctArith with
  | .seq32 => matMul (matMul d s) dt
  | .free => (List.range 64).map fun n => Config.fdct s d dt n

/-- A legal divisor is finite and above zero (40_dispatch.md R112, point 1). -/
def divisorOk (qd : F32) : Bool := f32Finite qd && !f32Neg qd && qd != 0#32

/-- The quantized coefficient, or none when one of the four points of R112 holds (40_dispatch.md R111, R112). -/
def quantizeOne (mode : QuantRound) (f qd : F32) : Option Int :=
  if divisorOk qd && f32Finite f then
    match f32ToInt mode (f32Div f qd) with
    | none => none
    | some q => if -2147483648 ≤ q ∧ q ≤ 2147483647 then some q else none
  else none

/-- `Quantize`, scanning in ascending order from index `n`: the coefficients, or the first failing index
(40_dispatch.md R112). -/
def quantizeFrom (mode : QuantRound) : Nat → List (F32 × F32) → Except Nat (List Int)
  | _, [] => .ok []
  | n, (f, qd) :: rest =>
    match quantizeOne mode f qd with
    | none => .error n
    | some q =>
      match quantizeFrom mode (n + 1) rest with
      | .error bad => .error bad
      | .ok qs => .ok (q :: qs)

/-- The ZZ ROM: the natural index of each zig-zag position (10_state.md R48, 41_zigzag_ac.md R130). -/
def zzRom : List Nat :=
  [0, 1, 8, 16, 9, 2, 3, 10] ++ [17, 24, 32, 25, 18, 11, 4, 5] ++
  [12, 19, 26, 33, 40, 48, 41, 34] ++ [27, 20, 13, 6, 7, 14, 21, 28] ++
  [35, 42, 49, 56, 57, 50, 43, 36] ++ [29, 22, 15, 23, 30, 37, 44, 51] ++
  [58, 59, 52, 45, 38, 31, 39, 46] ++ [53, 60, 61, 54, 47, 55, 62, 63]

/-- `ZigZag(q)`: `zz[k] = q[ZZ[k]]` (41_zigzag_ac.md R131). -/
def zigzag (q : List Int) : List Int := zzRom.map fun n => q.getD n 0

end Sys2Proof.Machine
end

