-- ==== Sys2Proof/Machine/Entropy.lean ====
section
/-! DEFINITION. AC run/size Huffman coding, packing, and the EntropyResult region of a block
(spec/41_zigzag_ac.md R132 to R144). A bitstring is the list of its bits in stream order (00_scope.md R14). -/

namespace Sys2Proof.Machine

/-- `emit(code, len)`: the `len` bits of `code`, most significant first (00_scope.md R14). -/
def emitBits (code len : Nat) : List Bool := (List.range len).map fun k => code.testBit (len - 1 - k)

/-- Why AC coding stops: one of the errors of 41_zigzag_ac.md R133 and R134, or a look-up of an undefined table
word (10_state.md R50). -/
inductive AcStop where
  | category (v : Int)
  | noCode (rs : Nat)
  | undefinedEntry (rs : Nat)
  deriving DecidableEq, Repr

/-- `Lookup(as, RS)`: the bits of the symbol's code (41_zigzag_ac.md R133). -/
def acLookup (table : Nat → Option Word) (rs : Nat) : Except AcStop (List Bool) :=
  match table rs with
  | none => .error (.undefinedEntry rs)
  | some e => if huffValid e then .ok (emitBits (huffCode e) (huffLen e)) else .error (.noCode rs)

/-- `Category(v)` of a nonzero AC coefficient: 1 to 10, or AC_CATEGORY (41_zigzag_ac.md R134). -/
def acCategoryOf (v : Int) : Except AcStop Nat :=
  match catLut v.natAbs with
  | none => .error (.category v)
  | some s => if 10 < s then .error (.category v) else .ok s

/-- `n` ZRL symbols, one look-up each (41_zigzag_ac.md R136). -/
def zrlBits (table : Nat → Option Word) : Nat → Except AcStop (List Bool)
  | 0 => .ok []
  | n + 1 =>
    match acLookup table 0xF0 with
    | .error e => .error e
    | .ok bits =>
      match zrlBits table n with
      | .error e => .error e
      | .ok more => .ok (bits ++ more)

/-- The bits of one nonzero coefficient after a run of zeros: a ZRL for every 16 zeros, the symbol `run·16 + s`,
the amplitude; the first failing step is the error (41_zigzag_ac.md R132, R135, R136). -/
def coefficientBits (table : Nat → Option Word) (run : Nat) (v : Int) : Except AcStop (List Bool) :=
  match zrlBits table (run / 16) with
  | .error e => .error e
  | .ok zrls =>
    match acCategoryOf v with
    | .error e => .error e
    | .ok s =>
      match acLookup table (run % 16 * 16 + s) with
      | .error e => .error e
      | .ok code => .ok (zrls ++ code ++ emitBits (amplitude v s) s)

/-- The loop of `EncodeAC` over the coefficients that remain, with the present run of zeros, and the EOB that ends
a block whose last coefficient is zero (41_zigzag_ac.md R132, R137). -/
def encodeAcFrom (table : Nat → Option Word) : Nat → List Int → Except AcStop (List Bool)
  | 0, [] => .ok []
  | _ + 1, [] => acLookup table 0x00
  | run, v :: rest =>
    if v = 0 then encodeAcFrom table (run + 1) rest
    else
      match coefficientBits table run v with
      | .error e => .error e
      | .ok bits =>
        match encodeAcFrom table 0 rest with
        | .error e => .error e
        | .ok more => .ok (bits ++ more)

/-- `EncodeAC(zz, as)`, over the AC coefficients `zz[1..63]` (41_zigzag_ac.md R132). -/
def encodeAc (table : Nat → Option Word) (zz : List Int) : Except AcStop (List Bool) :=
  encodeAcFrom table 0 zz.tail

/-- One packed word: stream bit `j` at bit `31 - j`, bits past the end 0 (41_zigzag_ac.md R140). -/
def packWord (bits : List Bool) : Word :=
  BitVec.ofNat 32 ((List.range 32).foldl (fun acc j => 2 * acc + (bits.getD j false).toNat) 0)

/-- `Pack(bs, N)`: `N - 2` words (41_zigzag_ac.md R140). -/
def pack (bits : List Bool) (n : Nat) : List Word :=
  (List.range (n - 2)).map fun w => packWord (bits.drop (32 * w))

/-- What one block leaves: the `N` words of its region and its one error, if any, with the auxiliary operand
(41_zigzag_ac.md R141, R143, R144). -/
structure BlockOut where
  words : List Word
  err : Option (ErrKind × Word)
  deriving DecidableEq, Repr

/-- A region: the DC word, the `N - 2` AC words, the last word (41_zigzag_ac.md R141). -/
def regionWords (dc : Word) (ac : List Word) (last : Word) : List Word := dc :: (ac ++ [last])

/-- The error marker of a region's last word (41_zigzag_ac.md R143). -/
def regionMarker : Word := 0xFFFFFFFF#32

/-- The region of a failed block, with the given DC word and AC words (41_zigzag_ac.md R143). -/
def failedBlock (dc : Word) (ac : List Word) (e : ErrKind) (aux : Word) : BlockOut :=
  { words := regionWords dc ac regionMarker, err := some (e, aux) }

/-- `EncodeRegion(r, N, q0, zz, as)`, or the RS symbol of an undefined table word (41_zigzag_ac.md R139, R142,
R143; 10_state.md R50). -/
def encodeRegion (table : Nat → Option Word) (n : Nat) (q : List Int) : Except Nat BlockOut :=
  let dc := BitVec.ofInt 32 (q.getD 0 0)
  match encodeAc table (zigzag q) with
  | .error (.undefinedEntry rs) => .error rs
  | .error (.category v) =>
    .ok (failedBlock dc (List.replicate (n - 2) 0#32) .acCategory (BitVec.ofInt 32 v))
  | .error (.noCode rs) =>
    .ok (failedBlock dc (List.replicate (n - 2) 0#32) .acNoCode (BitVec.ofNat 32 rs))
  | .ok bits =>
    if 32 * (n - 2) < bits.length then
      .ok (failedBlock dc (pack bits n) .acOverflow (BitVec.ofNat 32 bits.length))
    else .ok { words := regionWords dc (pack bits n) (BitVec.ofNat 32 bits.length), err := none }

/-- One block from its samples: transform, quantize, and code or fail (40_dispatch.md R100, 41_zigzag_ac.md
R144). -/
def encodeBlock (p : Params) (t : Tables) (table : Nat → Option Word) (n : Nat) (samples : List F32) :
    Except Nat BlockOut :=
  match quantizeFrom p.quantRound 0 ((fdct p t.d t.dt samples).zip t.q) with
  | .error bad => .ok (failedBlock 0#32 (List.replicate (n - 2) 0#32) .quantInvalid (BitVec.ofNat 32 bad))
  | .ok q => encodeRegion table n q

end Sys2Proof.Machine
end

