-- ==== Sys2Proof/Machine/Encode.lean ====
section
/-! DEFINITION. The meaning of DISPATCH (spec/40_dispatch.md R100). -/

namespace Sys2Proof.Machine

/-- What block `blk` of component `c` leaves, computed from the configuration, the tables and the surface at the
command's start; nothing a DISPATCH writes is among them (20_memory.md R67, R68; 41_zigzag_ac.md R144). -/
def blockOut (s : State) (c : Comp) (t : Tables) (blk : Nat × Nat) : Except Fault BlockOut :=
  match encodeBlock s.params t (memRead s (achufOf s c)) (ebs s) (sampleBlock s c blk.1 blk.2) with
  | .error rs => .error (.undefinedRead (achufOf s c) rs)
  | .ok out => .ok out

/-- The blocks of a list in processing order, each with its region, or the first fault. -/
def blockOuts (s : State) (c : Comp) (t : Tables) : List (Nat × Nat) → Except Fault (List (Nat × BlockOut))
  | [] => .ok []
  | blk :: rest =>
    match blockOut s c t blk with
    | .error f => .error f
    | .ok out =>
      match blockOuts s c t rest with
      | .error f => .error f
      | .ok outs => .ok ((blockRegion s c blk, out) :: outs)

/-- Write region `r` whole and record the block's error, if any (41_zigzag_ac.md R142, R143). -/
def commitBlock (n : Nat) (s : State) (ro : Nat × BlockOut) : State :=
  let t := memWriteList s .result (ro.1 * n) ro.2.words
  match ro.2.err with
  | none => t
  | some (e, aux) => raise e (BitVec.ofNat 32 ro.1) aux t

/-- Write the regions of several blocks in processing order (40_dispatch.md R100, 60_exceptions.md R211). -/
def commitBlocks (n : Nat) (s : State) (outs : List (Nat × BlockOut)) : State := outs.foldl (commitBlock n) s

/-- Whether the grid of component `c` fits in RESULT, in exact integer arithmetic (40_dispatch.md R100). -/
def gridFits (s : State) (c : Comp) : Bool :=
  decide ((regionBase s c + gridCols s c * gridRows s c) * ebs s ≤ s.params.resultWords)

/-- DISPATCH past its command checks: encode every block of the grid (40_dispatch.md R100). -/
def dispatchGrid (c : Comp) (s : State) : Except Fault State :=
  match fetchTables s c with
  | .error f => .error f
  | .ok t =>
    match blockOuts s c t (gridBlocks (gridCols s c) (gridRows s c)) with
    | .error f => .error f
    | .ok outs => .ok (commitBlocks (ebs s) s outs)

/-- `DISPATCH c` (40_dispatch.md R100): an empty grid does nothing; then CFG, then RANGE, each with nothing
written; then the blocks in raster order. COMP = 3 is rejected at decode and is BAD_COMP here too
(30_encoding.md R79). -/
def execDispatch (comp : BitVec 2) (rsvd : BitVec 22) (_arg : Word) (s : State) :
    Host.Outcome State Fault Refusal :=
  let word := commandWord 0x01#8 comp rsvd
  match compOf comp with
  | none => .next (raise .badComp 0#32 word s)
  | some c =>
    if gridCols s c * gridRows s c = 0 then .next s
    else if s.surfW = 0#16 ∨ s.surfH = 0#16 then .next (raise .cfg 0#32 word s)
    else if gridFits s c then
      match dispatchGrid c s with
      | .error f => .fault f
      | .ok t => .next t
    else .next (raise .range (BitVec.ofNat 32 (regionBase s c)) word s)

end Sys2Proof.Machine
end

