-- ==== Sys2Proof/Machine/Sync.lean ====
section
/-! DEFINITION. The meanings of NOP and SIGNAL (spec/43_sync.md R177, R178). -/

namespace Sys2Proof.Machine

/-- `NOP` (43_sync.md R177): nothing. -/
def execNop (_comp : BitVec 2) (_rsvd : BitVec 22) (_arg : Word) (s : State) :
    Host.Outcome State Fault Refusal := .next s

/-- `SIGNAL v` (43_sync.md R178): `FENCE_COMPLETED <- v`. -/
def execSignal (_comp : BitVec 2) (_rsvd : BitVec 22) (arg : Word) (s : State) :
    Host.Outcome State Fault Refusal := .next { s with fenceCompleted := arg }

end Sys2Proof.Machine
end

