-- ==== Sys2Proof/Machine/Dispatch.lean ====
section
/-! DEFINITION. One arm for each command (spec/30_encoding.md R82). The entry's removal from the queue is the
step's (43_sync.md R175). -/

namespace Sys2Proof.Machine

def exec (i : Instr) (s : State) : Host.Outcome State Fault Refusal :=
  match i with
  | .nop comp rsvd arg => Sys2Proof.Machine.execNop comp rsvd arg s
  | .dispatch comp rsvd arg => Sys2Proof.Machine.execDispatch comp rsvd arg s
  | .signal comp rsvd arg => Sys2Proof.Machine.execSignal comp rsvd arg s
  | .dcrst comp rsvd arg => Sys2Proof.Machine.execDcrst comp rsvd arg s
  | .dcenc comp rsvd arg => Sys2Proof.Machine.execDcenc comp rsvd arg s

end Sys2Proof.Machine
end

