-- ==== Sys2Proof/Machine/HostPort.lean ====
section
/-! DEFINITION. Host accesses: the register block, the RAM windows, BUSY protection, bus errors
(spec/10_state.md R20 to R40, 20_memory.md R52 to R65). -/

namespace Sys2Proof.Machine

/-- The registers of the register block (10_state.md R20 to R40) and its reserved offsets (20_memory.md R54). -/
inductive Reg where
  | id
  | status
  | ctrl
  | ebs
  | err
  | errCode
  | errRegion
  | errAux
  | surfW
  | surfH
  | capResult
  | capDcm
  | capCq
  | compNb (c : Comp)
  | compBase (c : Comp)
  | compSel (c : Comp)
  | fenceCompleted
  | fenceEvent
  | cmdArg
  | cmd
  | prevDc (c : Comp)
  | reserved
  deriving DecidableEq, Repr

/-- The register at a word-aligned offset of the register block; every other offset is reserved (10_state.md R20
to R40, 20_memory.md R54). -/
def regAt : Nat → Reg
  | 0x000 => .id
  | 0x004 => .status
  | 0x008 => .ctrl
  | 0x00C => .ebs
  | 0x010 => .err
  | 0x014 => .errCode
  | 0x018 => .errRegion
  | 0x01C => .errAux
  | 0x020 => .surfW
  | 0x024 => .surfH
  | 0x028 => .capResult
  | 0x02C => .capDcm
  | 0x030 => .capCq
  | 0x040 => .compNb .y
  | 0x044 => .compBase .y
  | 0x048 => .compSel .y
  | 0x050 => .compNb .cb
  | 0x054 => .compBase .cb
  | 0x058 => .compSel .cb
  | 0x060 => .compNb .cr
  | 0x064 => .compBase .cr
  | 0x068 => .compSel .cr
  | 0x070 => .fenceCompleted
  | 0x074 => .fenceEvent
  | 0x078 => .cmdArg
  | 0x07C => .cmd
  | 0x080 => .prevDc .y
  | 0x084 => .prevDc .cb
  | 0x088 => .prevDc .cr
  | _ => .reserved

/-- ID reads "JDQ1" (10_state.md R20). -/
def idWord : Word := 0x4A445131#32

/-- The value a register reads as; it changes nothing (10_state.md R20 to R40, 20_memory.md R61). -/
def readReg (s : State) : Reg → Word
  | .id => idWord
  | .status => statusWord s
  | .ctrl => ctrlWord s.ctrl
  | .ebs => BitVec.ofNat 32 (ebs s)
  | .err => s.err.setWidth 32
  | .errCode => s.errCode.setWidth 32
  | .errRegion => s.errRegion
  | .errAux => s.errAux
  | .surfW => s.surfW.setWidth 32
  | .surfH => s.surfH.setWidth 32
  | .capResult => BitVec.ofNat 32 s.params.resultWords
  | .capDcm => BitVec.ofNat 32 s.params.dcmWords
  | .capCq => BitVec.ofNat 32 s.params.cqDepth
  | .compNb c => (s.comps.get c).nb
  | .compBase c => (s.comps.get c).base.setWidth 32
  | .compSel c => (s.comps.get c).sel.setWidth 32
  | .fenceCompleted => s.fenceCompleted
  | .fenceEvent => s.fenceEvent
  | .cmdArg => s.cmdArg
  | .cmd => 0#32
  | .prevDc c => s.prevDc.get c
  | .reserved => 0#32

/-- A write to configuration: it takes effect when BUSY = 0, and is refused with BUSY_WRITE when BUSY = 1
(20_memory.md R63). -/
def protectedWrite (addr : Word) (s t : State) : State :=
  if busy s then raise .busyWrite 0#32 addr s else t

/-- A CTRL write: the enables always take the written value; QUALITY and SUBSAMPLE are legalized, and while
BUSY = 1 a change of either is refused with `BUSY_WRITE(0, 0x008)` (10_state.md R22). -/
def writeCtrl (w : Word) (s : State) : State :=
  let q := legalQuality (w.extractLsb' 0 7)
  let ss := legalSubsample s.ctrl.subsample (w.extractLsb' 8 2)
  let t : State := { s with ctrl := { s.ctrl with fenceIrqEn := w.getLsbD 16, errIrqEn := w.getLsbD 17 } }
  if busy s then
    if q = s.ctrl.quality ∧ ss = s.ctrl.subsample then t else raise .busyWrite 0#32 0x008#32 t
  else { t with ctrl := { t.ctrl with quality := q, subsample := ss } }

/-- The state with one component's configuration registers replaced. -/
def setComp (s : State) (c : Comp) (r : CompRegs) : State := { s with comps := s.comps.set c r }

/-- A Host write of `w` to a register at byte address `addr` (10_state.md R20 to R40, 20_memory.md R54, R62). -/
def writeReg (r : Reg) (addr w : Word) (s : State) : State :=
  match r with
  | .id => s
  | .status => s
  | .ctrl => writeCtrl w s
  | .ebs => s
  | .err => ackErrors w s
  | .errCode => s
  | .errRegion => s
  | .errAux => s
  | .surfW => protectedWrite addr s { s with surfW := w.setWidth 16 }
  | .surfH => protectedWrite addr s { s with surfH := w.setWidth 16 }
  | .capResult => s
  | .capDcm => s
  | .capCq => s
  | .compNb c => protectedWrite addr s (setComp s c { s.comps.get c with nb := w })
  | .compBase c => protectedWrite addr s (setComp s c { s.comps.get c with base := w.setWidth 22 })
  | .compSel c => protectedWrite addr s (setComp s c { s.comps.get c with sel := w.setWidth 3 })
  | .fenceCompleted => s
  | .fenceEvent => { s with fenceEvent := w }
  | .cmdArg => { s with cmdArg := w }
  | .cmd => pushCommand w s
  | .prevDc _ => s
  | .reserved => s

/-- What a Host address reaches: a register, a word of a RAM, or nothing (20_memory.md R53). -/
inductive HostLoc where
  | reg (r : Reg)
  | ram (sp : Space) (i : Nat)
  | unmapped
  deriving DecidableEq, Repr

/-- Whether a byte address lies in a RAM's window (20_memory.md R53). -/
def inWindow (p : Params) (addr : Nat) (sp : Space) : Bool :=
  decide (spaceBase sp ≤ addr ∧ addr < spaceBase sp + 4 * spaceWords p sp)

/-- The Host address map (20_memory.md R53); every address not listed is unmapped. -/
def locate (p : Params) (addr : Nat) : HostLoc :=
  if addr < 0x100 then .reg (regAt addr)
  else
    match allSpaces.find? (inWindow p addr) with
    | some sp => .ram sp ((addr - spaceBase sp) / 4)
    | none => .unmapped

/-- RESULT and DCM, whose Host reads return any value while BUSY = 1 (20_memory.md R64). -/
def isDataRam : Space → Bool
  | .result => true
  | .dcm => true
  | _ => false

/-- The Huffman tables, whose words store bits [20:0] only (10_state.md R43, 20_memory.md R55). -/
def isHuffman : Space → Bool
  | .achuf0 => true
  | .achuf1 => true
  | .dchuf0 => true
  | .dchuf1 => true
  | _ => false

/-- The word a RAM stores of a Host write (20_memory.md R55). -/
def storedWord (sp : Space) (w : Word) : Word := if isHuffman sp then w &&& 0x001FFFFF#32 else w

/-- A Host read: the value it returns and the state after it (20_memory.md R58, R61, R64; 10_state.md R50). -/
def hostRead (addr : Word) (s : State) : Word × State :=
  if addr.toNat % 4 ≠ 0 then (0#32, raise .busError 0#32 addr s)
  else
    match locate s.params addr.toNat with
    | .unmapped => (0#32, raise .busError 0#32 addr s)
    | .reg r => (readReg s r, s)
    | .ram sp i =>
      if isDataRam sp && busy s then drawWord s
      else
        match memRead s sp i with
        | some w => (w, s)
        | none => drawWord s

/-- A Host write (20_memory.md R58, R62, R63; 60_exceptions.md R211: BUS_ERROR is checked first). -/
def hostWrite (addr w : Word) (s : State) : State :=
  if addr.toNat % 4 ≠ 0 then raise .busError 0#32 addr s
  else
    match locate s.params addr.toNat with
    | .unmapped => raise .busError 0#32 addr s
    | .reg r => writeReg r addr w s
    | .ram sp i => protectedWrite addr s (memWrite s sp i (storedWord sp w))

/-- Whether the condition a Host polls for holds (43_sync.md R181). -/
def waitHolds (s : State) : WaitCond → Bool
  | .fenceAtLeast v => decide (v.toNat ≤ s.fenceCompleted.toNat)
  | .notBusy => !busy s
  | .irqHigh => irq s

end Sys2Proof.Machine
end

