-- ==== Sys2Proof/Machine/Step.lean ====
section
/-! DEFINITION. One step of the interleaving of Host and Engine (spec/20_memory.md R69, 43_sync.md R175), and the
place a command is put so that the next step runs it. -/

namespace Sys2Proof.Machine

/-- Put an outcome's next state through `f`. -/
def mapNext (f : State → State) : Host.Outcome State Fault Refusal → Host.Outcome State Fault Refusal
  | .next s => .next (f s)
  | .fault r => .fault r
  | .refused r => .refused r

/-- `EngineStep` (43_sync.md R175): decode and execute the entry at the head, then remove it. A rejected entry
records BAD_OPCODE or BAD_COMP and is removed (30_encoding.md R79, R81). With an empty queue no Engine step is
enabled and nothing changes (60_exceptions.md R224: the Engine is idle). -/
def engineStep (s : State) : Host.Outcome State Fault Refusal :=
  match s.cq with
  | [] => .next s
  | e :: _ =>
    match decode e with
    | .ok i => mapNext popCommand (exec i s)
    | .error .badOpcode => .next (popCommand (raise .badOpcode 0#32 e.word s))
    | .error .badComp => .next (popCommand (raise .badComp 0#32 e.word s))

/-- A Host read as an event: the value joins the list of values read (notes/assumptions/6.md). -/
def hostReadEvent (addr : Word) (s : State) : State :=
  let (w, t) := hostRead addr s
  { t with reads := w :: t.reads }

/-- A Host WAIT as an event: it ends when its condition holds; until then the Engine goes on, and when no Engine
step is left it never ends (43_sync.md R181, 93_implementation_defined.md I35). `s` still holds the event. -/
def waitEvent (c : WaitCond) (rest : List Input) (s : State) : Host.Outcome State Fault Refusal :=
  if waitHolds s c then .next { s with inputs := rest }
  else if busy s then engineStep s
  else .fault (.waitNeverEnds c)

/-- One step: the next event of the outside world, or an Engine step where none is pending (fairness, 43_sync.md
R175). -/
def step (s : State) : Host.Outcome State Fault Refusal :=
  match s.inputs with
  | [] => engineStep s
  | .engine :: rest => engineStep { s with inputs := rest }
  | .hostWrite addr w :: rest => .next (hostWrite addr w { s with inputs := rest })
  | .hostRead addr :: rest => .next (hostReadEvent addr { s with inputs := rest })
  | .wait c :: rest => waitEvent c rest s
  | .reset :: rest => .next (resetEvent { s with inputs := rest })

/-- `s` with the command of the bits `w` at the head of the queue and an Engine slot next, so that `step` executes
exactly that command. JDQ fetches nothing from memory (20_memory.md R52): the head of `cq` is where the next
command stands. notes/assumptions/13.md. -/
def State.withFetchWord (s : State) (nbits w : Nat) : State :=
  { s with cq := entryOfBits nbits w :: s.cq.tail, inputs := .engine :: s.inputs }

end Sys2Proof.Machine
end

