-- ==== Sys2Proof/Machine/HostProgram.lean ====
section
/-! DEFINITION. The assembler's commands and pseudo-instructions as lists of Host events (spec/30_encoding.md R83,
R84), the order in which the Host feeds DCENC (42_dc_coder.md R170), and the layout it programs
(40_dispatch.md R102, 41_zigzag_ac.md R145). Nothing here changes the machine: a program is what stands in
`State.inputs`. -/

namespace Sys2Proof.Machine

/-- An assembler line (30_encoding.md R83). -/
inductive AsmCmd where
  | nop
  | dispatch (c : Comp)
  | signal (v : Word)
  | dcrst
  | dcenc (c : Comp) (region : Word)
  | word (w : Word)
  deriving DecidableEq, Repr

/-- Byte address of CMD_ARG (10_state.md R38). -/
def cmdArgAddr : Word := 0x078#32

/-- Byte address of CMD (10_state.md R39). -/
def cmdAddr : Word := 0x07C#32

/-- The Host writes of one assembler line: CMD_ARG first where the command has an argument, then CMD
(30_encoding.md R83). -/
def assemble : AsmCmd → List Input
  | .nop => [.hostWrite cmdAddr (commandWord 0x00#8 0#2 0#22)]
  | .dispatch c => [.hostWrite cmdAddr (commandWord 0x01#8 (compBits c) 0#22)]
  | .signal v => [.hostWrite cmdArgAddr v, .hostWrite cmdAddr (commandWord 0x02#8 0#2 0#22)]
  | .dcrst => [.hostWrite cmdAddr (commandWord 0x03#8 0#2 0#22)]
  | .dcenc c r => [.hostWrite cmdArgAddr r, .hostWrite cmdAddr (commandWord 0x04#8 (compBits c) 0#22)]
  | .word w => [.hostWrite cmdAddr w]

/-- `SUBMIT v` (30_encoding.md R84). -/
def submit (v : Word) : List AsmCmd := [.dispatch .y, .dispatch .cb, .dispatch .cr, .signal v]

/-- The regions of the luma blocks of MCU `(mx, my)`, left to right, then top to bottom; `w0` is NBX0 and `b0`
COMP0_BASE (42_dc_coder.md R170). -/
def mcuLumaRegions (mode : BitVec 2) (b0 w0 mx my : Nat) : List Nat :=
  if mode = 1#2 then [b0 + my * w0 + 2 * mx, b0 + my * w0 + 2 * mx + 1]
  else if mode = 2#2 then
    [b0 + 2 * my * w0 + 2 * mx, b0 + 2 * my * w0 + 2 * mx + 1,
     b0 + (2 * my + 1) * w0 + 2 * mx, b0 + (2 * my + 1) * w0 + 2 * mx + 1]
  else [b0 + my * w0 + mx]

/-- `MCU444`, `MCU422` or `MCU420`, by the mode: the luma DCENCs, then Cb, then Cr (30_encoding.md R84,
42_dc_coder.md R170). -/
def mcu (s : State) (mx my : Nat) : List AsmCmd :=
  (mcuLumaRegions s.ctrl.subsample (regionBase s .y) (gridCols s .y) mx my).map
    (fun r => .dcenc .y (BitVec.ofNat 32 r))
  ++ [.dcenc .cb (BitVec.ofNat 32 (regionBase s .cb + my * gridCols s .cb + mx)),
      .dcenc .cr (BitVec.ofNat 32 (regionBase s .cr + my * gridCols s .cb + mx))]

/-- `DCPASS`: DCRST, then every MCU in raster order over the chroma grid (30_encoding.md R84). -/
def dcPass (s : State) : List AsmCmd :=
  .dcrst :: (gridBlocks (gridCols s .cb) (gridRows s .cb)).flatMap fun blk => mcu s blk.1 blk.2

/-- `WAITFENCE v` (30_encoding.md R84). -/
def waitFence (v : Word) : List Input := [.wait (.fenceAtLeast v), .wait .notBusy]

/-- Load a RAM's words in ascending order, one Host write each (70_reset_and_hazards.md R232). -/
def loadSpace (sp : Space) (ws : List Word) : List Input :=
  ws.zipIdx.map fun wi => .hostWrite (BitVec.ofNat 32 (spaceAddr sp wi.2)) wi.1

/-- The block grid the Host computes for an image: dimensions divided by the footprint (40_dispatch.md R102). -/
def hostGrid (c : Comp) (mode : BitVec 2) (w h : Nat) : Nat × Nat :=
  (w / (footprint c mode).1, h / (footprint c mode).2)

/-- A COMPc_NB word: NBX [15:0], NBY [31:16] (10_state.md R33). -/
def nbWord (g : Nat × Nat) : Word := BitVec.ofNat 16 g.2 ++ BitVec.ofNat 16 g.1

/-- The per-image configuration writes, steps 1 to 3 of 43_sync.md R186, with the Y, Cb, Cr layout of
41_zigzag_ac.md R145: CTRL, SURF_W, SURF_H, and COMPc_NB and COMPc_BASE. -/
def configureImage (ctrl : Word) (w h : Nat) : List Input :=
  let mode := legalSubsample 0#2 (ctrl.extractLsb' 8 2)
  let gy := hostGrid .y mode w h
  let gc := hostGrid .cb mode w h
  let nY := gy.1 * gy.2
  let nC := gc.1 * gc.2
  [.hostWrite 0x008#32 ctrl, .hostWrite 0x020#32 (BitVec.ofNat 32 w), .hostWrite 0x024#32 (BitVec.ofNat 32 h),
   .hostWrite 0x040#32 (nbWord gy), .hostWrite 0x044#32 0#32,
   .hostWrite 0x050#32 (nbWord gc), .hostWrite 0x054#32 (BitVec.ofNat 32 nY),
   .hostWrite 0x060#32 (nbWord gc), .hostWrite 0x064#32 (BitVec.ofNat 32 (nY + nC))]

end Sys2Proof.Machine
end

