-- ==== Sys2Proof/Safety.lean ====
section
/-! DEFINITION. What counts as a good state and a safe run, in the terms the claims use. -/

namespace Sys2Proof.Machine

/-- Every stored byte lies in the window of a RAM (20_memory.md R53). -/
def MemMapped (s : State) : Prop :=
  ∀ a, (readByte s.mem a).isSome = true → ∃ sp, inWindow s.params a sp = true

/-- The four bytes of an aligned word are stored together or not at all (20_memory.md R58: every access moves one
aligned word). -/
def MemWhole (s : State) : Prop :=
  ∀ a k, a % 4 = 0 → k < 4 → (readByte s.mem (a + k)).isSome = (readByte s.mem a).isSome

/-- The reserved bits [31:21] of every stored Huffman entry read as zero (10_state.md R43, R44). -/
def HuffmanReservedZero (s : State) : Prop :=
  ∀ sp i w, isHuffman sp = true → i < spaceWords s.params sp → memRead s sp i = some w →
    w.extractLsb' 21 11 = 0#11

/-- The invariant of JDQ: legal parameters (00_scope.md R9); a memory in canonical form that holds whole words of
mapped RAMs, with the Huffman entries' reserved bits zero; a queue within its capacity (10_state.md R18); legal
QUALITY and SUBSAMPLE (R22); a recorded error always has a captured code of the table (R25, 60_exceptions.md
R197). -/
structure StateInv (s : State) : Prop where
  legal : s.params.legal = true
  memWf : Memory.wf s.mem = true
  memMapped : MemMapped s
  memWhole : MemWhole s
  huffman : HuffmanReservedZero s
  queue : s.cq.length ≤ s.params.cqDepth
  qualityLow : 1 ≤ s.ctrl.quality.toNat
  qualityHigh : s.ctrl.quality.toNat ≤ 100
  subsample : s.ctrl.subsample ≠ 3#2
  captured : s.err ≠ 0#13 → s.errCode ≠ 0#8
  codeRange : s.errCode.toNat ≤ 13

/-- Every word of a RAM has been written since reset (10_state.md R50). -/
def SpaceDefined (s : State) (sp : Space) : Prop :=
  ∀ i, i < spaceWords s.params sp → (memRead s sp i).isSome = true

/-- The boot sequence's result: every word of every table RAM has been written (70_reset_and_hazards.md R232). -/
def TablesLoaded (s : State) : Prop :=
  SpaceDefined s .dmat ∧ SpaceDefined s .dtmat ∧ SpaceDefined s .qtab0 ∧ SpaceDefined s .qtab1 ∧
  SpaceDefined s .achuf0 ∧ SpaceDefined s .achuf1 ∧ SpaceDefined s .dchuf0 ∧ SpaceDefined s .dchuf1

/-- Execute a list of commands one after another, each seeing the effects of those before it (43_sync.md R176). -/
def execAll : List Instr → State → Host.Outcome State Fault Refusal
  | [], s => .next s
  | i :: rest, s =>
    match exec i s with
    | .next t => execAll rest t
    | .fault f => .fault f
    | .refused r => .refused r

/-- The rational value of a finite binary32 pattern (00_scope.md R12). -/
def f32Rat (w : F32) : ℚ :=
  match f32Unpack w with
  | .nan => 0
  | .inf _ => 0
  | .fin neg m k => (if neg then -1 else 1) * (m : ℚ) * 2 ^ k

/-- `w` is the binary32 nearest to `x`, ties to the even pattern, among the finite patterns (00_scope.md R12). -/
def NearestEven (w : F32) (x : ℚ) : Prop :=
  ∀ v, f32Finite v = true →
    |f32Rat w - x| ≤ |f32Rat v - x| ∧
      (|f32Rat v - x| = |f32Rat w - x| → f32Rat v ≠ f32Rat w → w.getLsbD 0 = false)

/-- `w` is a NaN: all exponent bits set and a nonzero fraction (00_scope.md R12, IEEE 754). -/
abbrev IsNaN (w : F32) : Prop := f32Exp w = 255 ∧ f32Frac w ≠ 0

/-- A run of `n` steps that neither faults nor is refused. -/
def SafeRun (n : Nat) (s : State) : Prop := ∃ t, Sys2Proof.core.run n s = .next t

end Sys2Proof.Machine
end

