-- ==== Sys2Proof/Certificates/Slice0/Obligations.lean ====
section
/-! DEFINITION. The statements about JDQ, one definition each, from the numbered rules of spec/. -/

open Sys2Proof Sys2Proof.Machine

/-! ### Encoding and decoding -/

/-- R85: the rule's examples, letter for letter: the assembled writes, the decoded fields, and the words that record
an error when they reach the head of the queue. (That the word captured of 0x01FFFFFF keeps its RSVD bits is DEDUCED,
notes/assumptions/12.md.) -/
def Obligations.EncodingExamplesDecodeAsStated : Prop :=
  assemble (.dcenc .cb 4#32) = [.hostWrite 0x078#32 0x00000004#32, .hostWrite 0x07C#32 0x04400000#32] ∧
  decode { word := 0x04400000#32, arg := 4#32 } = .ok (.dcenc 1#2 0#22 4#32) ∧
  compOf 1#2 = some .cb ∧
  (∀ (s : State) (a : Word) (q : List Entry), s.cq = { word := 0x04C00000#32, arg := a } :: q →
    engineStep s = .next { raise .badComp 0#32 0x04C00000#32 s with cq := q }) ∧
  (∀ (s : State) (a : Word) (q : List Entry), s.cq = { word := 0x7F000000#32, arg := a } :: q →
    engineStep s = .next { raise .badOpcode 0#32 0x7F000000#32 s with cq := q }) ∧
  (∀ a, decode { word := 0x01BFFFFF#32, arg := a } = .ok (.dispatch 2#2 0x3FFFFF#22 a)) ∧
  compOf 2#2 = some .cr ∧
  (∀ (s : State) (a : Word) (q : List Entry), s.cq = { word := 0x01FFFFFF#32, arg := a } :: q →
    engineStep s = .next { raise .badComp 0#32 0x01FFFFFF#32 s with cq := q })

/-- R76 to R78: no bit of an encoding is dropped. Every field of every well-formed command comes back. -/
def Obligations.DecodeOfEncodeIsTheCommand : Prop :=
  ∀ i : Instr, i.wellFormed = true → decode (encode i) = .ok i

/-- R82: an entry that decodes is the encoding of the one command it decodes to, and that command is legal. -/
def Obligations.EncodeOfDecodeIsTheEntry : Prop :=
  ∀ (e : Entry) (i : Instr), decode e = .ok i → encode i = e ∧ i.wellFormed = true

/-- R78: row `k` of the opcode table matches exactly the words whose OPC is `k`, so no two rows match one word, and
a word that decodes matches the row of its command. -/
def Obligations.OpcodeRowsMatchTheirOpcodeOnly : Prop :=
  (∀ (k : Nat) (row : Word × Word) (w : Word), opcodeRows[k]? = some row →
    (rowMatches row w = true ↔ opcField w = BitVec.ofNat 8 k)) ∧
  (∀ (e : Entry) (i : Instr), decode e = .ok i → opcField e.word = opcodeOf i) ∧
  (∀ (e : Entry), (∀ i, decode e ≠ .ok i) →
    (∀ row ∈ opcodeRows, rowMatches row e.word = false) ∨
      (compField e.word = 3#2 ∧ (opcField e.word = 0x01#8 ∨ opcField e.word = 0x04#8)))

/-- R81: a reserved opcode at the head of the queue records BAD_OPCODE with the word and is removed with no other
effect, the queue goes on behind it, and the push that queued it does not look at the word. -/
def Obligations.ReservedOpcodeIsRecordedAndRemoved : Prop :=
  (∀ (s : State) (e : Entry) (q : List Entry), s.cq = e :: q → 5 ≤ (opcField e.word).toNat →
    engineStep s = .next { raise .badOpcode 0#32 e.word s with cq := q }) ∧
  (∀ (s : State) (w : Word), s.cq.length ≠ s.params.cqDepth →
    hostWrite 0x07C#32 w s = { s with cq := s.cq ++ [{ word := w, arg := s.cmdArg }] })

/-- R79: on DISPATCH and DCENC, COMP 0, 1, 2 names Y, Cb, Cr, and COMP = 3 records BAD_COMP with the word and is
removed with no other effect; on NOP, SIGNAL and DCRST every COMP is accepted and none changes the effect. (That the
captured word keeps its RSVD bits is DEDUCED, notes/assumptions/12.md.) -/
def Obligations.ComponentFieldSelectsOrIsRejected : Prop :=
  (compOf 0#2 = some .y ∧ compOf 1#2 = some .cb ∧ compOf 2#2 = some .cr) ∧
  (∀ (s : State) (e : Entry) (q : List Entry), s.cq = e :: q → compField e.word = 3#2 →
    (opcField e.word = 0x01#8 ∨ opcField e.word = 0x04#8) →
    engineStep s = .next { raise .badComp 0#32 e.word s with cq := q }) ∧
  (∀ (e : Entry), opcField e.word = 0x00#8 ∨ opcField e.word = 0x02#8 ∨ opcField e.word = 0x03#8 →
    ∃ i, decode e = .ok i) ∧
  (∀ (comp comp' : BitVec 2) (rsvd : BitVec 22) (arg : Word) (s : State),
    exec (.nop comp rsvd arg) s = exec (.nop comp' rsvd arg) s ∧
    exec (.signal comp rsvd arg) s = exec (.signal comp' rsvd arg) s ∧
    exec (.dcrst comp rsvd arg) s = exec (.dcrst comp' rsvd arg) s)

/-- R80 with R197: two commands that differ in RSVD only have the same outcome, but for the command word that CFG,
RANGE and BAD_COMP capture in ERR_AUX. (That the captured word keeps its RSVD bits is DEDUCED,
notes/assumptions/12.md.) -/
def Obligations.ReservedBitsReachErrAuxOnly : Prop :=
  ∀ (comp : BitVec 2) (rsvd rsvd' : BitVec 22) (arg : Word) (s t : State),
    exec (.nop comp rsvd arg) s = exec (.nop comp rsvd' arg) s ∧
    exec (.signal comp rsvd arg) s = exec (.signal comp rsvd' arg) s ∧
    exec (.dcrst comp rsvd arg) s = exec (.dcrst comp rsvd' arg) s ∧
    (exec (.dispatch comp rsvd arg) s = .next t →
      ∃ aux, exec (.dispatch comp rsvd' arg) s = .next { t with errAux := aux }) ∧
    (exec (.dcenc comp rsvd arg) s = .next t →
      ∃ aux, exec (.dcenc comp rsvd' arg) s = .next { t with errAux := aux })

/-! ### The step -/

/-- R175, R82: when the entry at the head decodes to `i`, an Engine step is `exec i` and then the removal of the
entry; the step takes it when no event is pending, or when the next pending event is an Engine slot (the list of
events is the model's own, notes/assumptions/2.md). -/
def Obligations.StepRunsTheDecodedCommand : Prop :=
  ∀ (s : State) (e : Entry) (q : List Entry) (i : Instr), s.cq = e :: q → decode e = .ok i →
    engineStep s = mapNext popCommand (exec i s) ∧
    (s.inputs = [] → step s = mapNext popCommand (exec i s)) ∧
    (∀ rest, s.inputs = .engine :: rest →
      step s = mapNext popCommand (exec i { s with inputs := rest }))

/-- R175, R176, R212: whatever an Engine step does, it removes the head of the queue and nothing else of it; a
rejected entry never stops the queue; and with an empty queue no Engine step is enabled. -/
def Obligations.EngineStepRemovesExactlyTheHead : Prop :=
  (∀ (s t : State), engineStep s = .next t → t.cq = s.cq.tail) ∧
  (∀ (s : State) (e : Entry) (q : List Entry) (r : Reject), s.cq = e :: q → decode e = .error r →
    ∃ t, engineStep s = .next t ∧ t.cq = q ∧ t.err ≠ 0#13) ∧
  (∀ s : State, s.cq = [] → s.inputs = [] → step s = .next s)

/-- R181 and 93_implementation_defined.md I35: a Host wait ends, changing nothing, as soon as its condition holds;
until then the Engine steps; and when no command is left it is stuck. (The deterministic choice of an Engine step
between two polls is the model's, notes/assumptions/16.md.) -/
def Obligations.HostWaitEndsWhenItsConditionHolds : Prop :=
  ∀ (s : State) (c : WaitCond) (rest : List Input), s.inputs = .wait c :: rest →
    (waitHolds s c = true → step s = .next { s with inputs := rest }) ∧
    (waitHolds s c = false → s.cq ≠ [] → step s = engineStep s) ∧
    (waitHolds s c = false → s.cq = [] → step s = .fault (.waitNeverEnds c)) ∧
    (∀ v, waitHolds s (.fenceAtLeast v) = decide (v.toNat ≤ s.fenceCompleted.toNat)) ∧
    waitHolds s .notBusy = decide (s.cq = []) ∧
    waitHolds s .irqHigh = (statusWord s).getLsbD 2

/-! ### NOP, SIGNAL, DCRST -/

/-- R177: NOP does nothing; every word `0x00xxxxxx` is a NOP; its entry keeps BUSY at 1 until its Engine step, after
which only the queue has changed. -/
def Obligations.NopChangesOnlyTheQueue : Prop :=
  (∀ (comp : BitVec 2) (rsvd : BitVec 22) (arg : Word) (s : State), exec (.nop comp rsvd arg) s = .next s) ∧
  (∀ (e : Entry), opcField e.word = 0x00#8 → ∃ comp rsvd arg, decode e = .ok (.nop comp rsvd arg)) ∧
  (∀ (s : State) (e : Entry) (q : List Entry), s.cq = e :: q → opcField e.word = 0x00#8 →
    (statusWord s).getLsbD 0 = true ∧ engineStep s = .next { s with cq := q })

/-- R178: SIGNAL, opcode 0x02, writes the entry's argument, any value, to FENCE_COMPLETED and nothing else, whatever
errors are recorded and whatever COMP is; the fence source is computed from the new value. -/
def Obligations.SignalPublishesItsArgument : Prop :=
  (∀ (comp : BitVec 2) (rsvd : BitVec 22) (arg : Word) (s : State),
    exec (.signal comp rsvd arg) s = .next { s with fenceCompleted := arg }) ∧
  (∀ (arg : Word) (s : State), fenceIrq { s with fenceCompleted := arg } =
    (s.ctrl.fenceIrqEn && decide (s.fenceEvent.toNat ≤ arg.toNat))) ∧
  (∀ (e : Entry), opcField e.word = 0x02#8 → ∃ comp rsvd, decode e = .ok (.signal comp rsvd e.arg)) ∧
  opcField 0x02000000#32 = 0x02#8 ∧
  (∀ (comp : BitVec 2) (rsvd : BitVec 22),
    exec (.signal comp rsvd 0#32) State.reset = .next { State.reset with fenceCompleted := 0#32 })

/-- R155: DCRST, opcode 0x03, writes 0 to the three predictors and touches nothing else, whatever COMP and `arg`. -/
def Obligations.DcrstClearsTheThreePredictors : Prop :=
  (∀ (comp : BitVec 2) (rsvd : BitVec 22) (arg : Word) (s : State),
    exec (.dcrst comp rsvd arg) s = .next { s with prevDc := { y := 0#32, cb := 0#32, cr := 0#32 } }) ∧
  (∀ (e : Entry), opcField e.word = 0x03#8 → ∃ comp rsvd arg, decode e = .ok (.dcrst comp rsvd arg)) ∧
  opcField 0x03000000#32 = 0x03#8

/-! ### DCENC -/

/-- R156, R157, R158, R160, R161, R162: within the ranges, with the region's DC and the category's entry defined and
valid and the difference at most 2047 in magnitude, DCENC writes the one DCM word of the rule and the predictor,
and nothing else. -/
def Obligations.DcencWritesTheCodedDifference : Prop :=
  ∀ (comp : BitVec 2) (c : Comp) (rsvd : BitVec 22) (r : Word) (s : State) (dc e : Word) (diff : Int)
    (cat len : Nat),
    compOf comp = some c →
    (r.toNat + 1) * ebs s ≤ s.params.resultWords → r.toNat < s.params.dcmWords →
    memRead s .result (r.toNat * ebs s) = some dc →
    diff = dc.toInt - (s.prevDc.get c).toInt → diff.natAbs ≤ 2047 → cat = Nat.size diff.natAbs →
    memRead s (if (s.comps.get c).sel.getLsbD 2 then .dchuf1 else .dchuf0) cat = some e →
    len = (e.extractLsb' 16 5).toNat → 1 ≤ len → len ≤ 16 →
    exec (.dcenc comp rsvd r) s =
      .next (memWrite { s with prevDc := s.prevDc.set c dc } .dcm r.toNat
        ((BitVec.ofNat 32 (len + cat) <<< 27) |||
          (BitVec.ofNat 32 ((e.extractLsb' 0 16).toNat % 2 ^ len) <<< cat) |||
          BitVec.ofNat 32 (if 0 ≤ diff then diff.toNat else (diff + 2 ^ cat - 1).toNat)))

/-- R162: the fields of a DCM word. Bits [31:27] hold `L = len + s`; bits [26:0] hold the code followed by the
amplitude, right-aligned, with nothing above bit `L - 1`; and `L` is 1 to 27. -/
def Obligations.DcmWordHoldsLengthAndBitstring : Prop :=
  ∀ (len code cat : Nat) (diff : Int), 1 ≤ len → len ≤ 16 → cat ≤ 11 → code < 2 ^ len →
    cat = Nat.size diff.natAbs →
    (dcmWord len code cat diff).extractLsb' 27 5 = BitVec.ofNat 5 (len + cat) ∧
    ((dcmWord len code cat diff).extractLsb' 0 27).toNat = code * 2 ^ cat + amplitude diff cat ∧
    code * 2 ^ cat + amplitude diff cat < 2 ^ (len + cat) ∧ 1 ≤ len + cat ∧ len + cat ≤ 27

/-- R159, R207: a difference of magnitude 2048 or more writes the error word to DCM, updates the predictor, and
records DC_CATEGORY (bit 9, code 10) with the region and the difference mod 2^32. -/
def Obligations.DcencTooLargeDifferenceIsRecorded : Prop :=
  (errBit .dcCategory = 9 ∧ errCodeOf .dcCategory = 10#8) ∧
  ∀ (comp : BitVec 2) (c : Comp) (rsvd : BitVec 22) (r : Word) (s : State) (dc : Word) (diff : Int),
    compOf comp = some c →
    (r.toNat + 1) * ebs s ≤ s.params.resultWords → r.toNat < s.params.dcmWords →
    memRead s .result (r.toNat * ebs s) = some dc →
    diff = dc.toInt - (s.prevDc.get c).toInt → 2048 ≤ diff.natAbs →
    exec (.dcenc comp rsvd r) s =
      .next (raise .dcCategory r (BitVec.ofInt 32 diff)
        (memWrite { s with prevDc := s.prevDc.set c dc } .dcm r.toNat 0xFFFFFFFF#32))

/-- R208: an entry with LEN = 0 or LEN > 16 writes the error word to DCM, updates the predictor, and records
DC_NOCODE (bit 10, code 11) with the category. -/
def Obligations.DcencMissingCodeIsRecorded : Prop :=
  (errBit .dcNoCode = 10 ∧ errCodeOf .dcNoCode = 11#8) ∧
  ∀ (comp : BitVec 2) (c : Comp) (rsvd : BitVec 22) (r : Word) (s : State) (dc e : Word) (diff : Int) (cat : Nat),
    compOf comp = some c →
    (r.toNat + 1) * ebs s ≤ s.params.resultWords → r.toNat < s.params.dcmWords →
    memRead s .result (r.toNat * ebs s) = some dc →
    diff = dc.toInt - (s.prevDc.get c).toInt → diff.natAbs ≤ 2047 → cat = Nat.size diff.natAbs →
    memRead s (if (s.comps.get c).sel.getLsbD 2 then .dchuf1 else .dchuf0) cat = some e →
    (e.extractLsb' 16 5).toNat = 0 ∨ 16 < (e.extractLsb' 16 5).toNat →
    exec (.dcenc comp rsvd r) s =
      .next (raise .dcNoCode r (BitVec.ofNat 32 cat)
        (memWrite { s with prevDc := s.prevDc.set c dc } .dcm r.toNat 0xFFFFFFFF#32))

/-- R202, R165: a DISPATCH whose grid does not fit in RESULT, and a DCENC whose region or DCM word is outside the
RAMs, write nothing and record RANGE (bit 4, code 5) with BASE or `arg`, and the word. (That the captured word keeps
its RSVD bits is DEDUCED, notes/assumptions/12.md.) -/
def Obligations.RangeErrorsWriteNothing : Prop :=
  (errBit .range = 4 ∧ errCodeOf .range = 5#8) ∧
  (∀ (comp : BitVec 2) (c : Comp) (rsvd : BitVec 22) (arg : Word) (s : State),
    compOf comp = some c → gridCols s c * gridRows s c ≠ 0 → s.surfW ≠ 0#16 → s.surfH ≠ 0#16 →
    s.params.resultWords < (regionBase s c + gridCols s c * gridRows s c) * ebs s →
    exec (.dispatch comp rsvd arg) s =
      .next (raise .range (BitVec.ofNat 32 (regionBase s c)) (commandWord 0x01#8 comp rsvd) s)) ∧
  (∀ (comp : BitVec 2) (c : Comp) (rsvd : BitVec 22) (r : Word) (s : State),
    compOf comp = some c →
    s.params.resultWords < (r.toNat + 1) * ebs s ∨ s.params.dcmWords ≤ r.toNat →
    exec (.dcenc comp rsvd r) s = .next (raise .range r (commandWord 0x04#8 comp rsvd) s))

/-- R50, 93_implementation_defined.md I2: a DCENC in range that would read an undefined RESULT word, or an undefined
entry for its category, faults, naming that word. -/
def Obligations.DcencFaultsOnUndefinedWords : Prop :=
  ∀ (comp : BitVec 2) (c : Comp) (rsvd : BitVec 22) (r : Word) (s : State),
    compOf comp = some c →
    (r.toNat + 1) * ebs s ≤ s.params.resultWords → r.toNat < s.params.dcmWords →
    (memRead s .result (r.toNat * ebs s) = none →
      exec (.dcenc comp rsvd r) s = .fault (.undefinedRead .result (r.toNat * ebs s))) ∧
    (∀ dc, memRead s .result (r.toNat * ebs s) = some dc →
      (dc.toInt - (s.prevDc.get c).toInt).natAbs ≤ 2047 →
      memRead s (dchufOf s c) (Nat.size (dc.toInt - (s.prevDc.get c).toInt).natAbs) = none →
      exec (.dcenc comp rsvd r) s =
        .fault (.undefinedRead (dchufOf s c) (Nat.size (dc.toInt - (s.prevDc.get c).toInt).natAbs)))

/-- The frame of DCENC (R67, R157): beside the error registers it changes its own component's predictor and the four
bytes of `DCM[r]`, and when it names no component or is out of range it changes neither. -/
def Obligations.DcencChangesItsPredictorAndItsWordOnly : Prop :=
  ∀ (comp : BitVec 2) (rsvd : BitVec 22) (r : Word) (s t : State),
    exec (.dcenc comp rsvd r) s = .next t →
    t = { s with
      mem := t.mem, prevDc := t.prevDc, err := t.err, errCode := t.errCode, errRegion := t.errRegion,
      errAux := t.errAux } ∧
    (∀ d, compOf comp ≠ some d → t.prevDc.get d = s.prevDc.get d) ∧
    (∀ a, a < spaceAddr .dcm r.toNat ∨ spaceAddr .dcm r.toNat + 4 ≤ a →
      readByte t.mem a = readByte s.mem a) ∧
    (compOf comp = none ∨ dcRangeOk s r.toNat = false → t.mem = s.mem ∧ t.prevDc = s.prevDc) ∧
    s.err &&& t.err = s.err

/-- R166: the DC prediction chain. After a DCENC of component `c` in range, and any commands that are neither a
DCRST nor a DCENC of `c`, the next DCENC of `c` takes its difference against the DC the first one read; after a
DCRST or a reset, against 0. So the differences are those of consecutive DCs, whether the coding succeeded or not. -/
def Obligations.DifferencesAreTakenAgainstTheLastCodedDc : Prop :=
  ∀ (c : Comp) (mid : List Instr),
    (∀ i ∈ mid, (∀ comp rsvd arg, i ≠ .dcrst comp rsvd arg) ∧
      (∀ comp rsvd arg, compOf comp = some c → i ≠ .dcenc comp rsvd arg)) →
    (∀ (comp : BitVec 2) (rsvd : BitVec 22) (r : Word) (s t u : State) (dc dc' : Word),
      compOf comp = some c → dcRangeOk s r.toNat = true → memRead s .result (r.toNat * ebs s) = some dc →
      exec (.dcenc comp rsvd r) s = .next t → execAll mid t = .next u →
      u.prevDc.get c = dc ∧ dcDiff u c dc' = dc'.toInt - dc.toInt) ∧
    (∀ (comp : BitVec 2) (rsvd : BitVec 22) (arg : Word) (s t u : State) (dc' : Word),
      exec (.dcrst comp rsvd arg) s = .next t → execAll mid t = .next u →
      u.prevDc.get c = 0#32 ∧ dcDiff u c dc' = dc'.toInt) ∧
    (∀ (s t u : State) (rest : List Input) (dc' : Word), s.inputs = .reset :: rest → step s = .next t →
      execAll mid t = .next u → u.prevDc.get c = 0#32 ∧ dcDiff u c dc' = dc'.toInt)

/-! ### DISPATCH -/

/-- R201, R100: a DISPATCH of a non-empty grid with SURF_W = 0 or SURF_H = 0 writes nothing and records CFG (bit 3,
code 4) with the word; of an empty grid it does nothing and records nothing, even with a zero surface or a BASE out of
range. (That the captured word keeps its RSVD bits is DEDUCED, notes/assumptions/12.md.) -/
def Obligations.DispatchWithoutASurfaceIsRecorded : Prop :=
  (errBit .cfg = 3 ∧ errCodeOf .cfg = 4#8) ∧
  ∀ (comp : BitVec 2) (c : Comp) (rsvd : BitVec 22) (arg : Word) (s : State), compOf comp = some c →
    (gridCols s c * gridRows s c ≠ 0 → s.surfW = 0#16 ∨ s.surfH = 0#16 →
      exec (.dispatch comp rsvd arg) s = .next (raise .cfg 0#32 (commandWord 0x01#8 comp rsvd) s)) ∧
    (gridCols s c = 0 ∨ gridRows s c = 0 → exec (.dispatch comp rsvd arg) s = .next s)

/-- R100, R102, R142: where the grid is not empty and fits, the surface has a size, and every table word the command
looks up is defined (all of the selected ACHUF, or at least what the blocks look up), DISPATCH answers a next state in
which the region of EVERY block of the grid holds, word for word, what that block alone gives: the transform,
quantization and coding of its samples by the tables as they stood. -/
def Obligations.DispatchWritesEveryRegionOfTheGrid : Prop :=
  ∀ (comp : BitVec 2) (c : Comp) (rsvd : BitVec 22) (arg : Word) (s : State), compOf comp = some c →
    gridCols s c * gridRows s c ≠ 0 → s.surfW ≠ 0#16 → s.surfH ≠ 0#16 →
    (regionBase s c + gridCols s c * gridRows s c) * ebs s ≤ s.params.resultWords →
    SpaceDefined s .dmat → SpaceDefined s .dtmat → SpaceDefined s (qtabOf s c) →
    (SpaceDefined s (achufOf s c) ∨
      ∀ tb col row, fetchTables s c = .ok tb → col < gridCols s c → row < gridRows s c →
        ∃ out, encodeBlock s.params tb (memRead s (achufOf s c)) (ebs s) (sampleBlock s c col row) = .ok out) →
    ∃ (tb : Tables) (t : State), exec (.dispatch comp rsvd arg) s = .next t ∧
      (tb.d.length = 64 ∧ tb.dt.length = 64 ∧ tb.q.length = 64) ∧
      (∀ n, n < 64 → memRead s .dmat n = tb.d[n]? ∧ memRead s .dtmat n = tb.dt[n]? ∧
        memRead s (qtabOf s c) n = tb.q[n]?) ∧
      ∀ col row, col < gridCols s c → row < gridRows s c →
        ∃ out : BlockOut,
          encodeBlock s.params tb (memRead s (achufOf s c)) (ebs s) (sampleBlock s c col row) = .ok out ∧
          out.words.length = ebs s ∧
          ∀ k, k < ebs s →
            memRead t .result ((regionBase s c + row * gridCols s c + col) * ebs s + k) = out.words[k]?

/-- R196, R211: whatever ERR was, a DISPATCH sets the ERR bit of every block that has an error, and no other bit. From
ERR = 0 it captures the error of the first such block, in raster order, with its region; from ERR ≠ 0, or with no
failing block, it leaves the capture registers alone. -/
def Obligations.DispatchCapturesTheFirstFailingBlock : Prop :=
  ∀ (comp : BitVec 2) (c : Comp) (rsvd : BitVec 22) (arg : Word) (s t : State) (tb : Tables),
    compOf comp = some c → gridCols s c * gridRows s c ≠ 0 → s.surfW ≠ 0#16 → s.surfH ≠ 0#16 →
    (regionBase s c + gridCols s c * gridRows s c) * ebs s ≤ s.params.resultWords →
    fetchTables s c = .ok tb → exec (.dispatch comp rsvd arg) s = .next t →
    (∀ k, t.err.getLsbD k = true ↔ s.err.getLsbD k = true ∨
      ∃ blk ∈ gridBlocks (gridCols s c) (gridRows s c), ∃ (out : BlockOut) (e : ErrKind) (aux : Word),
        blockOut s c tb blk = .ok out ∧ out.err = some (e, aux) ∧ errBit e = k) ∧
    (s.err ≠ 0#13 → t.errCode = s.errCode ∧ t.errRegion = s.errRegion ∧ t.errAux = s.errAux) ∧
    ∀ pre post : List (Nat × Nat), (∀ blk ∈ pre, ∃ out, blockOut s c tb blk = .ok out ∧ out.err = none) →
      (gridBlocks (gridCols s c) (gridRows s c) = pre →
        t.err = s.err ∧ t.errCode = s.errCode ∧ t.errRegion = s.errRegion ∧ t.errAux = s.errAux) ∧
      (∀ (blk : Nat × Nat) (out : BlockOut) (e : ErrKind) (aux : Word), s.err = 0#13 →
        gridBlocks (gridCols s c) (gridRows s c) = pre ++ blk :: post →
        blockOut s c tb blk = .ok out → out.err = some (e, aux) →
        t.errCode = errCodeOf e ∧ t.errRegion = BitVec.ofNat 32 (blockRegion s c blk) ∧ t.errAux = aux ∧
          t.err.getLsbD (errBit e) = true)

/-- The frame of DISPATCH (R67, R100): beside the error registers it changes no register, and every byte outside the
grid's regions `BASE .. BASE + NBX·NBY - 1` reads as before; with an empty grid, no component, no surface or no
room, all of memory does. -/
def Obligations.DispatchChangesItsRegionsOnly : Prop :=
  ∀ (comp : BitVec 2) (rsvd : BitVec 22) (arg : Word) (s t : State),
    exec (.dispatch comp rsvd arg) s = .next t →
    t = { s with
      mem := t.mem, err := t.err, errCode := t.errCode, errRegion := t.errRegion, errAux := t.errAux } ∧
    (∀ c, compOf comp = some c → ∀ a,
      a < 0x01000000 + 4 * (regionBase s c * ebs s) ∨
        0x01000000 + 4 * ((regionBase s c + gridCols s c * gridRows s c) * ebs s) ≤ a →
      readByte t.mem a = readByte s.mem a) ∧
    (compOf comp = none ∨ s.surfW = 0#16 ∨ s.surfH = 0#16 ∨
        (∀ c, compOf comp = some c → gridCols s c * gridRows s c = 0 ∨ gridFits s c = false) →
      t.mem = s.mem) ∧
    s.err &&& t.err = s.err

/-- R50, 93_implementation_defined.md I1: a DISPATCH that encodes at least one block faults when a word of DMAT, of
DTMAT or of the selected QTAB is undefined, and when a block looks up an undefined entry of the selected ACHUF, and the
word it names is an undefined one; with the blocks before it complete, it is the entry that block looks up. (That all 64
words of each matrix and of QTAB are read is DEDUCED, notes/assumptions/10.md.) -/
def Obligations.DispatchFaultsOnUndefinedTables : Prop :=
  ∀ (comp : BitVec 2) (c : Comp) (rsvd : BitVec 22) (arg : Word) (s : State),
    compOf comp = some c → gridCols s c * gridRows s c ≠ 0 → s.surfW ≠ 0#16 → s.surfH ≠ 0#16 →
    (regionBase s c + gridCols s c * gridRows s c) * ebs s ≤ s.params.resultWords →
    (∀ (sp : Space) (n : Nat), (sp = .dmat ∨ sp = .dtmat ∨ sp = qtabOf s c) → n < 64 → memRead s sp n = none →
      ∃ (sq : Space) (k : Nat), exec (.dispatch comp rsvd arg) s = .fault (.undefinedRead sq k) ∧
        memRead s sq k = none) ∧
    (∀ (tb : Tables) (blk : Nat × Nat) (q : List Int) (rs : Nat), fetchTables s c = .ok tb →
      blk ∈ gridBlocks (gridCols s c) (gridRows s c) →
      quantizeFrom s.params.quantRound 0
        ((fdct s.params tb.d tb.dt (sampleBlock s c blk.1 blk.2)).zip tb.q) = .ok q →
      encodeAc (memRead s (achufOf s c)) (zigzag q) = .error (.undefinedEntry rs) →
      memRead s (achufOf s c) rs = none ∧
      (∃ k : Nat, exec (.dispatch comp rsvd arg) s = .fault (.undefinedRead (achufOf s c) k) ∧
        memRead s (achufOf s c) k = none) ∧
      ∀ pre post : List (Nat × Nat), gridBlocks (gridCols s c) (gridRows s c) = pre ++ blk :: post →
        (∀ b ∈ pre, ∃ out, blockOut s c tb b = .ok out) →
        exec (.dispatch comp rsvd arg) s = .fault (.undefinedRead (achufOf s c) rs))

/-- R103, R104, R105, R106, R107: the samples of a block. Sample `(i, j)` stands at index `8j + i` of the block and is
the filtered value of its pixel cell; the footprint is the table of R103; the cell is the `sx × sy` pixels from
`(bx·fx + i·sx, by·fy + j·sy)`, in row order, each coordinate clamped to the surface, so that every pixel lies inside
it, and unclamped for a block inside the image; with one pixel to a sample, or under POINT, the sample is the conversion
of the cell's first pixel, and under BOX the left-to-right sum of the conversions of its 2 or 4 pixels divided by their
number; and the default conversion is the binary32 nearest to the JFIF value, every conversion finite. (A texel listed in
State is the surface's, notes/assumptions/3.md.) -/
def Obligations.SampledPixelsLieInsideTheSurface : Prop :=
  (∀ (s : State) (c : Comp) (bx row : Nat), (sampleBlock s c bx row).length = 64 ∧
    ∀ i j : Nat, i < 8 → j < 8 → (sampleBlock s c bx row)[8 * j + i]? =
      some (filterCell s.params c
        ((sampleCell s (footprint c s.ctrl.subsample).1 (footprint c s.ctrl.subsample).2 bx row i j).map
          fun xy => surfaceTexel s xy.1 xy.2))) ∧
  (∀ (s : State) (x y : Nat) (texels : List Word) (t : Word), s.surface[y]? = some texels → texels[x]? = some t →
    surfaceTexel s x y = t) ∧
  (∀ m : BitVec 2, footprint .y m = (8, 8)) ∧
  (∀ c : Comp, c ≠ .y →
    footprint c 0#2 = (8, 8) ∧ footprint c 1#2 = (16, 8) ∧ footprint c 2#2 = (16, 16)) ∧
  (∀ (s : State) (fx fy bx row i j : Nat), sampleCell s fx fy bx row i j =
    (List.range (fy / 8)).flatMap fun b => (List.range (fx / 8)).map fun a =>
      (min (bx * fx + i * (fx / 8) + a) (s.surfW.toNat - 1), min (row * fy + j * (fy / 8) + b) (s.surfH.toNat - 1))) ∧
  (∀ (s : State) (fx fy bx row i j : Nat) (xy : Nat × Nat), s.surfW ≠ 0#16 → s.surfH ≠ 0#16 →
    xy ∈ sampleCell s fx fy bx row i j → xy.1 < s.surfW.toNat ∧ xy.2 < s.surfH.toNat) ∧
  (∀ (s : State) (c : Comp) (bx row i j : Nat), i < 8 → j < 8 →
    (bx + 1) * (footprint c s.ctrl.subsample).1 ≤ s.surfW.toNat →
    (row + 1) * (footprint c s.ctrl.subsample).2 ≤ s.surfH.toNat →
    sampleCell s (footprint c s.ctrl.subsample).1 (footprint c s.ctrl.subsample).2 bx row i j =
      (List.range ((footprint c s.ctrl.subsample).2 / 8)).flatMap fun b =>
        (List.range ((footprint c s.ctrl.subsample).1 / 8)).map fun a =>
          (bx * (footprint c s.ctrl.subsample).1 + i * ((footprint c s.ctrl.subsample).1 / 8) + a,
           row * (footprint c s.ctrl.subsample).2 + j * ((footprint c s.ctrl.subsample).2 / 8) + b)) ∧
  (∀ (p : Params) (c : Comp) (t : Word) (ts : List Word), p.chromaFilter = .point ∨ ts = [] →
    filterCell p c (t :: ts) =
      colorConvert p c (t.extractLsb' 0 8).toNat (t.extractLsb' 8 8).toNat (t.extractLsb' 16 8).toNat) ∧
  (∀ (p : Params) (c : Comp) (conv : Word → F32), p.chromaFilter = .box →
    (∀ t, conv t = colorConvert p c (t.extractLsb' 0 8).toNat (t.extractLsb' 8 8).toNat (t.extractLsb' 16 8).toNat) →
    (∀ t0 t1, filterCell p c [t0, t1] = f32Div (f32Add (conv t0) (conv t1)) 0x40000000#32) ∧
    ∀ t0 t1 t2 t3, filterCell p c [t0, t1, t2, t3] =
      f32Div (f32Add (f32Add (f32Add (conv t0) (conv t1)) (conv t2)) (conv t3)) 0x40800000#32) ∧
  (f32Rat 0x40000000#32 = 2 ∧ f32Rat 0x40800000#32 = 4) ∧
  (∀ (p : Params) (c : Comp) (r g b : Nat), r ≤ 255 → g ≤ 255 → b ≤ 255 →
    f32Finite (colorConvert p c r g b) = true ∧
    (p.colorConvert = .jfif → NearestEven (colorConvert p c r g b)
      (match c with
        | .y => 0.299 * r + 0.587 * g + 0.114 * b - 128
        | .cb => -0.168736 * r - 0.331264 * g + 0.5 * b
        | .cr => 0.5 * r - 0.418688 * g - 0.081312 * b)))

/-! ### Arithmetic, quantization and coding -/

/-- R12, R108: the value of a finite pattern is that of its fields, and on finite operands a product, sum or quotient is
finite exactly when the exact value is below the overflow threshold `2^128 - 2^103`, is then the binary32 nearest to the
exact value, ties to even, subnormals among the candidates, and is otherwise the infinity of the exact value's sign. A
NaN, an infinity and a zero divisor propagate by IEEE 754. -/
def Obligations.BinaryArithmeticRoundsToNearestEven : Prop :=
  (∀ w : F32, f32Finite w = true ↔ (w.extractLsb' 23 8).toNat ≠ 255) ∧
  (∀ w : F32, f32Finite w = true → f32Rat w = (if w.getLsbD 31 then -1 else 1) *
    (if (w.extractLsb' 23 8).toNat = 0 then ((w.extractLsb' 0 23).toNat : ℚ) * 2 ^ (-149 : Int)
      else ((w.extractLsb' 0 23).toNat + 2 ^ 23 : ℚ) * 2 ^ (((w.extractLsb' 23 8).toNat : Int) - 150))) ∧
  (∀ w : F32, IsNaN w ↔ (w.extractLsb' 23 8).toNat = 255 ∧ (w.extractLsb' 0 23).toNat ≠ 0) ∧
  (f32Inf false = 0x7F800000#32 ∧ f32Inf true = 0xFF800000#32 ∧ f32Zero false = 0#32 ∧ f32Zero true = 0x80000000#32) ∧
  (∀ a b : F32, f32Finite a = true → f32Finite b = true →
    (f32Finite (f32Mul a b) = true → NearestEven (f32Mul a b) (f32Rat a * f32Rat b)) ∧
    (f32Finite (f32Add a b) = true → NearestEven (f32Add a b) (f32Rat a + f32Rat b)) ∧
    (f32Rat b ≠ 0 → f32Finite (f32Div a b) = true → NearestEven (f32Div a b) (f32Rat a / f32Rat b)) ∧
    (f32Finite (f32Mul a b) = true ↔ |f32Rat a * f32Rat b| < 2 ^ 128 - 2 ^ 103) ∧
    (f32Finite (f32Add a b) = true ↔ |f32Rat a + f32Rat b| < 2 ^ 128 - 2 ^ 103) ∧
    (f32Rat b ≠ 0 → (f32Finite (f32Div a b) = true ↔ |f32Rat a / f32Rat b| < 2 ^ 128 - 2 ^ 103)) ∧
    (f32Finite (f32Mul a b) = false → f32Mul a b = f32Inf (f32Neg a != f32Neg b)) ∧
    (f32Finite (f32Add a b) = false → f32Add a b = f32Inf (decide (f32Rat a + f32Rat b < 0))) ∧
    (f32Rat b ≠ 0 → f32Finite (f32Div a b) = false → f32Div a b = f32Inf (f32Neg a != f32Neg b)) ∧
    (f32Rat b = 0 → f32Rat a = 0 → IsNaN (f32Div a b)) ∧
    (f32Rat b = 0 → f32Rat a ≠ 0 → f32Div a b = f32Inf (f32Neg a != f32Neg b))) ∧
  (∀ a b : F32, IsNaN a ∨ IsNaN b → IsNaN (f32Mul a b) ∧ IsNaN (f32Add a b) ∧ IsNaN (f32Div a b)) ∧
  (∀ s t : Bool, f32Mul (f32Inf s) (f32Inf t) = f32Inf (s != t) ∧ f32Add (f32Inf s) (f32Inf s) = f32Inf s ∧
    (s ≠ t → IsNaN (f32Add (f32Inf s) (f32Inf t))) ∧ IsNaN (f32Div (f32Inf s) (f32Inf t))) ∧
  (∀ (s : Bool) (x : F32), f32Finite x = true →
    (f32Rat x = 0 → IsNaN (f32Mul (f32Inf s) x) ∧ IsNaN (f32Mul x (f32Inf s))) ∧
    (f32Rat x ≠ 0 → f32Mul (f32Inf s) x = f32Inf (s != f32Neg x) ∧ f32Mul x (f32Inf s) = f32Inf (f32Neg x != s)) ∧
    f32Add (f32Inf s) x = f32Inf s ∧ f32Add x (f32Inf s) = f32Inf s ∧
    f32Div (f32Inf s) x = f32Inf (s != f32Neg x) ∧ f32Div x (f32Inf s) = f32Zero (f32Neg x != s))

/-- R111: `Round` of a finite value, in each mode of QUANT_ROUND. -/
def Obligations.QuotientRoundingFollowsItsMode : Prop :=
  ∀ x : F32, f32Finite x = true →
    ∃ e a z : Int,
      f32ToInt .tiesEven x = some e ∧ f32ToInt .tiesAway x = some a ∧ f32ToInt .trunc x = some z ∧
      |(e : ℚ) - f32Rat x| ≤ 1 / 2 ∧ (|(e : ℚ) - f32Rat x| = 1 / 2 → e % 2 = 0) ∧
      |(a : ℚ) - f32Rat x| ≤ 1 / 2 ∧ (|(a : ℚ) - f32Rat x| = 1 / 2 → |f32Rat x| < |(a : ℚ)|) ∧
      |(z : ℚ) - f32Rat x| < 1 ∧ |(z : ℚ)| ≤ |f32Rat x| ∧ 0 ≤ (z : ℚ) * f32Rat x

/-- R112: the scan of a block. It fails at `bad` exactly when `bad` is the smallest index at which one of the rule's
four points holds; otherwise it gives the rounded quotients, each an int32. -/
def Obligations.QuantizationFailsAtTheFirstBadIndex : Prop :=
  ∀ (mode : QuantRound) (l : List (F32 × F32)),
    (∀ f qd : F32, quantizeOne mode f qd = none ↔
      (f32Finite qd = false ∨ f32Rat qd ≤ 0) ∨ f32Finite f = false ∨ f32Finite (f32Div f qd) = false ∨
        ∃ q, f32ToInt mode (f32Div f qd) = some q ∧ (q < -2 ^ 31 ∨ 2 ^ 31 - 1 < q)) ∧
    (∀ f qd q, quantizeOne mode f qd = some q → f32ToInt mode (f32Div f qd) = some q) ∧
    (∀ bad, quantizeFrom mode 0 l = .error bad ↔
      bad < l.length ∧ (∀ x, l[bad]? = some x → quantizeOne mode x.1 x.2 = none) ∧
        ∀ (n : Nat) x, n < bad → l[n]? = some x → quantizeOne mode x.1 x.2 ≠ none) ∧
    (∀ qs, quantizeFrom mode 0 l = .ok qs ↔
      qs.length = l.length ∧ ∀ (n : Nat) x, l[n]? = some x → quantizeOne mode x.1 x.2 = qs[n]?)

/-- R130, R131: the ZZ ROM is a permutation of 0..63 that starts 0, 1, 8 and ends at 63, and `ZigZag` reads the
coefficients through it. -/
def Obligations.ZigzagIsAPermutationOfTheBlock : Prop :=
  zzRom.Perm (List.range 64) ∧ zzRom[0]? = some 0 ∧ zzRom[1]? = some 1 ∧ zzRom[2]? = some 8 ∧
  zzRom[63]? = some 63 ∧
  ∀ q : List Int, q.length = 64 → (zigzag q).Perm q ∧
    ∀ (k n : Nat), zzRom[k]? = some n → (zigzag q)[k]? = q[n]?

/-- R45, R135, R161: `CAT_LUT[m]` is the bit length of `m` for `m` below 2048, at most 11, with no entry above; the
amplitude of a value of category `s` fits in `s` bits; and a decoder recovers the value from it: top bit 1 is the
value itself, top bit 0 the value plus `2^s - 1`. -/
def Obligations.CategoryAndAmplitudeDetermineTheValue : Prop :=
  (∀ m : Nat, (m < 2048 → catLut m = some (Nat.size m) ∧ Nat.size m ≤ 11) ∧ (2048 ≤ m → catLut m = none)) ∧
  ∀ (v : Int) (s : Nat), s = Nat.size v.natAbs →
    amplitude v s < 2 ^ s ∧
    (0 < v → (amplitude v s : Int) = v ∧ 2 ^ s ≤ 2 * amplitude v s) ∧
    (v < 0 → (amplitude v s : Int) = v + 2 ^ s - 1 ∧ 2 * amplitude v s < 2 ^ s)

/-- R14, R132, R133, R136, R137: the coding of a block that succeeds. `emit` sends the most significant bit first; a
look-up gives the LEN low bits of the code of a valid entry and is AC_NOCODE otherwise; `k` zeros and a nonzero
coefficient `v` code as one ZRL for every 16 zeros, the symbol of the rest of the run and the size, and the amplitude,
followed by the coding of the coefficients behind them, whose run starts at 0; and the zeros at the end as EOB, or as
nothing when there are none. So a block whose only nonzero AC coefficient stands at zig-zag position `k` codes as ZRLs,
symbol, amplitude, and an EOB unless `k = 63`, and one whose AC coefficients are all zero as EOB alone. -/
def Obligations.SingleCoefficientCodesAsZrlSymbolEob : Prop :=
  (∀ code len : Nat, (emitBits code len).length = len ∧
    ∀ k, k < len → (emitBits code len)[k]? = some (code.testBit (len - 1 - k))) ∧
  (∀ (table : Nat → Option Word) (rs : Nat), (table rs = none → acLookup table rs = .error (.undefinedEntry rs)) ∧
    ∀ (e : Word) (len : Nat), table rs = some e → len = (e.extractLsb' 16 5).toNat →
      (1 ≤ len → len ≤ 16 → ∃ bits : List Bool, acLookup table rs = .ok bits ∧ bits.length = len ∧
        ∀ k, k < len → bits[k]? = some (e.getLsbD (len - 1 - k))) ∧
      (len = 0 ∨ 16 < len → acLookup table rs = .error (.noCode rs))) ∧
  (∀ (table : Nat → Option Word) (dc v : Int) (k s : Nat) (rest : List Int) (zrl code more : List Bool),
    v ≠ 0 → v.natAbs ≤ 1023 → s = Nat.size v.natAbs →
    (16 ≤ k → acLookup table 0xF0 = .ok zrl) → acLookup table (k % 16 * 16 + s) = .ok code →
    encodeAc table (dc :: rest) = .ok more →
    encodeAc table (dc :: (List.replicate k 0 ++ v :: rest)) =
      .ok ((List.replicate (k / 16) zrl).flatten ++ code ++ emitBits (amplitude v s) s ++ more)) ∧
  (∀ (table : Nat → Option Word) (dc : Int) (k : Nat),
    encodeAc table (dc :: List.replicate k 0) = if k = 0 then .ok [] else acLookup table 0x00) ∧
  (∀ (table : Nat → Option Word) (dc v : Int) (k s : Nat) (zrl code eob : List Bool),
    1 ≤ k → k ≤ 63 → v ≠ 0 → v.natAbs ≤ 1023 → s = Nat.size v.natAbs →
    (17 ≤ k → acLookup table 0xF0 = .ok zrl) → acLookup table ((k - 1) % 16 * 16 + s) = .ok code →
    (k ≠ 63 → acLookup table 0x00 = .ok eob) →
    encodeAc table (dc :: (List.replicate (k - 1) 0 ++ v :: List.replicate (63 - k) 0)) =
      .ok ((List.replicate ((k - 1) / 16) zrl).flatten ++ code ++ emitBits (amplitude v s) s ++
        if k = 63 then [] else eob))

/-- R132, R134, R136, R144, R204: the coding ends at its first failing step, whatever stands behind it. After `k` zeros, a
nonzero coefficient fails with the look-up of ZRL when a ZRL is needed and has no code, then with AC_CATEGORY when its
magnitude is 1024 or more, then with the look-up of its symbol, and then with what the coefficients behind it fail
with. -/
def Obligations.TooLargeCoefficientStopsTheCoding : Prop :=
  (∀ (table : Nat → Option Word) (v : Int) (run : Nat) (rest : List Int), 1024 ≤ v.natAbs →
    (16 ≤ run → ∃ zrl, acLookup table 0xF0 = .ok zrl) →
    encodeAcFrom table run (v :: rest) = .error (.category v)) ∧
  (∀ (table : Nat → Option Word) (dc v : Int) (k : Nat) (rest : List Int), v ≠ 0 →
    (∀ stop, 16 ≤ k → acLookup table 0xF0 = .error stop →
      encodeAc table (dc :: (List.replicate k 0 ++ v :: rest)) = .error stop) ∧
    ((16 ≤ k → ∃ zrl, acLookup table 0xF0 = .ok zrl) →
      (1024 ≤ v.natAbs → encodeAc table (dc :: (List.replicate k 0 ++ v :: rest)) = .error (.category v)) ∧
      (∀ stop, v.natAbs ≤ 1023 → acLookup table (k % 16 * 16 + Nat.size v.natAbs) = .error stop →
        encodeAc table (dc :: (List.replicate k 0 ++ v :: rest)) = .error stop) ∧
      (∀ (code : List Bool) (stop : AcStop), v.natAbs ≤ 1023 →
        acLookup table (k % 16 * 16 + Nat.size v.natAbs) = .ok code → encodeAc table (dc :: rest) = .error stop →
        encodeAc table (dc :: (List.replicate k 0 ++ v :: rest)) = .error stop)))

/-- R138: a successful bitstring of a block has at most 1638 bits, and the AC words of a region hold 128 to 1056. -/
def Obligations.AcBitstringIsBounded : Prop :=
  (∀ (table : Nat → Option Word) (zz : List Int) (bits : List Bool), zz.length = 64 →
    encodeAc table zz = .ok bits → bits.length ≤ 1638) ∧
  (∀ s : State, 1 ≤ s.ctrl.quality.toNat → s.ctrl.quality.toNat ≤ 100 →
    128 ≤ 32 * (ebs s - 2) ∧ 32 * (ebs s - 2) ≤ 1056)

/-- R140: stream bit `p` is bit `31 - (p mod 32)` of packed word `p div 32`, and bits past the end are 0. -/
def Obligations.PackingIsMsbFirst : Prop :=
  ∀ (bits : List Bool) (n : Nat), (pack bits n).length = n - 2 ∧
    ∀ (p : Nat) (w : Word), (pack bits n)[p / 32]? = some w →
      w.getLsbD (31 - p % 32) = bits.getD p false

/-- R108, R141, R143, R144: the transform of a block, and the five outcomes of a block with the words each leaves in the
region and its one error. Under SEQ32 the transform is `(D·S)·Dt`, each entry of a product the left-to-right binary32 sum
of its eight products. -/
def Obligations.RegionHoldsTheOutcomeOfItsBlock : Prop :=
  (∀ (p : Params) (d dt samples : List F32), p.dctArith = .seq32 →
    fdct p d dt samples = matMul (matMul d samples) dt) ∧
  (∀ (a b : List F32), (matMul a b).length = 64 ∧
    ∀ (r c : Nat) (x : Nat → F32), r < 8 → c < 8 →
      (∀ k, x k = f32Mul (a.getD (8 * r + k) 0#32) (b.getD (8 * k + c) 0#32)) →
      (matMul a b)[8 * r + c]? = some (f32Add (f32Add (f32Add (f32Add (f32Add (f32Add (f32Add (x 0) (x 1)) (x 2))
        (x 3)) (x 4)) (x 5)) (x 6)) (x 7))) ∧
  (∀ (p : Params) (tb : Tables) (table : Nat → Option Word) (n : Nat) (samples : List F32),
    (∀ bad, quantizeFrom p.quantRound 0 ((fdct p tb.d tb.dt samples).zip tb.q) = .error bad →
      encodeBlock p tb table n samples = .ok
        { words := 0#32 :: (List.replicate (n - 2) 0#32 ++ [0xFFFFFFFF#32])
          err := some (.quantInvalid, BitVec.ofNat 32 bad) }) ∧
    (∀ q, quantizeFrom p.quantRound 0 ((fdct p tb.d tb.dt samples).zip tb.q) = .ok q →
      (∀ v, encodeAc table (zigzag q) = .error (.category v) →
        encodeBlock p tb table n samples = .ok
          { words := BitVec.ofInt 32 (q.getD 0 0) :: (List.replicate (n - 2) 0#32 ++ [0xFFFFFFFF#32])
            err := some (.acCategory, BitVec.ofInt 32 v) }) ∧
      (∀ rs, encodeAc table (zigzag q) = .error (.noCode rs) →
        encodeBlock p tb table n samples = .ok
          { words := BitVec.ofInt 32 (q.getD 0 0) :: (List.replicate (n - 2) 0#32 ++ [0xFFFFFFFF#32])
            err := some (.acNoCode, BitVec.ofNat 32 rs) }) ∧
      (∀ bits, encodeAc table (zigzag q) = .ok bits → 32 * (n - 2) < bits.length →
        encodeBlock p tb table n samples = .ok
          { words := BitVec.ofInt 32 (q.getD 0 0) :: (pack bits n ++ [0xFFFFFFFF#32])
            err := some (.acOverflow, BitVec.ofNat 32 bits.length) }) ∧
      (∀ bits, encodeAc table (zigzag q) = .ok bits → bits.length ≤ 32 * (n - 2) →
        encodeBlock p tb table n samples = .ok
          { words := BitVec.ofInt 32 (q.getD 0 0) :: (pack bits n ++ [BitVec.ofNat 32 bits.length])
            err := none })))

/-! ### Errors and the interrupt -/

/-- R196, R197: `raise` captures the code, the region and the auxiliary operand when ERR was 0, sets the error's bit
in every case, and changes nothing else; the thirteen errors have the bits 0 to 12 in the order of the table, and codes
are bit indexes plus one. -/
def Obligations.RaiseCapturesOnlyTheFirstError : Prop :=
  [ErrKind.cqOverflow, .badOpcode, .badComp, .cfg, .range, .quantInvalid, .acCategory, .acNoCode, .acOverflow,
      .dcCategory, .dcNoCode, .busyWrite, .busError].map errBit = List.range 13 ∧
  ∀ (e : ErrKind) (region aux : Word) (s : State),
    (s.err = 0#13 → raise e region aux s =
      { s with
        errCode := BitVec.ofNat 8 (errBit e + 1), errRegion := region, errAux := aux,
        err := 1#13 <<< errBit e }) ∧
    (s.err ≠ 0#13 → raise e region aux s = { s with err := s.err ||| (1#13 <<< errBit e) }) ∧
    (raise e region aux s).err.getLsbD (errBit e) = true

/-- R24: ERR reads its 13 flags with zeros above; a Host write clears exactly the bits written as 1, busy or not;
nothing else clears a bit: no command, no other Host write, no Host read. -/
def Obligations.ErrorFlagsAreStickyUntilWrittenWithOne : Prop :=
  (∀ s : State, hostRead 0x010#32 s = (s.err.setWidth 32, s)) ∧
  (∀ (s : State) (w : Word), hostWrite 0x010#32 w s = { s with err := s.err &&& ~~~(w.setWidth 13) }) ∧
  (∀ (i : Instr) (s t : State), exec i s = .next t → s.err &&& t.err = s.err) ∧
  (∀ (addr w : Word) (s : State), addr ≠ 0x010#32 → s.err &&& (hostWrite addr w s).err = s.err) ∧
  (∀ (addr : Word) (s : State), s.err &&& (hostRead addr s).2.err = s.err) ∧
  State.reset.err = 0#13

/-- R213: the interrupt level is the function of the present state the rule gives, on unsigned values; STATUS.IRQ
shows it; it is 0 at reset. -/
def Obligations.InterruptIsALevelOfThePresentState : Prop :=
  (∀ s : State, irq s = true ↔
    (s.ctrl.fenceIrqEn = true ∧ s.fenceEvent.toNat ≤ s.fenceCompleted.toNat) ∨
      (s.ctrl.errIrqEn = true ∧ s.err ≠ 0#13)) ∧
  (∀ s : State, (hostRead 0x004#32 s).1.getLsbD 2 = irq s) ∧
  irq State.reset = false

/-! ### Host accesses -/

/-- R58, R210: a misaligned access, or one to an address outside the register block and every window, touches only
the error state: BUS_ERROR with the address; a read returns 0. -/
def Obligations.BusErrorsTouchTheErrorStateOnly : Prop :=
  ∀ (addr w : Word) (s : State),
    addr.toNat % 4 ≠ 0 ∨
      (0x100 ≤ addr.toNat ∧
        ∀ sp, addr.toNat < spaceBase sp ∨ spaceBase sp + 4 * spaceWords s.params sp ≤ addr.toNat) →
    hostRead addr s = (0#32, raise .busError 0#32 addr s) ∧ hostWrite addr w s = raise .busError 0#32 addr s

/-- R54: every offset of the register block holds the register of its rule, a reserved offset reads 0 and ignores
writes, and a read-only register ignores writes, with no error. -/
def Obligations.ReservedAndReadOnlyOffsetsIgnoreWrites : Prop :=
  (∀ s : State,
    [0x000#32, 0x004#32, 0x008#32, 0x00C#32, 0x010#32, 0x014#32, 0x018#32, 0x01C#32, 0x020#32, 0x024#32, 0x028#32,
        0x02C#32, 0x030#32].map (fun a => hostRead a s) =
      [(0x4A445131#32, s), (statusWord s, s), (ctrlWord s.ctrl, s), (BitVec.ofNat 32 (ebs s), s),
        (s.err.setWidth 32, s), (s.errCode.setWidth 32, s), (s.errRegion, s), (s.errAux, s),
        (s.surfW.setWidth 32, s), (s.surfH.setWidth 32, s), (BitVec.ofNat 32 s.params.resultWords, s),
        (BitVec.ofNat 32 s.params.dcmWords, s), (BitVec.ofNat 32 s.params.cqDepth, s)] ∧
    [0x040#32, 0x044#32, 0x048#32, 0x050#32, 0x054#32, 0x058#32, 0x060#32, 0x064#32, 0x068#32].map
        (fun a => hostRead a s) =
      [Comp.y, .cb, .cr].flatMap (fun c =>
        [((s.comps.get c).nb, s), ((s.comps.get c).base.setWidth 32, s), ((s.comps.get c).sel.setWidth 32, s)]) ∧
    [0x070#32, 0x074#32, 0x078#32, 0x07C#32, 0x080#32, 0x084#32, 0x088#32].map (fun a => hostRead a s) =
      [(s.fenceCompleted, s), (s.fenceEvent, s), (s.cmdArg, s), (0#32, s), (s.prevDc.y, s), (s.prevDc.cb, s),
        (s.prevDc.cr, s)]) ∧
  (∀ (addr w : Word) (s : State), addr.toNat % 4 = 0 →
    (0x034 ≤ addr.toNat ∧ addr.toNat ≤ 0x03C) ∨ addr.toNat = 0x04C ∨ addr.toNat = 0x05C ∨ addr.toNat = 0x06C ∨
      (0x08C ≤ addr.toNat ∧ addr.toNat ≤ 0x0FC) →
    hostRead addr s = (0#32, s) ∧ hostWrite addr w s = s) ∧
  (∀ (addr w : Word) (s : State),
    addr ∈ [0x000#32, 0x004#32, 0x00C#32, 0x014#32, 0x018#32, 0x01C#32, 0x028#32, 0x02C#32, 0x030#32, 0x070#32,
      0x080#32, 0x084#32, 0x088#32] → hostWrite addr w s = s)

/-- R63: while BUSY = 1 a write to a configuration register other than CTRL, or to any RAM word, changes nothing and
records BUSY_WRITE with the address; while BUSY = 0 it takes effect. (That a write of the value already there is refused
too is DEDUCED, notes/assumptions/11.md.) -/
def Obligations.ConfigurationWritesAreRefusedWhileBusy : Prop :=
  (∀ (addr w : Word) (s : State), s.cq ≠ [] →
    addr ∈ [0x020#32, 0x024#32, 0x040#32, 0x044#32, 0x048#32, 0x050#32, 0x054#32, 0x058#32, 0x060#32, 0x064#32,
      0x068#32] → hostWrite addr w s = raise .busyWrite 0#32 addr s) ∧
  (∀ (addr w : Word) (s : State) (sp : Space) (i : Nat), s.params.legal = true → s.cq ≠ [] →
    i < spaceWords s.params sp → addr.toNat = spaceAddr sp i →
    hostWrite addr w s = raise .busyWrite 0#32 addr s) ∧
  (∀ (addr w : Word) (s : State) (sp : Space) (i : Nat), s.params.legal = true → s.cq = [] →
    i < spaceWords s.params sp → addr.toNat = spaceAddr sp i →
    hostWrite addr w s = memWrite s sp i (storedWord sp w)) ∧
  (∀ (w : Word) (s : State), s.cq = [] →
    hostWrite 0x020#32 w s = { s with surfW := w.setWidth 16 } ∧
    hostWrite 0x024#32 w s = { s with surfH := w.setWidth 16 } ∧
    ∀ c : Comp, ∀ base : Nat, base = (match c with | .y => 0x040 | .cb => 0x050 | .cr => 0x060) →
      hostWrite (BitVec.ofNat 32 base) w s =
        { s with comps := s.comps.set c { s.comps.get c with nb := w } } ∧
      hostWrite (BitVec.ofNat 32 (base + 4)) w s =
        { s with comps := s.comps.set c { s.comps.get c with base := w.setWidth 22 } } ∧
      hostWrite (BitVec.ofNat 32 (base + 8)) w s =
        { s with comps := s.comps.set c { s.comps.get c with sel := w.setWidth 3 } })

/-- R22: a CTRL write. The enables always take bits 16 and 17. QUALITY 0 is stored as 1 and 101 to 127 as 100;
SUBSAMPLE 3 leaves the field. While BUSY = 1 a change of either legalized field is refused, neither is written, and
BUSY_WRITE is recorded with address 0x008; without a change there is no error. Reading gives the fields back. -/
def Obligations.CtrlWriteIsLegalizedAndProtected : Prop :=
  ∀ (w : Word) (s : State) (q : BitVec 7) (ss : BitVec 2),
    q = (if w.extractLsb' 0 7 = 0#7 then 1#7 else if 100 < (w.extractLsb' 0 7).toNat then 100#7
      else w.extractLsb' 0 7) →
    ss = (if w.extractLsb' 8 2 = 3#2 then s.ctrl.subsample else w.extractLsb' 8 2) →
    (s.cq = [] ∨ (q = s.ctrl.quality ∧ ss = s.ctrl.subsample) →
      hostWrite 0x008#32 w s =
        { s with
          ctrl := { quality := q, subsample := ss, fenceIrqEn := w.getLsbD 16, errIrqEn := w.getLsbD 17 } }) ∧
    (s.cq ≠ [] → ¬ (q = s.ctrl.quality ∧ ss = s.ctrl.subsample) →
      hostWrite 0x008#32 w s = raise .busyWrite 0#32 0x008#32
        { s with ctrl := { s.ctrl with fenceIrqEn := w.getLsbD 16, errIrqEn := w.getLsbD 17 } }) ∧
    (hostRead 0x008#32 s).2 = s ∧
    (hostRead 0x008#32 s).1.extractLsb' 0 7 = s.ctrl.quality ∧
    (hostRead 0x008#32 s).1.extractLsb' 8 2 = s.ctrl.subsample ∧
    (hostRead 0x008#32 s).1.getLsbD 16 = s.ctrl.fenceIrqEn ∧
    (hostRead 0x008#32 s).1.getLsbD 17 = s.ctrl.errIrqEn ∧
    (hostRead 0x008#32 s).1.getLsbD 7 = false ∧
    (hostRead 0x008#32 s).1.extractLsb' 10 6 = 0#6 ∧
    (hostRead 0x008#32 s).1.extractLsb' 18 14 = 0#14 ∧
    (hostRead 0x008#32 State.reset).1 = 0x00000064#32

/-- R23: EBS reads `max(QUALITY, 12) div 3 + 2`, 6 to 35 for every legal QUALITY, 35 at reset; writes are ignored. -/
def Obligations.EbsFollowsQuality : Prop :=
  (∀ s : State, hostRead 0x00C#32 s = (BitVec.ofNat 32 (max s.ctrl.quality.toNat 12 / 3 + 2), s)) ∧
  (∀ (w : Word) (s : State), hostWrite 0x00C#32 w s = s) ∧
  (∀ s : State, 1 ≤ s.ctrl.quality.toNat → s.ctrl.quality.toNat ≤ 100 → 6 ≤ ebs s ∧ ebs s ≤ 35) ∧
  (hostRead 0x00C#32 State.reset).1 = 0x00000023#32

/-- R21: the fields of STATUS, for a queue within a legal capacity; writes are ignored; 0 at reset. -/
def Obligations.StatusShowsQueueAndInterrupt : Prop :=
  (∀ s : State, s.params.legal = true → s.cq.length ≤ s.params.cqDepth →
    (hostRead 0x004#32 s).2 = s ∧
    (hostRead 0x004#32 s).1.getLsbD 0 = decide (s.cq.length ≠ 0) ∧
    (hostRead 0x004#32 s).1.getLsbD 1 = decide (s.cq.length = s.params.cqDepth) ∧
    (hostRead 0x004#32 s).1.getLsbD 2 = irq s ∧
    (hostRead 0x004#32 s).1.extractLsb' 3 5 = 0#5 ∧
    ((hostRead 0x004#32 s).1.extractLsb' 8 16).toNat = s.cq.length ∧
    (hostRead 0x004#32 s).1.extractLsb' 24 8 = 0#8) ∧
  (∀ (w : Word) (s : State), hostWrite 0x004#32 w s = s) ∧
  (hostRead 0x004#32 State.reset).1 = 0x00000000#32

/-- R185: a CMD write appends `{w, CMD_ARG}` whether busy or not, without decoding it, and CMD_ARG keeps its value;
into a full queue it is dropped with CQ_OVERFLOW. -/
def Obligations.CmdWritePushesOrOverflows : Prop :=
  ∀ (w : Word) (s : State),
    (s.cq.length ≠ s.params.cqDepth →
      hostWrite 0x07C#32 w s = { s with cq := s.cq ++ [{ word := w, arg := s.cmdArg }] }) ∧
    (s.cq.length = s.params.cqDepth → hostWrite 0x07C#32 w s = raise .cqOverflow 0#32 w s)

/-- R72, R236: no Host access and no command changes an entry already queued: a Host write keeps the queue or appends
one entry, and a CMD_ARG write after the push does not reach it. -/
def Obligations.QueuedEntriesAreNeverChanged : Prop :=
  (∀ (addr w : Word) (s : State),
    (hostWrite addr w s).cq = s.cq ∨
      (addr = 0x07C#32 ∧ (hostWrite addr w s).cq = s.cq ++ [{ word := w, arg := s.cmdArg }])) ∧
  (∀ (addr : Word) (s : State), (hostRead addr s).2.cq = s.cq) ∧
  (∀ (i : Instr) (s t : State), exec i s = .next t → t.cq = s.cq) ∧
  (∀ (w : Word) (s : State), hostWrite 0x078#32 w s = { s with cmdArg := w })

/-- R61: a read of any register or RAM word that raises no BUS_ERROR changes no state of JDQ (the count of free draws
is the model's own, notes/assumptions/6.md), a second read of a register returns the same value, and reading CMD
returns 0. -/
def Obligations.HostReadsHaveNoSideEffects : Prop :=
  (∀ (addr : Word) (s : State), addr.toNat % 4 = 0 → locate s.params addr.toNat ≠ .unmapped →
    (hostRead addr s).2 = { s with draws := (hostRead addr s).2.draws }) ∧
  (∀ (addr : Word) (s : State), addr.toNat % 4 = 0 → addr.toNat < 0x100 → (hostRead addr s).2 = s) ∧
  (∀ s : State, hostRead 0x07C#32 s = (0#32, s))

/-- R64: while BUSY = 1 a read of RESULT or DCM returns a freely drawn value and records no error; while BUSY = 0 it
returns the stored word, or a free value if the word is undefined; a table RAM's stored word is returned at any
time. (The drawn value is `Config.freeWord` of the count of draws, notes/assumptions/6.md; nothing is known of
it.) -/
def Obligations.HostReadsOfRamsReturnStoredOrFreeWords : Prop :=
  ∀ (addr : Word) (s : State) (sp : Space) (i : Nat), s.params.legal = true → i < spaceWords s.params sp →
    addr.toNat = spaceAddr sp i →
    ((sp = .result ∨ sp = .dcm) → s.cq ≠ [] →
      hostRead addr s = (Config.freeWord s.draws, { s with draws := s.draws + 1 })) ∧
    (s.cq = [] ∨ (sp ≠ .result ∧ sp ≠ .dcm) →
      (∀ w, memRead s sp i = some w → hostRead addr s = (w, s)) ∧
      (memRead s sp i = none →
        hostRead addr s = (Config.freeWord s.draws, { s with draws := s.draws + 1 })))

/-- R55, R56, R57: while idle, a word written to a RAM reads back as stored (Huffman entries keep bits [20:0] only),
and every other word of every RAM is unchanged. -/
def Obligations.RamWordsReadBackAsStored : Prop :=
  ∀ (addr w : Word) (s : State) (sp : Space) (i : Nat), s.params.legal = true → s.cq = [] →
    i < spaceWords s.params sp → addr.toNat = spaceAddr sp i →
    (hostRead addr (hostWrite addr w s)).1 =
      (if sp = .achuf0 ∨ sp = .achuf1 ∨ sp = .dchuf0 ∨ sp = .dchuf1 then
        (0#11 ++ w.extractLsb' 0 21 : BitVec 32) else w) ∧
    (∀ sq j, j < spaceWords s.params sq → ¬ (sq = sp ∧ j = i) →
      memRead (hostWrite addr w s) sq j = memRead s sq j) ∧
    hostWrite addr w s = { s with mem := (hostWrite addr w s).mem }

/-! ### Reset -/

/-- R231, 10_state.md §7: what the Host reads of every register after reset, the empty queue, the interrupt low, and
every RAM word undefined. -/
def Obligations.ResetStateReadsAsTabled : Prop :=
  [0x000#32, 0x004#32, 0x008#32, 0x00C#32, 0x010#32, 0x014#32, 0x018#32, 0x01C#32, 0x020#32, 0x024#32].map
      (fun a => (hostRead a State.reset).1) =
    [0x4A445131#32, 0#32, 0x64#32, 35#32, 0#32, 0#32, 0#32, 0#32, 0#32, 0#32] ∧
  [0x028#32, 0x02C#32, 0x030#32].map (fun a => (hostRead a State.reset).1) =
    [BitVec.ofNat 32 State.reset.params.resultWords, BitVec.ofNat 32 State.reset.params.dcmWords,
      BitVec.ofNat 32 State.reset.params.cqDepth] ∧
  [0x040#32, 0x044#32, 0x048#32, 0x050#32, 0x054#32, 0x058#32, 0x060#32, 0x064#32, 0x068#32].map
      (fun a => (hostRead a State.reset).1) = [0#32, 0#32, 0#32, 0#32, 0#32, 7#32, 0#32, 0#32, 7#32] ∧
  [0x070#32, 0x074#32, 0x078#32, 0x07C#32, 0x080#32, 0x084#32, 0x088#32].map
      (fun a => (hostRead a State.reset).1) = [0#32, 0xFFFFFFFF#32, 0#32, 0#32, 0#32, 0#32, 0#32] ∧
  State.reset.cq = [] ∧ irq State.reset = false ∧
  (∀ sp i, memRead State.reset sp i = none)

/-- R230: the reset input puts every register, the queue and every RAM into the reset state, whatever they were, and
discards every queued command. (The parameters, the surface and the outside world's own lists are not JDQ's state
and stay, notes/assumptions/15.md.) -/
def Obligations.ResetInputRestoresTheResetState : Prop :=
  ∀ (s : State) (rest : List Input), s.inputs = .reset :: rest →
    step s = .next { State.reset with
      params := s.params, surface := s.surface, inputs := rest, reads := s.reads, draws := s.draws }

/-! ### Whole-machine rules -/

/-- R72, R101, R67: no command writes a register that configures a command, a table, `cq`, CMD_ARG or FENCE_EVENT;
and none touches the parameters, the surface or the outside world's lists. -/
def Obligations.NoCommandWritesConfiguration : Prop :=
  ∀ (i : Instr) (s t : State), exec i s = .next t →
    (t.ctrl = s.ctrl ∧ t.surfW = s.surfW ∧ t.surfH = s.surfH ∧ t.comps = s.comps ∧ t.cq = s.cq ∧
      t.cmdArg = s.cmdArg ∧ t.fenceEvent = s.fenceEvent ∧ t.params = s.params ∧ t.surface = s.surface ∧
      t.inputs = s.inputs ∧ t.reads = s.reads ∧ t.draws = s.draws) ∧
    (∀ a, a < 0x01000000 → readByte t.mem a = readByte s.mem a)

/-- R36, R37, R40, R67: only SIGNAL writes FENCE_COMPLETED and only DCRST and DCENC write the predictors, whatever the
Host reads or writes; a Host write of FENCE_EVENT, busy or not, sets that register alone. -/
def Obligations.OnlyTheirCommandsWriteFenceAndPredictors : Prop :=
  (∀ (i : Instr) (s t : State), exec i s = .next t →
    ((∀ comp rsvd arg, i ≠ .signal comp rsvd arg) → t.fenceCompleted = s.fenceCompleted) ∧
    ((∀ comp rsvd arg, i ≠ .dcrst comp rsvd arg ∧ i ≠ .dcenc comp rsvd arg) → t.prevDc = s.prevDc)) ∧
  (∀ (addr w : Word) (s : State),
    (hostWrite addr w s).fenceCompleted = s.fenceCompleted ∧ (hostWrite addr w s).prevDc = s.prevDc ∧
    (hostRead addr s).2.fenceCompleted = s.fenceCompleted ∧ (hostRead addr s).2.prevDc = s.prevDc) ∧
  (∀ (w : Word) (s : State), hostWrite 0x074#32 w s = { s with fenceEvent := w })

/-- R179, R187: the fence guarantee. With no event pending, a queue `pre ++ [SIGNAL v] ++ post` whose `pre` holds no
SIGNAL: after as many steps as `pre` has entries, or fewer, FENCE_COMPLETED still has its old value; one step after
`pre` is done it is `v`, and exactly `post` is left in the queue, so every entry of `pre` has completed. (The list of events is
the model's own, notes/assumptions/2.md.) -/
def Obligations.FenceValueFollowsEveryEarlierCommand : Prop :=
  ∀ (s : State) (pre post : List Entry) (e : Entry), s.inputs = [] → s.cq = pre ++ e :: post →
    opcField e.word = 0x02#8 → (∀ x ∈ pre, opcField x.word ≠ 0x02#8) →
    (∀ n t, n ≤ pre.length → Sys2Proof.core.run n s = .next t →
      State.fenceCompleted t = s.fenceCompleted ∧ State.cq t = pre.drop n ++ e :: post) ∧
    (∀ t, Sys2Proof.core.run (pre.length + 1) s = .next t →
      State.fenceCompleted t = e.arg ∧ State.cq t = post) ∧
    (∀ t, Sys2Proof.core.run pre.length s = .next t →
      ∃ u, Sys2Proof.core.run (pre.length + 1) s = .next u)

/-- R232, R50: once every table word is written, every command runs to a next state, but for a DCENC in range whose
RESULT word is undefined. -/
def Obligations.CommandsCompleteAfterBoot : Prop :=
  ∀ (i : Instr) (s : State), TablesLoaded s →
    (∀ comp rsvd r, i = .dcenc comp rsvd r → dcRangeOk s r.toNat = true →
      (memRead s .result (r.toNat * ebs s)).isSome = true) →
    ∃ t, exec i s = .next t

/-- The parameters and the surface are fixed for a run (R9, R66). -/
def Obligations.StepKeepsParametersAndSurface : Prop :=
  ∀ s t : State, step s = .next t → t.params = s.params ∧ t.surface = s.surface

/-- The invariant holds after reset. -/
def Obligations.ResetMeetsTheInvariant : Prop := StateInv State.reset

/-- The invariant of JDQ is kept by every step, from every state: whatever the Host writes or the Engine executes,
memory keeps its canonical form of whole words inside the mapped windows (R53, R58), the reserved bits of stored
Huffman entries stay zero (R43, R44), the queue stays within CQ_DEPTH (R18), QUALITY and SUBSAMPLE stay legal (R22),
and a recorded error has a captured code of the table (R25, R197). -/
def Obligations.EveryStepKeepsTheInvariant : Prop :=
  ∀ s t : State, StateInv s → step s = .next t → StateInv t
end

