-- ==== Sys2Proof/Laws/Binary32.lean ====
section
/-! SUPPORT. Rounding: `divNearestEven`, the exponent of a ratio, the magnitude of a pattern, and that `roundRatio` and
`f32Round` give the nearest pattern, ties to even. -/

namespace Sys2Proof.Machine

/-- The rounded quotient is within half a unit, and even when it is exactly half a unit away. -/
theorem divNearestEven_spec (n d : Nat) (hd : 0 < d) : 2 * n ≤ (2 * divNearestEven n d + 1) * d ∧ 2 * divNearestEven n d * d ≤ 2 * n + d ∧
   ((2 * n = (2 * divNearestEven n d + 1) * d ∨ 2 * divNearestEven n d * d = 2 * n + d) → divNearestEven n d % 2 = 0) := by
  have hdm := Nat.div_add_mod n d
  have hr := Nat.mod_lt n hd
  simp only [divNearestEven]
  generalize n / d = q at *
  generalize n % d = r at *
  subst hdm
  split
  · refine ⟨?_, ?_, ?_⟩
    · rw [Nat.add_mul, Nat.mul_assoc, Nat.mul_comm q d]; omega
    · rw [Nat.mul_assoc, Nat.mul_comm q d]; omega
    · rintro (h | h)
      · rw [Nat.add_mul, Nat.mul_assoc, Nat.mul_comm q d] at h; omega
      · rw [Nat.mul_assoc, Nat.mul_comm q d] at h; omega
  · split
    · refine ⟨?_, ?_, ?_⟩
      · have : (2 * (q + 1) + 1) * d = 2 * (d * q) + 3 * d := by ring
        rw [this]; omega
      · have : 2 * (q+1) * d = 2 * (d * q) + 2 * d := by ring
        rw [this]; omega
      · have e1 : (2 * (q + 1) + 1) * d = 2 * (d * q) + 3 * d := by ring
        have e2 : 2 * (q+1) * d = 2 * (d * q) + 2 * d := by ring
        rw [e1, e2]; omega
    · have hrd : 2 * r = d := by omega
      rcases Nat.mod_two_eq_zero_or_one q with h | h
      · rw [h]
        refine ⟨?_, ?_, ?_⟩
        · have : (2 * (q + 0) + 1) * d = 2 * (d * q) + d := by ring
          rw [this]; omega
        · have : 2 * (q+0) * d = 2 * (d * q) := by ring
          rw [this]; omega
        · intro _; simpa using h
      · rw [h]
        refine ⟨?_, ?_, ?_⟩
        · have : (2 * (q + 1) + 1) * d = 2 * (d * q) + 3 * d := by ring
          rw [this]; omega
        · have : 2 * (q+1) * d = 2 * (d * q) + 2 * d := by ring
          rw [this]; omega
        · intro _; omega

/-- A magnitude `m · 2^k` as a ratio of natural numbers. -/
theorem zpow_split (m : Nat) (k : Int) : (m : ℚ) * 2 ^ k = ((m * 2 ^ k.toNat : Nat) : ℚ) / ((2 ^ (-k).toNat : Nat) : ℚ) := by
  rcases Int.le_total 0 k with h | h
  · have e : (-k).toNat = 0 := by omega
    rw [e]; push_cast; simp
    left
    conv_lhs => rw [← Int.toNat_of_nonneg h]
    rw [zpow_natCast]
  · have e : k.toNat = 0 := by omega
    rw [e]; push_cast; simp
    have : k = -((-k).toNat : Int) := by omega
    conv_lhs => rw [this]
    rw [zpow_neg, zpow_natCast, div_eq_mul_inv]

/-- A power of two from its positive and negative parts. -/
theorem pow_toNat_div (e : Int) : ((2:ℚ) ^ e.toNat) / (2 ^ (-e).toNat) = 2 ^ e := by
  rcases Int.le_total 0 e with h | h
  · have e1 : (-e).toNat = 0 := by omega
    rw [e1, pow_zero, div_one, ← zpow_natCast, Int.toNat_of_nonneg h]
  · have e1 : e.toNat = 0 := by omega
    rw [e1, pow_zero, one_div, ← zpow_natCast, Int.toNat_of_nonneg (by omega), ← zpow_neg, neg_neg]

/-- `ratioExp` is the exponent of the ratio. -/
theorem ratioExp_spec (num den : Nat) (hn : 0 < num) (hd : 0 < den) :
   (2:ℚ) ^ (ratioExp num den) ≤ (num:ℚ) / den ∧ (num:ℚ) / den < 2 ^ (ratioExp num den + 1) := by
  have hdq : (0:ℚ) < den := by exact_mod_cast hd
  have n1 : ((2:ℚ) ^ Nat.log2 num) ≤ num := by exact_mod_cast Nat.log2_self_le (by omega)
  have n2 : (num:ℚ) < 2 ^ (Nat.log2 num + 1) := by exact_mod_cast Nat.lt_log2_self
  have d1 : ((2:ℚ) ^ Nat.log2 den) ≤ den := by exact_mod_cast Nat.log2_self_le (by omega)
  have d2 : (den:ℚ) < 2 ^ (Nat.log2 den + 1) := by exact_mod_cast Nat.lt_log2_self
  simp only [ratioExp]
  generalize Nat.log2 num = a at *
  generalize Nat.log2 den = b at *
  have hup : (num:ℚ) / den < 2 ^ ((a:Int) - b + 1) := by
    rw [div_lt_iff₀ hdq]
    calc (num:ℚ) < 2 ^ (a+1) := n2
      _ = 2 ^ ((a:Int) - b + 1) * 2 ^ b := by rw [← zpow_natCast, ← zpow_natCast, ← zpow_add₀ (by norm_num)]; congr 1; push_cast; ring
      _ ≤ 2 ^ ((a:Int) - b + 1) * den := by apply mul_le_mul_of_nonneg_left d1; positivity
  have hlo : (2:ℚ) ^ ((a:Int) - b - 1) ≤ (num:ℚ) / den := by
    rw [le_div_iff₀ hdq]
    calc (2:ℚ) ^ ((a:Int) - b - 1) * den ≤ 2 ^ ((a:Int) - b - 1) * 2 ^ (b+1) := by apply mul_le_mul_of_nonneg_left (le_of_lt d2); positivity
      _ = 2 ^ a := by rw [← zpow_natCast, ← zpow_natCast, ← zpow_add₀ (by norm_num)]; congr 1; push_cast; ring
      _ ≤ num := n1
  have hcmp : num * 2 ^ (-((a:Int) - b)).toNat < den * 2 ^ ((a:Int) - b).toNat ↔ (num:ℚ) / den < 2 ^ ((a:Int) - b) := by
    rw [← pow_toNat_div, div_lt_div_iff₀ hdq (by positivity), mul_comm ((2:ℚ) ^ _) (den:ℚ)]
    exact_mod_cast Iff.rfl
  split
  · rename_i h
    have h := hcmp.mp h
    refine ⟨hlo, ?_⟩
    rwa [Int.sub_add_cancel]
  · rename_i h
    have h := hcmp.not.mp h
    exact ⟨not_lt.mp h, hup⟩

/-- The magnitude of the lower 31 bits of a pattern. -/
def magRat (p : Nat) : ℚ :=
  if p / 2 ^ 23 = 0 then (p % 2 ^ 23 : Nat) * 2 ^ (-149 : Int)
  else ((p % 2 ^ 23 + 2 ^ 23 : Nat) : ℚ) * 2 ^ ((p / 2 ^ 23 : Nat) - 150 : Int)

/-- The value of a finite pattern from its sign and its lower 31 bits. -/
theorem f32Rat_eq (w : F32) (h : f32Finite w = true) : f32Rat w = (if f32Neg w then -1 else 1) * magRat (w.toNat % 2 ^ 31) ∧ w.toNat % 2 ^ 31 < 0x7F800000 := by
  have he : f32Exp w ≠ 255 := by simpa [f32Finite] using h
  have e1 : w.toNat % 2 ^ 31 / 2 ^ 23 = f32Exp w := by simp only [f32Exp]; omega
  have e2 : w.toNat % 2 ^ 31 % 2 ^ 23 = f32Frac w := by simp only [f32Frac]; omega
  refine ⟨?_, ?_⟩
  · simp only [f32Rat, f32Unpack, he, if_false, magRat, e1, e2]
    by_cases h0 : f32Exp w = 0
    · simp only [h0, if_true]; ring
    · simp only [h0, if_false]; push_cast; ring
  · have : f32Exp w < 256 := Nat.mod_lt _ (by norm_num)
    omega

/-- The value of a pattern built by adding a significand to an exponent field. -/
theorem magRat_build (E : Int) (q : Nat) (hE : -126 ≤ E) (hq : q ≤ 2 ^ 24) (hlow : q < 2 ^ 23 → E = -126) :
   magRat ((E + 126).toNat * 2 ^ 23 + q) = q * 2 ^ (E - 23) := by
  obtain ⟨k, hk⟩ : ∃ k : Nat, E = k - 126 := ⟨(E + 126).toNat, by omega⟩
  have ek : (E + 126).toNat = k := by omega
  rw [ek]
  have hpow : ∀ a b : Int, a = b → (2:ℚ) ^ a = 2 ^ b := by rintro a b rfl; rfl
  rcases Nat.lt_or_ge q (2 ^ 23) with h | h
  · have : k = 0 := by have := hlow h; omega
    subst this
    have a1 : (0 * 2 ^ 23 + q) / 2 ^ 23 = 0 := by omega
    have a2 : (0 * 2 ^ 23 + q) % 2 ^ 23 = q := by omega
    simp only [magRat, a1, a2, if_true]
    congr 1; apply hpow; omega
  · rcases Nat.lt_or_ge q (2 ^ 24) with h' | h'
    · have a1 : (k * 2 ^ 23 + q) / 2 ^ 23 = k + 1 := by omega
      have a2 : (k * 2 ^ 23 + q) % 2 ^ 23 + 2 ^ 23 = q := by omega
      simp only [magRat, a1, a2]
      rw [if_neg (by omega)]
      congr 1; apply hpow; push_cast; omega
    · have : q = 2 ^ 24 := by omega
      subst this
      have a1 : (k * 2 ^ 23 + 2 ^ 24) / 2 ^ 23 = k + 2 := by omega
      have a2 : (k * 2 ^ 23 + 2 ^ 24) % 2 ^ 23 + 2 ^ 23 = 2 ^ 23 := by omega
      simp only [magRat, a1, a2]
      rw [if_neg (by omega)]
      push_cast
      rw [show (16777216:ℚ) = 8388608 * 2 ^ (1:Int) by norm_num, mul_assoc, ← zpow_add₀ (by norm_num)]
      congr 1; apply hpow; omega

/-- Every magnitude is either an integer multiple of the unit of exponent `E` or lies below `2^E`. -/
theorem magRat_grid (p : Nat) (E : Int) : (∃ j : Nat, magRat p = j * 2 ^ (E - 23)) ∨ (-126 < E ∧ magRat p < 2 ^ E) ∨ E < -126 := by
  by_cases hE : E < -126
  · exact .inr (.inr hE)
  obtain ⟨k, hk⟩ : ∃ k : Nat, E = k - 126 := ⟨(E + 126).toNat, by omega⟩
  subst hk
  have hm : p % 2 ^ 23 < 2 ^ 23 := Nat.mod_lt _ (by norm_num)
  simp only [magRat]
  have low : k ≠ 0 → ∀ m : Nat, ∀ e : Int, m < 2 ^ 24 → e + 24 ≤ (k:Int) - 126 → (m:ℚ) * 2 ^ e < 2 ^ ((k:Int) - 126) := by
    intro hk m e hm he
    have : (m:ℚ) < 2 ^ 24 := by exact_mod_cast hm
    calc (m:ℚ) * 2 ^ e < 2 ^ 24 * 2 ^ e := by apply mul_lt_mul_of_pos_right this; positivity
      _ = 2 ^ (24 + e) := by rw [zpow_add₀ (by norm_num)]; norm_num
      _ ≤ 2 ^ ((k:Int) - 126) := zpow_le_zpow_right₀ (by norm_num) (by omega)
  by_cases h0 : p / 2 ^ 23 = 0
  · rw [if_pos h0]
    by_cases hk0 : k = 0
    · left; subst hk0; exact ⟨p % 2 ^ 23, by congr 1⟩
    · right; left
      refine ⟨by omega, ?_⟩
      have h23 : ((p % 2 ^ 23 : Nat) : ℚ) < 2 ^ 23 := by exact_mod_cast hm
      calc ((p % 2 ^ 23 : Nat) : ℚ) * 2 ^ (-149:Int) < 2 ^ 23 * 2 ^ (-149:Int) := by apply mul_lt_mul_of_pos_right h23; positivity
        _ = 2 ^ (-126:Int) := by norm_num
        _ ≤ 2 ^ ((k:Int) - 126) := zpow_le_zpow_right₀ (by norm_num) (by omega)
  · rw [if_neg h0]
    generalize p / 2 ^ 23 = e at *
    generalize p % 2 ^ 23 = f at *
    rcases Nat.lt_or_ge e (k+1) with h | h
    · right; left
      refine ⟨by omega, low (by omega) _ _ (by omega) (by omega)⟩
    · left
      refine ⟨(f + 2 ^ 23) * 2 ^ (e - (k+1)), ?_⟩
      push_cast
      rw [mul_assoc, ← zpow_natCast (2:ℚ) (e - (k+1)), ← zpow_add₀ (by norm_num)]
      congr 2; push_cast [Nat.cast_sub h]; ring

/-- A magnitude is not negative. -/
theorem magRat_nonneg (p : Nat) : 0 ≤ magRat p := by
  simp only [magRat]; split <;> positivity

/-- The rounding of a positive ratio: nearest, ties to even, among all magnitudes. -/
theorem roundRatio_nearest (num den : Nat) (hd : 0 < den) (hfin : roundRatio num den < 0x7F800000) (p : Nat) :
   |magRat (roundRatio num den) - (num:ℚ) / den| ≤ |magRat p - (num:ℚ) / den| ∧
   (|magRat p - (num:ℚ) / den| = |magRat (roundRatio num den) - (num:ℚ) / den| → magRat p ≠ magRat (roundRatio num den) → roundRatio num den % 2 = 0) := by
  by_cases hn0 : num = 0
  · subst hn0
    have : roundRatio 0 den = 0 := rfl
    rw [this]
    simp [magRat]
  have hn : 0 < num := by omega
  obtain ⟨x1, x2⟩ := ratioExp_spec num den hn hd
  have hdq : (0:ℚ) < den := by exact_mod_cast hd
  have hx0 : (0:ℚ) < (num:ℚ) / den := by positivity
  unfold roundRatio at hfin ⊢
  rw [if_neg hn0] at hfin ⊢
  simp only at hfin ⊢
  generalize hE : max (ratioExp num den) (-126) = E at *
  generalize hq : divNearestEven (num * 2 ^ (23 - E).toNat) (den * 2 ^ (E - 23).toNat) = q at *
  have hxx : ((num * 2 ^ (23 - E).toNat : Nat) : ℚ) / ((den * 2 ^ (E - 23).toNat : Nat) : ℚ) = (num:ℚ) / den / 2 ^ (E - 23) := by
    rw [← pow_toNat_div (E - 23), show -(E-23) = 23 - E by ring]
    push_cast; field_simp
  obtain ⟨t1, t2, t3⟩ := divNearestEven_spec (num * 2 ^ (23 - E).toNat) (den * 2 ^ (E - 23).toNat) (by positivity)
  rw [hq] at t1 t2 t3
  generalize num * 2 ^ (23 - E).toNat = n at *
  have hd2 : 0 < den * 2 ^ (E - 23).toNat := by positivity
  generalize den * 2 ^ (E - 23).toNat = d at *
  generalize (num:ℚ) / den = x at *
  have hdq2 : (0:ℚ) < d := by exact_mod_cast hd2
  set u : ℚ := 2 ^ (E - 23) with hu
  have hupos : 0 < u := by positivity
  generalize hy : (n:ℚ) / d = y at *
  have hyd : y * d = n := by rw [← hy]; field_simp
  have hxy : x = y * u := by rw [hxx]; field_simp
  have t1' : (2:ℚ) * n ≤ (2 * q + 1) * d := by exact_mod_cast t1
  have t2' : (2:ℚ) * q * d ≤ 2 * n + d := by exact_mod_cast t2
  have b1 : y ≤ q + 1/2 := by nlinarith
  have b2 : (q:ℚ) ≤ y + 1/2 := by nlinarith
  have htie : (y = q + 1/2 ∨ (q:ℚ) = y + 1/2) → q % 2 = 0 := by
    rintro (h | h)
    · apply t3; left
      have : (2:ℚ) * n = (2 * q + 1) * d := by rw [← hyd, h]; ring
      exact_mod_cast this
    · apply t3; right
      have : (2:ℚ) * q * d = 2 * n + d := by rw [← hyd, h]; ring
      exact_mod_cast this
  -- bounds on y
  have h24 : (2:ℚ) ^ 24 * u = 2 ^ (E + 1) := by rw [hu, show (2:ℚ)^24 = 2 ^ (24:Int) by norm_num, ← zpow_add₀ (by norm_num)]; congr 1; ring
  have h23 : (2:ℚ) ^ 23 * u = 2 ^ E := by rw [hu, show (2:ℚ)^23 = 2 ^ (23:Int) by norm_num, ← zpow_add₀ (by norm_num)]; congr 1; ring
  have hE126 : -126 ≤ E := by omega
  have yup : y < 2 ^ 24 := by
    have : x < 2 ^ (E + 1) := lt_of_lt_of_le x2 (zpow_le_zpow_right₀ (by norm_num) (by omega))
    rw [← h24, hxy] at this
    exact lt_of_mul_lt_mul_right this hupos.le
  have ylow : -126 < E → 2 ^ 23 ≤ y := by
    intro h
    have : E = ratioExp num den := by omega
    rw [← this, ← h23, hxy] at x1
    exact le_of_mul_le_mul_right x1 hupos
  have q24 : q ≤ 2 ^ 24 := by
    have : (q:ℚ) < 2 ^ 24 + 1 := by linarith
    have : (q:ℚ) < ((2 ^ 24 + 1 : Nat) : ℚ) := by push_cast; linarith
    have := Nat.cast_lt.mp this; omega
  have q23 : -126 < E → 2 ^ 23 ≤ q := by
    intro h
    have h1 := ylow h
    have : ((2 ^ 23 : Nat) : ℚ) < ((q + 1 : Nat) : ℚ) := by push_cast; linarith
    have := Nat.cast_lt.mp this; omega
  have hval : magRat ((E + 126).toNat * 2 ^ 23 + q) = q * u := magRat_build E q hE126 q24 (by intro h; by_contra hh; have := q23 (by omega); omega)
  have hmin : min ((E + 126).toNat * 2 ^ 23 + q) 0x7F800000 = (E + 126).toNat * 2 ^ 23 + q := by omega
  rw [hmin, hval]
  have hpar : ((E + 126).toNat * 2 ^ 23 + q) % 2 = q % 2 := by omega
  rw [hpar]
  have key : ∀ j : Nat, |(q:ℚ) - y| ≤ |(j:ℚ) - y| ∧ (|(j:ℚ) - y| = |(q:ℚ) - y| → j ≠ q → q % 2 = 0) := by
    intro j
    have hqy : |(q:ℚ) - y| ≤ 1/2 := by rw [abs_le]; constructor <;> linarith
    rcases Nat.lt_trichotomy j q with h | h | h
    · have hj : (j:ℚ) + 1 ≤ q := by exact_mod_cast h
      have hjy : (j:ℚ) - y ≤ -(1/2) := by linarith
      have hja : 1/2 ≤ |(j:ℚ) - y| := by rw [abs_of_neg (by linarith)]; linarith
      refine ⟨by linarith, ?_⟩
      intro he _
      apply htie
      have : |(q:ℚ) - y| = 1/2 := by linarith
      rcases (abs_eq (by norm_num)).mp this with h' | h'
      · right; linarith
      · left; linarith
    · subst h; exact ⟨le_rfl, fun _ h => absurd rfl h⟩
    · have hj : (q:ℚ) + 1 ≤ j := by exact_mod_cast h
      have hjy : 1/2 ≤ (j:ℚ) - y := by linarith
      have hja : 1/2 ≤ |(j:ℚ) - y| := by rw [abs_of_pos (by linarith)]; linarith
      refine ⟨by linarith, ?_⟩
      intro he _
      apply htie
      have : |(q:ℚ) - y| = 1/2 := by linarith
      rcases (abs_eq (by norm_num)).mp this with h' | h'
      · right; linarith
      · left; linarith
  have scale : ∀ j : ℚ, |j * u - x| = |j - y| * u := by
    intro j; rw [hxy, ← sub_mul, abs_mul, abs_of_pos hupos]
  rw [scale]
  rcases magRat_grid p E with ⟨j, hj⟩ | ⟨hE2, hlt⟩ | h
  · rw [hj, scale]
    obtain ⟨k1, k2⟩ := key j
    refine ⟨mul_le_mul_of_nonneg_right k1 hupos.le, ?_⟩
    intro he hne
    exact k2 (mul_right_cancel₀ hupos.ne' he) (by rintro rfl; exact hne rfl)
  · have hx23 : (2:ℚ) ^ E ≤ x := by rw [← h23, hxy]; exact mul_le_mul_of_nonneg_right (ylow hE2) hupos.le
    have k1 := (key (2 ^ 23)).1
    push_cast at k1
    have hs := scale (2 ^ 23)
    rw [h23] at hs
    have l1 : |(q:ℚ) - y| * u ≤ |(2:ℚ) ^ E - x| := by rw [hs]; exact mul_le_mul_of_nonneg_right k1 hupos.le
    have l2 : |(2:ℚ) ^ E - x| < |magRat p - x| := by
      rw [abs_of_nonpos (by linarith), abs_of_neg (by linarith)]; linarith
    refine ⟨by linarith, fun he _ => by linarith⟩
  · omega

/-- A ratio below the overflow threshold rounds to a finite pattern. -/
theorem roundRatio_finite (num den : Nat) (hd : 0 < den) (h : (num:ℚ) / den < 2 ^ 128 - 2 ^ 103) : roundRatio num den < 0x7F800000 := by
  by_cases hn0 : num = 0
  · subst hn0; have : roundRatio 0 den = 0 := rfl
    rw [this]; norm_num
  have hn : 0 < num := by omega
  obtain ⟨x1, x2⟩ := ratioExp_spec num den hn hd
  have hdq : (0:ℚ) < den := by exact_mod_cast hd
  have hx0 : (0:ℚ) < (num:ℚ) / den := by positivity
  unfold roundRatio
  rw [if_neg hn0]
  simp only
  generalize hE : max (ratioExp num den) (-126) = E at *
  generalize hq : divNearestEven (num * 2 ^ (23 - E).toNat) (den * 2 ^ (E - 23).toNat) = q at *
  have hxx : ((num * 2 ^ (23 - E).toNat : Nat) : ℚ) / ((den * 2 ^ (E - 23).toNat : Nat) : ℚ) = (num:ℚ) / den / 2 ^ (E - 23) := by
    rw [← pow_toNat_div (E - 23), show -(E-23) = 23 - E by ring]
    push_cast; field_simp
  obtain ⟨t1, t2, t3⟩ := divNearestEven_spec (num * 2 ^ (23 - E).toNat) (den * 2 ^ (E - 23).toNat) (by positivity)
  rw [hq] at t1 t2 t3
  generalize num * 2 ^ (23 - E).toNat = n at *
  have hd2 : 0 < den * 2 ^ (E - 23).toNat := by positivity
  generalize den * 2 ^ (E - 23).toNat = d at *
  generalize (num:ℚ) / den = x at *
  have hdq2 : (0:ℚ) < d := by exact_mod_cast hd2
  have t2' : (2:ℚ) * q * d ≤ 2 * n + d := by exact_mod_cast t2
  have hrE : ratioExp num den ≤ 127 := by
    by_contra hc
    have : (2:ℚ) ^ (128:Int) ≤ 2 ^ ratioExp num den := zpow_le_zpow_right₀ (by norm_num) (by omega)
    have e : (2:ℚ) ^ (128:Int) = 2 ^ 128 := zpow_ofNat 2 128
    rw [e] at this
    have hp : (0:ℚ) < 2 ^ 103 := by positivity
    generalize (2:ℚ) ^ 128 = A at *
    generalize (2:ℚ) ^ 103 = B at *
    linarith
  have hE127 : E ≤ 127 := by omega
  have hlt : x < 2 ^ (E + 1) := lt_of_lt_of_le x2 (zpow_le_zpow_right₀ (by norm_num) (by omega))
  have hy : x / 2 ^ (E - 23) < 2 ^ 24 := by
    rw [div_lt_iff₀ (by positivity)]
    calc x < 2 ^ (E + 1) := hlt
      _ = 2 ^ 24 * 2 ^ (E - 23) := by rw [show (2:ℚ)^24 = 2 ^ (24:Int) by norm_num, ← zpow_add₀ (by norm_num)]; congr 1; ring
  have hq2 : (q:ℚ) ≤ x / 2 ^ (E - 23) + 1/2 := by
    rw [← hxx]
    have : (n:ℚ) / d * d = n := by field_simp
    nlinarith
  have q24 : q ≤ 2 ^ 24 := by
    have : (q:ℚ) < ((2 ^ 24 + 1 : Nat) : ℚ) := by push_cast; linarith
    have := Nat.cast_lt.mp this; omega
  by_cases h127 : E = 127
  · subst h127
    have : x / 2 ^ ((127:Int) - 23) < 2 ^ 24 - 1/2 := by
      rw [div_lt_iff₀ (by positivity)]
      have e : ((2:ℚ) ^ 24 - 1 / 2) * 2 ^ ((127:Int) - 23) = 2 ^ 128 - 2 ^ 103 := by
        rw [show (127:Int) - 23 = ((104 : Nat) : Int) by norm_num, zpow_natCast, sub_mul, ← pow_add, show (2:ℚ) ^ 104 = 2 * 2 ^ 103 by rw [← pow_succ']]
        ring
      rw [e]; exact h
    have hq3 : (q:ℚ) < ((2 ^ 24 : Nat) : ℚ) := by push_cast; linarith
    have := Nat.cast_lt.mp hq3
    omega
  · have hk : (E + 126).toNat ≤ 252 := by omega
    refine lt_of_le_of_lt (Nat.min_le_left _ _) ?_
    generalize (E + 126).toNat = k at *
    have : k * 2 ^ 23 ≤ 252 * 2 ^ 23 := Nat.mul_le_mul_right _ hk
    omega

/-- A ratio at or above the overflow threshold rounds to the pattern of infinity. -/
theorem roundRatio_overflow (num den : Nat) (hd : 0 < den) (h : (2:ℚ) ^ 128 - 2 ^ 103 ≤ (num:ℚ) / den) :
    0x7F800000 ≤ roundRatio num den := by
  have hpow : (2:ℚ) ^ 128 = 2 ^ 103 * 2 ^ 25 := by rw [← pow_add]
  have hp : (0:ℚ) < 2 ^ 103 := by positivity
  have hn : 0 < num := by
    rcases Nat.eq_zero_or_pos num with h0 | h0
    · subst h0
      exfalso
      rw [hpow] at h
      generalize (2:ℚ) ^ 103 = B at *
      norm_num at h
      linarith
    · exact h0
  obtain ⟨x1, x2⟩ := ratioExp_spec num den hn hd
  have hdq : (0:ℚ) < den := by exact_mod_cast hd
  unfold roundRatio
  rw [if_neg (by omega)]
  simp only
  refine Nat.le_min.mpr ⟨?_, le_rfl⟩
  generalize hE : max (ratioExp num den) (-126) = E at *
  generalize hq : divNearestEven (num * 2 ^ (23 - E).toNat) (den * 2 ^ (E - 23).toNat) = q at *
  have hxx : ((num * 2 ^ (23 - E).toNat : Nat) : ℚ) / ((den * 2 ^ (E - 23).toNat : Nat) : ℚ) =
      (num:ℚ) / den / 2 ^ (E - 23) := by
    rw [← pow_toNat_div (E - 23), show -(E-23) = 23 - E by ring]
    push_cast; field_simp
  obtain ⟨t1, t2, t3⟩ := divNearestEven_spec (num * 2 ^ (23 - E).toNat) (den * 2 ^ (E - 23).toNat) (by positivity)
  rw [hq] at t1 t2 t3
  generalize num * 2 ^ (23 - E).toNat = n at *
  have hd2 : 0 < den * 2 ^ (E - 23).toNat := by positivity
  generalize den * 2 ^ (E - 23).toNat = d at *
  generalize (num:ℚ) / den = x at *
  have hdq2 : (0:ℚ) < d := by exact_mod_cast hd2
  have t1' : (2:ℚ) * n ≤ (2 * q + 1) * d := by exact_mod_cast t1
  have hyd : (n:ℚ) / d * d = n := by field_simp
  have hq1 : x / 2 ^ (E - 23) ≤ q + 1 / 2 := by
    rw [← hxx]
    nlinarith
  have hbig : (2:ℚ) ^ (127:Int) ≤ x := by
    have e : (2:ℚ) ^ (127:Int) = 2 ^ 103 * 2 ^ 24 := by rw [zpow_ofNat, ← pow_add]
    rw [e]
    rw [hpow] at h
    generalize (2:ℚ) ^ 103 = B at *
    norm_num at h ⊢
    linarith
  have hr127 : 127 ≤ ratioExp num den := by
    by_contra hc
    have : (2:ℚ) ^ (ratioExp num den + 1) ≤ 2 ^ (127:Int) := zpow_le_zpow_right₀ (by norm_num) (by omega)
    linarith
  have hEr : E = ratioExp num den := by omega
  have hk : 253 ≤ (E + 126).toNat := by omega
  have ylow : (2:ℚ) ^ 23 ≤ x / 2 ^ (E - 23) := by
    rw [le_div_iff₀ (by positivity), show (2:ℚ) ^ 23 = 2 ^ (23:Int) by norm_num, ← zpow_add₀ (by norm_num)]
    rw [show (23:Int) + (E - 23) = ratioExp num den by omega]
    exact x1
  have q23 : 2 ^ 23 ≤ q := by
    have : ((2 ^ 23 : Nat) : ℚ) < ((q + 1 : Nat) : ℚ) := by push_cast; linarith
    have := Nat.cast_lt.mp this
    omega
  by_cases h127 : E = 127
  · have hy : (2:ℚ) ^ 24 - 1 / 2 ≤ x / 2 ^ (E - 23) := by
      rw [h127, le_div_iff₀ (by positivity)]
      have e : ((2:ℚ) ^ 24 - 1 / 2) * 2 ^ ((127:Int) - 23) = 2 ^ 128 - 2 ^ 103 := by
        rw [show (127:Int) - 23 = ((104 : Nat) : Int) by norm_num, zpow_natCast, sub_mul, ← pow_add,
          show (2:ℚ) ^ 104 = 2 * 2 ^ 103 by rw [← pow_succ']]
        ring
      rw [e]
      exact h
    have q24 : 2 ^ 24 ≤ q := by
      by_contra hc
      have hlt : (q:ℚ) + 1 ≤ 2 ^ 24 := by exact_mod_cast (by omega : q + 1 ≤ 2 ^ 24)
      have htie : 2 * n = (2 * q + 1) * d := by
        have hy2 : (n:ℚ) / d = q + 1 / 2 := by rw [hxx]; linarith
        have : (2:ℚ) * n = (2 * q + 1) * d := by rw [← hyd, hy2]; ring
        exact_mod_cast this
      have heven := t3 (.inl htie)
      have hq' : (2:ℚ) ^ 24 ≤ q + 1 := by linarith
      have : 2 ^ 24 ≤ q + 1 := by exact_mod_cast hq'
      omega
    have : 253 * 2 ^ 23 ≤ (E + 126).toNat * 2 ^ 23 := Nat.mul_le_mul_right _ hk
    omega
  · have : 254 * 2 ^ 23 ≤ (E + 126).toNat * 2 ^ 23 := Nat.mul_le_mul_right _ (by omega)
    omega

/-- A rounded ratio is at most the pattern of infinity. -/
theorem roundRatio_le (num den : Nat) : roundRatio num den ≤ 0x7F800000 := by
  unfold roundRatio
  split
  · omega
  · exact Nat.min_le_right _ _

/-- The sign and the lower 31 bits of a rounded value. -/
theorem f32Round_fields (neg : Bool) (num den : Nat) (k : Int) :
    f32Neg (f32Round neg num den k) = neg ∧
    (f32Round neg num den k).toNat % 2 ^ 31 = roundRatio (num * 2 ^ k.toNat) (den * 2 ^ (-k).toNat) := by
  have hle := roundRatio_le (num * 2 ^ k.toNat) (den * 2 ^ (-k).toNat)
  unfold f32Round
  generalize roundRatio (num * 2 ^ k.toNat) (den * 2 ^ (-k).toNat) = r at *
  have ht : (BitVec.ofBool neg ++ BitVec.ofNat 31 r : BitVec 32).toNat = neg.toNat * 2 ^ 31 + r := by
    have hr : r < 2 ^ 31 := by omega
    rw [BitVec.toNat_append]
    simp only [BitVec.toNat_ofNat, Nat.mod_eq_of_lt hr, BitVec.toNat_ofBool]
    rw [← Nat.shiftLeft_add_eq_or_of_lt hr, Nat.shiftLeft_eq]
  refine ⟨?_, ?_⟩
  · simp only [f32Neg, BitVec.getLsbD_append]; simp
  · rw [ht]; cases neg <;> simp <;> omega

/-- A ratio with a power of two moved into it. -/
theorem scaled_ratio (num den : Nat) (k : Int) (hd : 0 < den) :
   ((num * 2 ^ k.toNat : Nat) : ℚ) / ((den * 2 ^ (-k).toNat : Nat) : ℚ) = (num : ℚ) / den * 2 ^ k := by
  rw [← pow_toNat_div k]; push_cast; field_simp

/-- A pattern is finite when its lower 31 bits are below infinity's. -/
theorem f32Finite_iff (w : F32) : f32Finite w = true ↔ w.toNat % 2 ^ 31 < 0x7F800000 := by
  have : f32Exp w < 256 := Nat.mod_lt _ (by norm_num)
  have e1 : w.toNat % 2 ^ 31 / 2 ^ 23 = f32Exp w := by simp only [f32Exp]; omega
  simp only [f32Finite, bne_iff_ne]
  omega

/-- `f32Round` gives the nearest pattern, ties to even. -/
theorem f32Round_nearest (neg : Bool) (num den : Nat) (k : Int) (hd : 0 < den) (x : ℚ)
   (hx : x = (if neg then -1 else 1) * ((num : ℚ) / den * 2 ^ k))
   (hf : f32Finite (f32Round neg num den k) = true) : NearestEven (f32Round neg num den k) x := by
  obtain ⟨h1, h2⟩ := f32Round_fields neg num den k
  obtain ⟨r1, r2⟩ := f32Rat_eq _ hf
  rw [h1, h2] at r1
  rw [h2] at r2
  have hd' : 0 < den * 2 ^ (-k).toNat := by positivity
  have hnear := roundRatio_nearest (num * 2 ^ k.toNat) (den * 2 ^ (-k).toNat) hd' r2
  rw [scaled_ratio num den k hd] at hnear
  have hbit : (f32Round neg num den k).getLsbD 0 = decide (roundRatio (num * 2 ^ k.toNat) (den * 2 ^ (-k).toNat) % 2 = 1) := by
    rw [← h2, BitVec.getLsbD, Nat.testBit_zero]
    congr 1
    apply propext
    omega
  unfold NearestEven
  rw [hbit]
  generalize roundRatio (num * 2 ^ k.toNat) (den * 2 ^ (-k).toNat) = r at *
  have hy0 : 0 ≤ (num : ℚ) / den * 2 ^ k := by positivity
  generalize (num : ℚ) / den * 2 ^ k = y at *
  intro v hv
  obtain ⟨v1, _⟩ := f32Rat_eq v hv
  generalize v.toNat % 2 ^ 31 = p at *
  have hp0 := magRat_nonneg p
  have hr0 := magRat_nonneg r
  obtain ⟨k1, k2⟩ := hnear p
  obtain ⟨z1, z2⟩ := hnear 0
  have hz : magRat 0 = 0 := by simp [magRat]
  rw [hz] at z1 z2
  have zabs : |(0:ℚ) - y| = y := by rw [zero_sub, abs_neg, abs_of_nonneg hy0]
  rw [zabs] at z1 z2
  rw [r1, v1, hx]
  by_cases hs : f32Neg v = neg
  · rw [hs]
    have hsg : ∀ a : ℚ, |(if neg = true then (-1:ℚ) else 1) * a - (if neg = true then (-1:ℚ) else 1) * y| = |a - y| := by
      intro a; rw [← mul_sub, abs_mul]; cases neg <;> simp
    rw [hsg, hsg]
    refine ⟨k1, fun he hne => ?_⟩
    have := k2 he (by rintro h; apply hne; rw [h])
    simp; omega
  · have hsg : ∀ a : ℚ, |(if neg = true then (-1:ℚ) else 1) * a - (if neg = true then (-1:ℚ) else 1) * y| = |a - y| := by
      intro a; rw [← mul_sub, abs_mul]; cases neg <;> simp
    have hop : |(if f32Neg v = true then (-1:ℚ) else 1) * magRat p - (if neg = true then (-1:ℚ) else 1) * y| = magRat p + y := by
      cases neg <;> cases hvn : f32Neg v <;> simp only [hvn, not_true_eq_false] at hs ⊢ <;> simp
      · rw [abs_of_nonpos (by linarith)]; ring
      · linarith
    rw [hsg, hop]
    refine ⟨by linarith, fun he hne => ?_⟩
    have hp : magRat p = 0 := by linarith
    have := z2 (by linarith) (by
      intro h0; apply hne; rw [hp, ← h0]; simp)
    simp; omega

/-- `f32Round` is finite exactly below the overflow threshold. -/
theorem f32Round_finite (neg : Bool) (num den : Nat) (k : Int) (hd : 0 < den) :
    f32Finite (f32Round neg num den k) = true ↔ (num : ℚ) / den * 2 ^ k < 2 ^ 128 - 2 ^ 103 := by
  have hd' : 0 < den * 2 ^ (-k).toNat := by positivity
  rw [f32Finite_iff, (f32Round_fields neg num den k).2, ← scaled_ratio num den k hd]
  constructor
  · intro h
    by_contra hc
    have := roundRatio_overflow _ _ hd' (not_lt.mp hc)
    omega
  · exact roundRatio_finite _ _ hd'

/-- A finite pattern unpacked, with its value. -/
theorem f32Unpack_finite (w : F32) (h : f32Finite w = true) : ∃ m k, f32Unpack w = .fin (f32Neg w) m k ∧ f32Rat w = (if f32Neg w then -1 else 1) * ((m : ℚ) * 2 ^ k) := by
  have he : f32Exp w ≠ 255 := by simpa [f32Finite] using h
  by_cases h0 : f32Exp w = 0
  · refine ⟨_, _, by unfold f32Unpack; rw [if_neg he, if_pos h0], ?_⟩
    simp only [f32Rat, f32Unpack, h0, if_true]; simp
  · refine ⟨_, _, by unfold f32Unpack; rw [if_neg he, if_neg h0], ?_⟩
    simp only [f32Rat, f32Unpack, he, h0, if_false]; rw [mul_assoc]

/-- The exponent field as a slice. -/
theorem f32Exp_eq (w : F32) : f32Exp w = (w.extractLsb' 23 8).toNat := by
  simp [f32Exp, BitVec.extractLsb'_toNat, Nat.shiftRight_eq_div_pow]

/-- The fraction field as a slice. -/
theorem f32Frac_eq (w : F32) : f32Frac w = (w.extractLsb' 0 23).toNat := by
  simp [f32Frac, BitVec.extractLsb'_toNat]

/-- A NaN unpacks as one. -/
theorem f32Unpack_nan {w : F32} (h : IsNaN w) : f32Unpack w = .nan := by simp [f32Unpack, h.1, h.2]

/-- An infinity unpacks as one. -/
theorem f32Unpack_inf (s : Bool) : f32Unpack (f32Inf s) = .inf s := by cases s <;> decide

/-- The pattern the model writes for a NaN is one. -/
theorem f32NaN_isNaN : IsNaN f32NaN := by decide

/-- A finite value is zero exactly when its significand is. -/
theorem f32Rat_eq_zero {w : F32} {neg : Bool} {m : Nat} {k : Int} (h : f32Unpack w = .fin neg m k) :
    f32Rat w = 0 ↔ m = 0 := by
  have h2 : (2 : ℚ) ^ k ≠ 0 := by positivity
  have h1 : (if neg = true then (-1 : ℚ) else 1) ≠ 0 := by cases neg <;> simp
  simp only [f32Rat, h, mul_eq_zero, h1, h2, false_or, or_false, Nat.cast_eq_zero]

/-- A rounding that is not finite is the infinity of its sign. -/
theorem f32Round_overflow {neg : Bool} {num den : Nat} {k : Int} (h : f32Finite (f32Round neg num den k) = false) :
    f32Round neg num den k = f32Inf neg := by
  have hle := roundRatio_le (num * 2 ^ k.toNat) (den * 2 ^ (-k).toNat)
  have hge : ¬ (f32Round neg num den k).toNat % 2 ^ 31 < 0x7F800000 := by
    rw [← f32Finite_iff, h]
    decide
  rw [(f32Round_fields neg num den k).2] at hge
  have : roundRatio (num * 2 ^ k.toNat) (den * 2 ^ (-k).toNat) = 0x7F800000 := by omega
  simp only [f32Round, this]
  rfl

end Sys2Proof.Machine
end

