-- ==== Sys2Proof/Laws/State.lean ====
section
/-! SUPPORT. One lemma per field per update of State, so that no later proof unfolds a record update. -/

namespace Sys2Proof.Machine

/-! `MemWrite` -/

@[simp] theorem memWrite_cq (s : State) (sp : Space) (i : Nat) (v : Word) : (memWrite s sp i v).cq = s.cq := rfl
@[simp] theorem memWrite_ctrl (s : State) (sp : Space) (i : Nat) (v : Word) : (memWrite s sp i v).ctrl = s.ctrl := rfl
@[simp] theorem memWrite_err (s : State) (sp : Space) (i : Nat) (v : Word) : (memWrite s sp i v).err = s.err := rfl
@[simp] theorem memWrite_errCode (s : State) (sp : Space) (i : Nat) (v : Word) : (memWrite s sp i v).errCode = s.errCode := rfl
@[simp] theorem memWrite_errRegion (s : State) (sp : Space) (i : Nat) (v : Word) : (memWrite s sp i v).errRegion = s.errRegion := rfl
@[simp] theorem memWrite_errAux (s : State) (sp : Space) (i : Nat) (v : Word) : (memWrite s sp i v).errAux = s.errAux := rfl
@[simp] theorem memWrite_surfW (s : State) (sp : Space) (i : Nat) (v : Word) : (memWrite s sp i v).surfW = s.surfW := rfl
@[simp] theorem memWrite_surfH (s : State) (sp : Space) (i : Nat) (v : Word) : (memWrite s sp i v).surfH = s.surfH := rfl
@[simp] theorem memWrite_comps (s : State) (sp : Space) (i : Nat) (v : Word) : (memWrite s sp i v).comps = s.comps := rfl
@[simp] theorem memWrite_fenceCompleted (s : State) (sp : Space) (i : Nat) (v : Word) : (memWrite s sp i v).fenceCompleted = s.fenceCompleted := rfl
@[simp] theorem memWrite_fenceEvent (s : State) (sp : Space) (i : Nat) (v : Word) : (memWrite s sp i v).fenceEvent = s.fenceEvent := rfl
@[simp] theorem memWrite_cmdArg (s : State) (sp : Space) (i : Nat) (v : Word) : (memWrite s sp i v).cmdArg = s.cmdArg := rfl
@[simp] theorem memWrite_prevDc (s : State) (sp : Space) (i : Nat) (v : Word) : (memWrite s sp i v).prevDc = s.prevDc := rfl
@[simp] theorem memWrite_mem (s : State) (sp : Space) (i : Nat) (v : Word) : (memWrite s sp i v).mem = writeWord s.mem (spaceAddr sp i) v := rfl
@[simp] theorem memWrite_surface (s : State) (sp : Space) (i : Nat) (v : Word) : (memWrite s sp i v).surface = s.surface := rfl
@[simp] theorem memWrite_params (s : State) (sp : Space) (i : Nat) (v : Word) : (memWrite s sp i v).params = s.params := rfl
@[simp] theorem memWrite_inputs (s : State) (sp : Space) (i : Nat) (v : Word) : (memWrite s sp i v).inputs = s.inputs := rfl
@[simp] theorem memWrite_reads (s : State) (sp : Space) (i : Nat) (v : Word) : (memWrite s sp i v).reads = s.reads := rfl
@[simp] theorem memWrite_draws (s : State) (sp : Space) (i : Nat) (v : Word) : (memWrite s sp i v).draws = s.draws := rfl

/-! `pop(cq)` -/

@[simp] theorem popCommand_cq (s : State) : (popCommand s).cq = s.cq.tail := rfl
@[simp] theorem popCommand_ctrl (s : State) : (popCommand s).ctrl = s.ctrl := rfl
@[simp] theorem popCommand_err (s : State) : (popCommand s).err = s.err := rfl
@[simp] theorem popCommand_errCode (s : State) : (popCommand s).errCode = s.errCode := rfl
@[simp] theorem popCommand_errRegion (s : State) : (popCommand s).errRegion = s.errRegion := rfl
@[simp] theorem popCommand_errAux (s : State) : (popCommand s).errAux = s.errAux := rfl
@[simp] theorem popCommand_surfW (s : State) : (popCommand s).surfW = s.surfW := rfl
@[simp] theorem popCommand_surfH (s : State) : (popCommand s).surfH = s.surfH := rfl
@[simp] theorem popCommand_comps (s : State) : (popCommand s).comps = s.comps := rfl
@[simp] theorem popCommand_fenceCompleted (s : State) : (popCommand s).fenceCompleted = s.fenceCompleted := rfl
@[simp] theorem popCommand_fenceEvent (s : State) : (popCommand s).fenceEvent = s.fenceEvent := rfl
@[simp] theorem popCommand_cmdArg (s : State) : (popCommand s).cmdArg = s.cmdArg := rfl
@[simp] theorem popCommand_prevDc (s : State) : (popCommand s).prevDc = s.prevDc := rfl
@[simp] theorem popCommand_mem (s : State) : (popCommand s).mem = s.mem := rfl
@[simp] theorem popCommand_surface (s : State) : (popCommand s).surface = s.surface := rfl
@[simp] theorem popCommand_params (s : State) : (popCommand s).params = s.params := rfl
@[simp] theorem popCommand_inputs (s : State) : (popCommand s).inputs = s.inputs := rfl
@[simp] theorem popCommand_reads (s : State) : (popCommand s).reads = s.reads := rfl
@[simp] theorem popCommand_draws (s : State) : (popCommand s).draws = s.draws := rfl

/-! The predictor update -/

@[simp] theorem setPrevDc_cq (s : State) (c : Comp) (dc : Word) : (setPrevDc s c dc).cq = s.cq := rfl
@[simp] theorem setPrevDc_ctrl (s : State) (c : Comp) (dc : Word) : (setPrevDc s c dc).ctrl = s.ctrl := rfl
@[simp] theorem setPrevDc_err (s : State) (c : Comp) (dc : Word) : (setPrevDc s c dc).err = s.err := rfl
@[simp] theorem setPrevDc_errCode (s : State) (c : Comp) (dc : Word) : (setPrevDc s c dc).errCode = s.errCode := rfl
@[simp] theorem setPrevDc_errRegion (s : State) (c : Comp) (dc : Word) : (setPrevDc s c dc).errRegion = s.errRegion := rfl
@[simp] theorem setPrevDc_errAux (s : State) (c : Comp) (dc : Word) : (setPrevDc s c dc).errAux = s.errAux := rfl
@[simp] theorem setPrevDc_surfW (s : State) (c : Comp) (dc : Word) : (setPrevDc s c dc).surfW = s.surfW := rfl
@[simp] theorem setPrevDc_surfH (s : State) (c : Comp) (dc : Word) : (setPrevDc s c dc).surfH = s.surfH := rfl
@[simp] theorem setPrevDc_comps (s : State) (c : Comp) (dc : Word) : (setPrevDc s c dc).comps = s.comps := rfl
@[simp] theorem setPrevDc_fenceCompleted (s : State) (c : Comp) (dc : Word) : (setPrevDc s c dc).fenceCompleted = s.fenceCompleted := rfl
@[simp] theorem setPrevDc_fenceEvent (s : State) (c : Comp) (dc : Word) : (setPrevDc s c dc).fenceEvent = s.fenceEvent := rfl
@[simp] theorem setPrevDc_cmdArg (s : State) (c : Comp) (dc : Word) : (setPrevDc s c dc).cmdArg = s.cmdArg := rfl
@[simp] theorem setPrevDc_prevDc (s : State) (c : Comp) (dc : Word) : (setPrevDc s c dc).prevDc = s.prevDc.set c dc := rfl
@[simp] theorem setPrevDc_mem (s : State) (c : Comp) (dc : Word) : (setPrevDc s c dc).mem = s.mem := rfl
@[simp] theorem setPrevDc_surface (s : State) (c : Comp) (dc : Word) : (setPrevDc s c dc).surface = s.surface := rfl
@[simp] theorem setPrevDc_params (s : State) (c : Comp) (dc : Word) : (setPrevDc s c dc).params = s.params := rfl
@[simp] theorem setPrevDc_inputs (s : State) (c : Comp) (dc : Word) : (setPrevDc s c dc).inputs = s.inputs := rfl
@[simp] theorem setPrevDc_reads (s : State) (c : Comp) (dc : Word) : (setPrevDc s c dc).reads = s.reads := rfl
@[simp] theorem setPrevDc_draws (s : State) (c : Comp) (dc : Word) : (setPrevDc s c dc).draws = s.draws := rfl

/-! The configuration of one component -/

@[simp] theorem setComp_cq (s : State) (c : Comp) (r : CompRegs) : (setComp s c r).cq = s.cq := rfl
@[simp] theorem setComp_ctrl (s : State) (c : Comp) (r : CompRegs) : (setComp s c r).ctrl = s.ctrl := rfl
@[simp] theorem setComp_err (s : State) (c : Comp) (r : CompRegs) : (setComp s c r).err = s.err := rfl
@[simp] theorem setComp_errCode (s : State) (c : Comp) (r : CompRegs) : (setComp s c r).errCode = s.errCode := rfl
@[simp] theorem setComp_errRegion (s : State) (c : Comp) (r : CompRegs) : (setComp s c r).errRegion = s.errRegion := rfl
@[simp] theorem setComp_errAux (s : State) (c : Comp) (r : CompRegs) : (setComp s c r).errAux = s.errAux := rfl
@[simp] theorem setComp_surfW (s : State) (c : Comp) (r : CompRegs) : (setComp s c r).surfW = s.surfW := rfl
@[simp] theorem setComp_surfH (s : State) (c : Comp) (r : CompRegs) : (setComp s c r).surfH = s.surfH := rfl
@[simp] theorem setComp_comps (s : State) (c : Comp) (r : CompRegs) : (setComp s c r).comps = s.comps.set c r := rfl
@[simp] theorem setComp_fenceCompleted (s : State) (c : Comp) (r : CompRegs) : (setComp s c r).fenceCompleted = s.fenceCompleted := rfl
@[simp] theorem setComp_fenceEvent (s : State) (c : Comp) (r : CompRegs) : (setComp s c r).fenceEvent = s.fenceEvent := rfl
@[simp] theorem setComp_cmdArg (s : State) (c : Comp) (r : CompRegs) : (setComp s c r).cmdArg = s.cmdArg := rfl
@[simp] theorem setComp_prevDc (s : State) (c : Comp) (r : CompRegs) : (setComp s c r).prevDc = s.prevDc := rfl
@[simp] theorem setComp_mem (s : State) (c : Comp) (r : CompRegs) : (setComp s c r).mem = s.mem := rfl
@[simp] theorem setComp_surface (s : State) (c : Comp) (r : CompRegs) : (setComp s c r).surface = s.surface := rfl
@[simp] theorem setComp_params (s : State) (c : Comp) (r : CompRegs) : (setComp s c r).params = s.params := rfl
@[simp] theorem setComp_inputs (s : State) (c : Comp) (r : CompRegs) : (setComp s c r).inputs = s.inputs := rfl
@[simp] theorem setComp_reads (s : State) (c : Comp) (r : CompRegs) : (setComp s c r).reads = s.reads := rfl
@[simp] theorem setComp_draws (s : State) (c : Comp) (r : CompRegs) : (setComp s c r).draws = s.draws := rfl

/-! Acknowledging errors -/

@[simp] theorem ackErrors_cq (w : Word) (s : State) : (ackErrors w s).cq = s.cq := rfl
@[simp] theorem ackErrors_ctrl (w : Word) (s : State) : (ackErrors w s).ctrl = s.ctrl := rfl
@[simp] theorem ackErrors_err (w : Word) (s : State) : (ackErrors w s).err = s.err &&& ~~~(w.setWidth 13) := rfl
@[simp] theorem ackErrors_errCode (w : Word) (s : State) : (ackErrors w s).errCode = s.errCode := rfl
@[simp] theorem ackErrors_errRegion (w : Word) (s : State) : (ackErrors w s).errRegion = s.errRegion := rfl
@[simp] theorem ackErrors_errAux (w : Word) (s : State) : (ackErrors w s).errAux = s.errAux := rfl
@[simp] theorem ackErrors_surfW (w : Word) (s : State) : (ackErrors w s).surfW = s.surfW := rfl
@[simp] theorem ackErrors_surfH (w : Word) (s : State) : (ackErrors w s).surfH = s.surfH := rfl
@[simp] theorem ackErrors_comps (w : Word) (s : State) : (ackErrors w s).comps = s.comps := rfl
@[simp] theorem ackErrors_fenceCompleted (w : Word) (s : State) : (ackErrors w s).fenceCompleted = s.fenceCompleted := rfl
@[simp] theorem ackErrors_fenceEvent (w : Word) (s : State) : (ackErrors w s).fenceEvent = s.fenceEvent := rfl
@[simp] theorem ackErrors_cmdArg (w : Word) (s : State) : (ackErrors w s).cmdArg = s.cmdArg := rfl
@[simp] theorem ackErrors_prevDc (w : Word) (s : State) : (ackErrors w s).prevDc = s.prevDc := rfl
@[simp] theorem ackErrors_mem (w : Word) (s : State) : (ackErrors w s).mem = s.mem := rfl
@[simp] theorem ackErrors_surface (w : Word) (s : State) : (ackErrors w s).surface = s.surface := rfl
@[simp] theorem ackErrors_params (w : Word) (s : State) : (ackErrors w s).params = s.params := rfl
@[simp] theorem ackErrors_inputs (w : Word) (s : State) : (ackErrors w s).inputs = s.inputs := rfl
@[simp] theorem ackErrors_reads (w : Word) (s : State) : (ackErrors w s).reads = s.reads := rfl
@[simp] theorem ackErrors_draws (w : Word) (s : State) : (ackErrors w s).draws = s.draws := rfl

/-! A free draw -/

@[simp] theorem drawWord_cq (s : State) : ((drawWord s).2).cq = s.cq := rfl
@[simp] theorem drawWord_ctrl (s : State) : ((drawWord s).2).ctrl = s.ctrl := rfl
@[simp] theorem drawWord_err (s : State) : ((drawWord s).2).err = s.err := rfl
@[simp] theorem drawWord_errCode (s : State) : ((drawWord s).2).errCode = s.errCode := rfl
@[simp] theorem drawWord_errRegion (s : State) : ((drawWord s).2).errRegion = s.errRegion := rfl
@[simp] theorem drawWord_errAux (s : State) : ((drawWord s).2).errAux = s.errAux := rfl
@[simp] theorem drawWord_surfW (s : State) : ((drawWord s).2).surfW = s.surfW := rfl
@[simp] theorem drawWord_surfH (s : State) : ((drawWord s).2).surfH = s.surfH := rfl
@[simp] theorem drawWord_comps (s : State) : ((drawWord s).2).comps = s.comps := rfl
@[simp] theorem drawWord_fenceCompleted (s : State) : ((drawWord s).2).fenceCompleted = s.fenceCompleted := rfl
@[simp] theorem drawWord_fenceEvent (s : State) : ((drawWord s).2).fenceEvent = s.fenceEvent := rfl
@[simp] theorem drawWord_cmdArg (s : State) : ((drawWord s).2).cmdArg = s.cmdArg := rfl
@[simp] theorem drawWord_prevDc (s : State) : ((drawWord s).2).prevDc = s.prevDc := rfl
@[simp] theorem drawWord_mem (s : State) : ((drawWord s).2).mem = s.mem := rfl
@[simp] theorem drawWord_surface (s : State) : ((drawWord s).2).surface = s.surface := rfl
@[simp] theorem drawWord_params (s : State) : ((drawWord s).2).params = s.params := rfl
@[simp] theorem drawWord_inputs (s : State) : ((drawWord s).2).inputs = s.inputs := rfl
@[simp] theorem drawWord_reads (s : State) : ((drawWord s).2).reads = s.reads := rfl
@[simp] theorem drawWord_draws (s : State) : ((drawWord s).2).draws = s.draws + 1 := rfl

/-! The reset event -/

@[simp] theorem resetEvent_cq (s : State) : (resetEvent s).cq = State.reset.cq := rfl
@[simp] theorem resetEvent_ctrl (s : State) : (resetEvent s).ctrl = State.reset.ctrl := rfl
@[simp] theorem resetEvent_err (s : State) : (resetEvent s).err = State.reset.err := rfl
@[simp] theorem resetEvent_errCode (s : State) : (resetEvent s).errCode = State.reset.errCode := rfl
@[simp] theorem resetEvent_errRegion (s : State) : (resetEvent s).errRegion = State.reset.errRegion := rfl
@[simp] theorem resetEvent_errAux (s : State) : (resetEvent s).errAux = State.reset.errAux := rfl
@[simp] theorem resetEvent_surfW (s : State) : (resetEvent s).surfW = State.reset.surfW := rfl
@[simp] theorem resetEvent_surfH (s : State) : (resetEvent s).surfH = State.reset.surfH := rfl
@[simp] theorem resetEvent_comps (s : State) : (resetEvent s).comps = State.reset.comps := rfl
@[simp] theorem resetEvent_fenceCompleted (s : State) : (resetEvent s).fenceCompleted = State.reset.fenceCompleted := rfl
@[simp] theorem resetEvent_fenceEvent (s : State) : (resetEvent s).fenceEvent = State.reset.fenceEvent := rfl
@[simp] theorem resetEvent_cmdArg (s : State) : (resetEvent s).cmdArg = State.reset.cmdArg := rfl
@[simp] theorem resetEvent_prevDc (s : State) : (resetEvent s).prevDc = State.reset.prevDc := rfl
@[simp] theorem resetEvent_mem (s : State) : (resetEvent s).mem = State.reset.mem := rfl
@[simp] theorem resetEvent_surface (s : State) : (resetEvent s).surface = s.surface := rfl
@[simp] theorem resetEvent_params (s : State) : (resetEvent s).params = s.params := rfl
@[simp] theorem resetEvent_inputs (s : State) : (resetEvent s).inputs = s.inputs := rfl
@[simp] theorem resetEvent_reads (s : State) : (resetEvent s).reads = s.reads := rfl
@[simp] theorem resetEvent_draws (s : State) : (resetEvent s).draws = s.draws := rfl

/-! Recording an error -/

@[simp] theorem raise_cq (e : ErrKind) (r a : Word) (s : State) : (raise e r a s).cq = s.cq := by unfold raise; split <;> rfl
@[simp] theorem raise_ctrl (e : ErrKind) (r a : Word) (s : State) : (raise e r a s).ctrl = s.ctrl := by unfold raise; split <;> rfl
@[simp] theorem raise_err (e : ErrKind) (r a : Word) (s : State) : (raise e r a s).err = s.err ||| errMask e := by unfold raise; split <;> rfl
@[simp] theorem raise_errCode (e : ErrKind) (r a : Word) (s : State) : (raise e r a s).errCode = if s.err = 0#13 then errCodeOf e else s.errCode := by unfold raise; split <;> rfl
@[simp] theorem raise_errRegion (e : ErrKind) (r a : Word) (s : State) : (raise e r a s).errRegion = if s.err = 0#13 then r else s.errRegion := by unfold raise; split <;> rfl
@[simp] theorem raise_errAux (e : ErrKind) (r a : Word) (s : State) : (raise e r a s).errAux = if s.err = 0#13 then a else s.errAux := by unfold raise; split <;> rfl
@[simp] theorem raise_surfW (e : ErrKind) (r a : Word) (s : State) : (raise e r a s).surfW = s.surfW := by unfold raise; split <;> rfl
@[simp] theorem raise_surfH (e : ErrKind) (r a : Word) (s : State) : (raise e r a s).surfH = s.surfH := by unfold raise; split <;> rfl
@[simp] theorem raise_comps (e : ErrKind) (r a : Word) (s : State) : (raise e r a s).comps = s.comps := by unfold raise; split <;> rfl
@[simp] theorem raise_fenceCompleted (e : ErrKind) (r a : Word) (s : State) : (raise e r a s).fenceCompleted = s.fenceCompleted := by unfold raise; split <;> rfl
@[simp] theorem raise_fenceEvent (e : ErrKind) (r a : Word) (s : State) : (raise e r a s).fenceEvent = s.fenceEvent := by unfold raise; split <;> rfl
@[simp] theorem raise_cmdArg (e : ErrKind) (r a : Word) (s : State) : (raise e r a s).cmdArg = s.cmdArg := by unfold raise; split <;> rfl
@[simp] theorem raise_prevDc (e : ErrKind) (r a : Word) (s : State) : (raise e r a s).prevDc = s.prevDc := by unfold raise; split <;> rfl
@[simp] theorem raise_mem (e : ErrKind) (r a : Word) (s : State) : (raise e r a s).mem = s.mem := by unfold raise; split <;> rfl
@[simp] theorem raise_surface (e : ErrKind) (r a : Word) (s : State) : (raise e r a s).surface = s.surface := by unfold raise; split <;> rfl
@[simp] theorem raise_params (e : ErrKind) (r a : Word) (s : State) : (raise e r a s).params = s.params := by unfold raise; split <;> rfl
@[simp] theorem raise_inputs (e : ErrKind) (r a : Word) (s : State) : (raise e r a s).inputs = s.inputs := by unfold raise; split <;> rfl
@[simp] theorem raise_reads (e : ErrKind) (r a : Word) (s : State) : (raise e r a s).reads = s.reads := by unfold raise; split <;> rfl
@[simp] theorem raise_draws (e : ErrKind) (r a : Word) (s : State) : (raise e r a s).draws = s.draws := by unfold raise; split <;> rfl

/-- Recording an error changes the error registers only. -/
theorem raise_frame (e : ErrKind) (r a : Word) (s : State) :
    raise e r a s =
      { s with
        err := (raise e r a s).err
        errCode := (raise e r a s).errCode
        errRegion := (raise e r a s).errRegion
        errAux := (raise e r a s).errAux } := by
  unfold raise
  split <;> rfl

/-- Recording an error clears no flag. -/
theorem raise_err_keeps (e : ErrKind) (r a : Word) (s : State) : s.err &&& (raise e r a s).err = s.err := by
  rw [raise_err]
  ext i
  simp only [BitVec.getElem_and, BitVec.getElem_or]
  cases s.err[i] <;> simp

/-! One component's value -/

@[simp] theorem PerComp_get_set_same {α : Type} (p : PerComp α) (c : Comp) (v : α) : (p.set c v).get c = v := by
  cases c <;> rfl

theorem PerComp_get_set_ne {α : Type} (p : PerComp α) {c d : Comp} (v : α) (h : d ≠ c) :
    (p.set c v).get d = p.get d := by
  cases c <;> cases d <;> first | rfl | exact absurd rfl h

end Sys2Proof.Machine
end

