-- ==== Sys2Proof/Laws/Memory.lean ====
section
/-! SUPPORT. The byte memory: reading after writing, the canonical form, and the words built from bytes. -/

namespace Sys2Proof.Machine

/-- A byte read after a write: the value written at its address, the old one elsewhere. -/
theorem readByte_writeByte (m : Memory) (a b : Nat) (v : Byte) :
    readByte (writeByte m a v) b = if b = a then some v else readByte m b := by
  induction m with
  | nil =>
    by_cases h : b = a
    · simp [writeByte, readByte, h]
    · have h' : a ≠ b := fun e => h e.symm
      simp [writeByte, readByte, h, h']
  | cons cell rest ih =>
    obtain ⟨c, w⟩ := cell
    simp only [writeByte]
    split
    · by_cases h : b = a
      · simp [readByte, h]
      · have h' : a ≠ b := fun e => h e.symm
        simp [readByte, h, h']
    · split
      · rename_i h; subst h
        by_cases hb : b = a
        · simp [readByte, hb]
        · have hb' : a ≠ b := fun h => hb h.symm
          simp [readByte, hb, hb']
      · rename_i hlt hne
        by_cases hc : c = b
        · have : b ≠ a := fun h => hne (h ▸ hc.symm)
          simp [readByte, hc, this]
        · simp [readByte, hc, ih]

/-- A write keeps the addresses strictly rising above any bound below the address written. -/
theorem risingAbove_writeByte (m : Memory) (a : Nat) (v : Byte) (lo : Option Nat)
    (h : risingAbove lo m = true) (hlo : ∀ x, lo = some x → x < a) :
    risingAbove lo (writeByte m a v) = true := by
  induction m generalizing lo with
  | nil =>
    cases lo with
    | none => simp [writeByte, risingAbove]
    | some x => simp [writeByte, risingAbove, hlo x rfl]
  | cons cell rest ih =>
    obtain ⟨c, w⟩ := cell
    have hrest : risingAbove (some c) rest = true := by
      cases lo with
      | none => simpa [risingAbove] using h
      | some x => exact (by simpa [risingAbove] using h : x < c ∧ risingAbove (some c) rest = true).2
    simp only [writeByte]
    split
    · rename_i hac
      cases lo with
      | none => simp [risingAbove, hac, hrest]
      | some x => simp [risingAbove, hac, hrest, hlo x rfl]
    · split
      · rename_i hac; subst hac
        cases lo with
        | none => simp [risingAbove, hrest]
        | some x => simp [risingAbove, hrest, hlo x rfl]
      · rename_i hac hne
        have hca : c < a := by omega
        have step := ih (some c) hrest (by intro x hx; cases hx; exact hca)
        cases lo with
        | none => simpa [risingAbove] using step
        | some x =>
          have hx : x < c := (by simpa [risingAbove] using h : x < c ∧ risingAbove (some c) rest = true).1
          simp [risingAbove, hx, step]

/-- A write keeps the canonical form. -/
theorem writeByte_wf (m : Memory) (a : Nat) (v : Byte) (h : Memory.wf m = true) :
    Memory.wf (writeByte m a v) = true :=
  risingAbove_writeByte m a v none h (by simp)

/-- A word write keeps the canonical form. -/
theorem writeWord_wf (m : Memory) (a : Nat) (w : Word) (h : Memory.wf m = true) :
    Memory.wf (writeWord m a w) = true := by
  unfold writeWord
  exact writeByte_wf _ _ _ (writeByte_wf _ _ _ (writeByte_wf _ _ _ (writeByte_wf _ _ _ h)))

/-- A byte read after a word write: the byte of the word inside its four addresses, the old one elsewhere. -/
theorem readByte_writeWord (m : Memory) (a b : Nat) (w : Word) :
    readByte (writeWord m a w) b =
      if a ≤ b ∧ b < a + 4 then some (byteOfWord w (b - a)) else readByte m b := by
  simp only [writeWord, readByte_writeByte]
  by_cases h3 : b = a + 3
  · subst h3; simp
  by_cases h2 : b = a + 2
  · subst h2; simp
  by_cases h1 : b = a + 1
  · subst h1; simp
  by_cases h0 : b = a
  · subst h0; simp
  rw [if_neg h3, if_neg h2, if_neg h1, if_neg h0, if_neg (by omega)]

/-- The four bytes of a word put together are the word. -/
theorem wordOfBytes_byteOfWord (w : Word) :
    wordOfBytes (byteOfWord w 0) (byteOfWord w 1) (byteOfWord w 2) (byteOfWord w 3) = w := by
  apply BitVec.eq_of_getLsbD_eq
  intro i hi
  simp only [wordOfBytes, byteOfWord, BitVec.getLsbD_append, BitVec.getLsbD_extractLsb']
  by_cases h0 : i < 8
  · simp [h0]
  by_cases h1 : i < 16
  · have : i - 8 < 8 := by omega
    have e : 8 + (i - 8) = i := by omega
    simp [h0, this, e]
  by_cases h2 : i < 24
  · have a1 : ¬ (i - 8 < 8) := by omega
    have a2 : i - 8 - 8 < 8 := by omega
    have e : 16 + (i - 8 - 8) = i := by omega
    simp [h0, a1, a2, e]
  · have a1 : ¬ (i - 8 < 8) := by omega
    have a2 : ¬ (i - 8 - 8 < 8) := by omega
    have a3 : i - 8 - 8 - 8 < 8 := by omega
    have e : 24 + (i - 8 - 8 - 8) = i := by omega
    simp [h0, a1, a2, a3, e]

/-- A word read at the address just written. -/
theorem readWord_writeWord_same (m : Memory) (a : Nat) (w : Word) : readWord (writeWord m a w) a = some w := by
  have h (k : Nat) (hk : k < 4) : readByte (writeWord m a w) (a + k) = some (byteOfWord w k) := by
    rw [readByte_writeWord, if_pos (by omega)]
    simp
  have h0 := h 0 (by omega)
  rw [Nat.add_zero] at h0
  simp [readWord, h0, h 1, h 2, h 3, wordOfBytes_byteOfWord]

/-- A word read elsewhere than the word just written. -/
theorem readWord_writeWord_ne (m : Memory) (a b : Nat) (w : Word) (h : a + 4 ≤ b ∨ b + 4 ≤ a) :
    readWord (writeWord m a w) b = readWord m b := by
  have hb (k : Nat) (hk : k < 4) : readByte (writeWord m a w) (b + k) = readByte m (b + k) := by
    rw [readByte_writeWord, if_neg (by omega)]
  have h0 := hb 0 (by omega)
  rw [Nat.add_zero] at h0
  simp [readWord, h0, hb 1, hb 2, hb 3]

/-- Words agree where their four bytes agree. -/
theorem readWord_congr {m m' : Memory} {a : Nat} (h : ∀ k, k < 4 → readByte m (a + k) = readByte m' (a + k)) :
    readWord m a = readWord m' a := by
  have h0 := h 0 (by omega)
  rw [Nat.add_zero] at h0
  simp only [readWord, h0, h 1 (by omega), h 2 (by omega), h 3 (by omega)]

/-- A word is defined exactly when its four bytes are. -/
theorem readWord_isSome (m : Memory) (a : Nat) :
    (readWord m a).isSome = true ↔ ∀ k, k < 4 → (readByte m (a + k)).isSome = true := by
  constructor
  · intro h k hk
    unfold readWord at h
    split at h
    · rename_i h0 h1 h2 h3
      obtain rfl | rfl | rfl | rfl : k = 0 ∨ k = 1 ∨ k = 2 ∨ k = 3 := by omega
      · simp [h0]
      · simp [h1]
      · simp [h2]
      · simp [h3]
    · simp at h
  · intro h
    obtain ⟨b0, h0⟩ := Option.isSome_iff_exists.mp (h 0 (by omega))
    obtain ⟨b1, h1⟩ := Option.isSome_iff_exists.mp (h 1 (by omega))
    obtain ⟨b2, h2⟩ := Option.isSome_iff_exists.mp (h 2 (by omega))
    obtain ⟨b3, h3⟩ := Option.isSome_iff_exists.mp (h 3 (by omega))
    rw [Nat.add_zero] at h0
    simp [readWord, h0, h1, h2, h3]

end Sys2Proof.Machine
end

