-- ==== Sys2Proof/Laws/Ops.lean ====
section
/-! SUPPORT. The shared operations: the address map, `MemRead` after `MemWrite`, reading and writing several
words, recording an error, and the fields each leaves alone. -/

namespace Sys2Proof.Machine

/-- The legal ranges of the parameters, as inequalities. -/
theorem legal_bounds {p : Params} (h : p.legal = true) :
    1 ≤ p.resultWords ∧ p.resultWords ≤ 4194304 ∧ 1 ≤ p.dcmWords ∧ p.dcmWords ≤ 4194304 ∧
      1 ≤ p.cqDepth ∧ p.cqDepth ≤ 65535 := by
  simp [Params.legal] at h
  omega

/-- Two different words of the RAMs share no byte address. -/
theorem spaceAddr_disjoint {p : Params} (hp : p.legal = true) {sp sq : Space} {i j : Nat}
    (hi : i < spaceWords p sp) (hj : j < spaceWords p sq) (hne : ¬ (sp = sq ∧ i = j)) :
    spaceAddr sp i + 4 ≤ spaceAddr sq j ∨ spaceAddr sq j + 4 ≤ spaceAddr sp i := by
  have hb := legal_bounds hp
  by_cases hs : sp = sq
  · subst hs
    have : i ≠ j := fun h => hne ⟨rfl, h⟩
    simp only [spaceAddr]
    omega
  · cases sp <;> cases sq <;>
      first
        | exact absurd rfl hs
        | (simp only [spaceWords, spaceAddr, spaceBase] at *; omega)

@[simp] theorem memRead_memWrite_same (s : State) (sp : Space) (i : Nat) (v : Word) :
    memRead (memWrite s sp i v) sp i = some v := by
  simp [memRead, readWord_writeWord_same]

/-- A `MemWrite` leaves every other word of every RAM alone. -/
theorem memRead_memWrite_ne {s : State} (hp : s.params.legal = true) {sp sq : Space} {i j : Nat} (v : Word)
    (hi : i < spaceWords s.params sp) (hj : j < spaceWords s.params sq) (hne : ¬ (sp = sq ∧ i = j)) :
    memRead (memWrite s sp i v) sq j = memRead s sq j := by
  simp only [memRead, memWrite_mem]
  exact readWord_writeWord_ne _ _ _ _ (spaceAddr_disjoint hp hi hj hne)

/-- A `MemWrite` leaves every byte outside the word alone. -/
theorem readByte_memWrite (s : State) (sp : Space) (i : Nat) (v : Word) (a : Nat)
    (h : a < spaceAddr sp i ∨ spaceAddr sp i + 4 ≤ a) :
    readByte (memWrite s sp i v).mem a = readByte s.mem a := by
  rw [memWrite_mem, readByte_writeWord, if_neg (by omega)]

/-- Reading only looks at memory. -/
theorem memRead_congr {s t : State} (h : t.mem = s.mem) (sp : Space) (i : Nat) : memRead t sp i = memRead s sp i := by
  simp [memRead, h]

@[simp] theorem memRead_raise (e : ErrKind) (r a : Word) (s : State) (sp : Space) (i : Nat) :
    memRead (raise e r a s) sp i = memRead s sp i := memRead_congr (by simp) sp i

/-- What a successful read of one word says. -/
theorem fetchWord_ok {s : State} {sp : Space} {i : Nat} {w : Word} :
    fetchWord s sp i = .ok w ↔ memRead s sp i = some w := by
  unfold fetchWord
  split <;> simp_all

/-- What a successful read of several words says: their number and each of them. -/
theorem fetchWords_ok {s : State} {sp : Space} {i n : Nat} {ws : List Word} (h : fetchWords s sp i n = .ok ws) :
    ws.length = n ∧ ∀ k, k < n → memRead s sp (i + k) = ws[k]? := by
  induction n generalizing i ws with
  | zero => simp [fetchWords] at h; simp [← h]
  | succ n ih =>
    simp only [fetchWords] at h
    split at h
    · cases h
    · rename_i w hw
      split at h
      · cases h
      · rename_i rest hrest
        cases h
        obtain ⟨hlen, hget⟩ := ih hrest
        refine ⟨by simp [hlen], ?_⟩
        intro k hk
        cases k with
        | zero => simpa using fetchWord_ok.mp hw
        | succ k =>
          have := hget k (by omega)
          simpa [Nat.add_assoc, Nat.add_comm 1 k] using this

/-- Several words are read without a fault where each of them is defined. -/
theorem fetchWords_defined {s : State} {sp : Space} {i n : Nat}
    (h : ∀ k, k < n → (memRead s sp (i + k)).isSome = true) : ∃ ws, fetchWords s sp i n = .ok ws := by
  induction n generalizing i with
  | zero => exact ⟨[], rfl⟩
  | succ n ih =>
    obtain ⟨w, hw⟩ := Option.isSome_iff_exists.mp (h 0 (by omega))
    obtain ⟨ws, hws⟩ := ih (i := i + 1) (by
      intro k hk
      have := h (k + 1) (by omega)
      rwa [Nat.add_assoc, Nat.add_comm 1 k])
    exact ⟨w :: ws, by simp [fetchWords, fetchWord_ok.mpr (by simpa using hw), hws]⟩

/-- The fault of a failed read of several words names an undefined one of them. -/
theorem fetchWords_error {s : State} {sp : Space} {i n : Nat} {f : Fault} (h : fetchWords s sp i n = .error f) :
    ∃ k, k < n ∧ f = .undefinedRead sp (i + k) ∧ memRead s sp (i + k) = none := by
  induction n generalizing i with
  | zero => simp [fetchWords] at h
  | succ n ih =>
    simp only [fetchWords] at h
    split at h
    · rename_i g hg
      cases h
      refine ⟨0, by omega, ?_⟩
      unfold fetchWord at hg
      split at hg
      · cases hg
      · rename_i hn
        cases hg
        exact ⟨rfl, hn⟩
    · split at h
      · rename_i g hg
        cases h
        obtain ⟨k, hk, hf, hn⟩ := ih hg
        refine ⟨k + 1, by omega, ?_, ?_⟩
        · rw [hf, Nat.add_assoc, Nat.add_comm 1 k]
        · rw [← hn, Nat.add_assoc, Nat.add_comm 1 k]
      · cases h

/-- Writing several words changes memory only. -/
theorem memWriteList_frame (s : State) (sp : Space) (i : Nat) (ws : List Word) :
    memWriteList s sp i ws = { s with mem := (memWriteList s sp i ws).mem } := by
  induction ws generalizing s i with
  | nil => rfl
  | cons w ws ih =>
    simp only [memWriteList]
    rw [ih]
    rfl

/-- Writing several words leaves every byte outside them alone. -/
theorem readByte_memWriteList (s : State) (sp : Space) (i : Nat) (ws : List Word) (a : Nat)
    (h : a < spaceAddr sp i ∨ spaceAddr sp (i + ws.length) ≤ a) :
    readByte (memWriteList s sp i ws).mem a = readByte s.mem a := by
  induction ws generalizing s i with
  | nil => rfl
  | cons w ws ih =>
    simp only [memWriteList, List.length_cons, spaceAddr] at *
    rw [ih _ _ (by omega), readByte_memWrite _ _ _ _ _ (by simp only [spaceAddr]; omega)]

/-- The word read at an index among several written. -/
theorem memRead_memWriteList (s : State) (sp : Space) (i : Nat) (ws : List Word) (k : Nat) (hk : k < ws.length) :
    memRead (memWriteList s sp i ws) sp (i + k) = ws[k]? := by
  induction ws generalizing s i k with
  | nil => simp at hk
  | cons w ws ih =>
    simp only [memWriteList]
    cases k with
    | zero =>
      have hsame : memRead (memWriteList (memWrite s sp i w) sp (i + 1) ws) sp i = memRead (memWrite s sp i w) sp i := by
        apply readWord_congr
        intro k hk
        apply readByte_memWriteList
        simp only [spaceAddr]
        omega
      simp [hsame]
    | succ k =>
      have := ih (memWrite s sp i w) (i + 1) k (by simpa using hk)
      rw [show i + (k + 1) = i + 1 + k by omega, this]
      simp

/-- Writing several words of a RAM keeps the canonical form. -/
theorem memWriteList_wf (s : State) (sp : Space) (i : Nat) (ws : List Word) (h : Memory.wf s.mem = true) :
    Memory.wf (memWriteList s sp i ws).mem = true := by
  induction ws generalizing s i with
  | nil => exact h
  | cons w ws ih => exact ih _ _ (writeWord_wf _ _ _ h)

/-- CAT_LUT is the bit length, below 2048. -/
theorem catLut_eq (m : Nat) : catLut m = if m < 2048 then some (Nat.size m) else none := by
  unfold catLut
  split
  · congr 1
    split
    · rename_i h; simp [h]
    · rename_i h
      have h1 : Nat.size m ≤ Nat.log2 m + 1 := Nat.size_le.mpr ((Nat.log2_lt h).mp (by omega))
      have h2 : Nat.log2 m < Nat.size m := Nat.lt_size.mpr (Nat.log2_self_le h)
      omega
  · rfl

/-- The bit of an error is one of ERR's thirteen. -/
theorem errBit_lt (e : ErrKind) : errBit e < 13 := by cases e <;> decide

/-- An error's mask is never zero, so `raise` leaves ERR nonzero. -/
theorem raise_err_ne_zero (e : ErrKind) (r a : Word) (s : State) : (raise e r a s).err ≠ 0#13 := by
  rw [raise_err]
  intro h
  have hb := congrArg (fun x => x.getLsbD (errBit e)) h
  cases e <;> simp [errMask, errBit] at hb

/-- The code an error is captured under lies in the table: 1 to 13. -/
theorem errCodeOf_range (e : ErrKind) : 1 ≤ (errCodeOf e).toNat ∧ (errCodeOf e).toNat ≤ 13 := by
  cases e <;> decide

end Sys2Proof.Machine
end

