-- ==== Sys2Proof/Laws/Coding.lean ====
section
/-! SUPPORT. The coders: runs of zeros, ZRL, which look-ups a block can make, packing, and the size of an
amplitude. -/

namespace Sys2Proof.Machine

/-- An amplitude of category `bitlen(|v|)` fits in its category's bits. -/
theorem amplitude_lt (v : Int) : amplitude v (Nat.size v.natAbs) < 2 ^ Nat.size v.natAbs := by
  have h : v.natAbs < 2 ^ Nat.size v.natAbs := Nat.lt_size_self _
  generalize Nat.size v.natAbs = s at *
  have hi : (v.natAbs : Int) < 2 ^ s := by exact_mod_cast h
  have : ((amplitude v s : Nat) : Int) < 2 ^ s := by
    simp only [amplitude]
    split <;> omega
  exact_mod_cast this

/-- Zeros only lengthen the run. -/
theorem encodeAcFrom_zeros (table : Nat → Option Word) (j run : Nat) (l : List Int) :
    encodeAcFrom table run (List.replicate j 0 ++ l) = encodeAcFrom table (run + j) l := by
  induction j generalizing run with
  | zero => rfl
  | succ j ih =>
    simp only [List.replicate_succ, List.cons_append, encodeAcFrom, if_true, ih]
    congr 1
    omega

/-- Several ZRL symbols are copies of one. -/
theorem zrlBits_replicate {table : Nat → Option Word} {zrl : List Bool} (h : acLookup table 0xF0 = .ok zrl) (n : Nat) :
    zrlBits table n = .ok (List.replicate n zrl).flatten := by
  induction n with
  | zero => rfl
  | succ n ih => simp only [zrlBits, h, ih, List.replicate_succ, List.flatten_cons]

/-- A category is at most 10 and never an undefined look-up. -/
theorem acCategoryOf_ok {v : Int} {s : Nat} (h : acCategoryOf v = .ok s) : s ≤ 10 := by
  simp only [acCategoryOf] at h
  split at h
  · cases h
  · split at h
    · cases h
    · cases h
      omega

/-- A look-up of a defined word is never undefined. -/
theorem acLookup_defined {table : Nat → Option Word} (ht : ∀ k, k < 256 → (table k).isSome = true) {rs : Nat} (hrs : rs < 256)
    (k : Nat) : acLookup table rs ≠ .error (.undefinedEntry k) := by
  obtain ⟨w, hw⟩ := Option.isSome_iff_exists.mp (ht rs hrs)
  simp only [acLookup, hw]
  split <;> simp

/-- Coding a block with a wholly defined table never meets an undefined word. -/
theorem encodeAcFrom_defined {table : Nat → Option Word} (ht : ∀ k, k < 256 → (table k).isSome = true) (run : Nat)
    (l : List Int) (k : Nat) : encodeAcFrom table run l ≠ .error (.undefinedEntry k) := by
  have hz (n : Nat) : zrlBits table n ≠ .error (.undefinedEntry k) := by
    induction n with
    | zero => simp [zrlBits]
    | succ n ih =>
      simp only [zrlBits]
      split
      · rename_i e he
        intro h
        cases h
        exact acLookup_defined ht (by omega) _ he
      · split
        · rename_i e he
          intro h
          cases h
          exact ih he
        · simp
  have hc (run : Nat) (v : Int) : coefficientBits table run v ≠ .error (.undefinedEntry k) := by
    simp only [coefficientBits]
    split
    · rename_i e he
      intro h
      cases h
      exact hz _ he
    · split
      · rename_i e he
        intro h
        cases h
        simp only [acCategoryOf] at he
        split at he
        · cases he
        · split at he <;> cases he
      · rename_i s hs
        split
        · rename_i e he
          intro h
          cases h
          exact acLookup_defined ht (by have := acCategoryOf_ok hs; omega) _ he
        · simp
  induction l generalizing run with
  | nil =>
    cases run with
    | zero => simp [encodeAcFrom]
    | succ => exact acLookup_defined ht (by omega) k
  | cons v rest ih =>
    simp only [encodeAcFrom]
    split
    · exact ih _
    · split
      · rename_i e he
        intro h
        cases h
        exact hc _ _ he
      · split
        · rename_i e he
          intro h
          cases h
          exact ih _ he
        · simp

/-- With a wholly defined table, every block has an outcome. -/
theorem encodeBlock_defined {p : Params} {tb : Tables} {table : Nat → Option Word} {n : Nat} {samples : List F32}
    (ht : ∀ k, k < 256 → (table k).isSome = true) : ∃ out, encodeBlock p tb table n samples = .ok out := by
  simp only [encodeBlock]
  split
  · exact ⟨_, rfl⟩
  · simp only [encodeRegion, encodeAc]
    split
    · rename_i rs h
      exact absurd h (encodeAcFrom_defined ht _ _ _)
    · exact ⟨_, rfl⟩
    · exact ⟨_, rfl⟩
    · split <;> exact ⟨_, rfl⟩

/-- With a wholly defined table, every list of blocks has its outcomes. -/
theorem blockOuts_defined {s : State} {c : Comp} {tb : Tables} (l : List (Nat × Nat)) (h : SpaceDefined s (achufOf s c)) :
    ∃ outs, blockOuts s c tb l = .ok outs := by
  induction l with
  | nil => exact ⟨_, rfl⟩
  | cons b rest ih =>
    obtain ⟨outs, ho⟩ := ih
    obtain ⟨out, hb⟩ := encodeBlock_defined (p := s.params) (tb := tb) (table := memRead s (achufOf s c))
      (n := ebs s) (samples := sampleBlock s c b.1 b.2) (by
        intro k hk
        apply h
        simp only [achufOf]
        split <;> exact hk)
    have hbo : blockOut s c tb b = .ok out := by simp only [blockOut, hb]
    exact ⟨(blockRegion s c b, out) :: outs, by simp only [blockOuts, hbo, ho]⟩

/-- Bit `31 - j` of a packed word is stream bit `j`. -/
theorem packWord_getLsbD (bits : List Bool) (j : Nat) (hj : j < 32) :
    (packWord bits).getLsbD (31 - j) = bits.getD j false := by
  have key : ∀ n j,
      (List.range n).foldl (fun acc j => 2 * acc + (bits.getD j false).toNat) 0 < 2 ^ n ∧
        (j < n → ((List.range n).foldl (fun acc j => 2 * acc + (bits.getD j false).toNat) 0).testBit (n - 1 - j) =
          bits.getD j false) := by
    intro n
    induction n with
    | zero => intro j; simp
    | succ n ih =>
      intro j
      rw [List.range_succ, List.foldl_append]
      simp only [List.foldl_cons, List.foldl_nil]
      obtain ⟨h1, h2⟩ := ih j
      generalize (List.range n).foldl (fun acc j => 2 * acc + (bits.getD j false).toNat) 0 = a at *
      have hb := Bool.toNat_le (bits.getD n false)
      refine ⟨by rw [Nat.pow_succ]; omega, ?_⟩
      intro hj
      by_cases hjn : j = n
      · subst hjn
        rw [show j + 1 - 1 - j = 0 by omega, Nat.testBit_zero]
        cases bits.getD j false <;> simp
      · rw [show n + 1 - 1 - j = (n - 1 - j) + 1 by omega, Nat.testBit_succ, ← h2 (by omega)]
        congr 1
        omega
  simp only [packWord, BitVec.getLsbD_ofNat]
  rw [show 31 - j = 32 - 1 - j by omega, (key 32 j).2 hj]
  simp
  omega

/-- `emit` appends `len` bits. -/
theorem emitBits_length (code len : Nat) : (emitBits code len).length = len := by simp [emitBits]

/-- `emit` sends the most significant bit first. -/
theorem emitBits_getElem? {code len k : Nat} (h : k < len) :
    (emitBits code len)[k]? = some (code.testBit (len - 1 - k)) := by simp [emitBits, h]

/-- A look-up of a valid entry: the LEN low bits of its code, most significant first. -/
theorem acLookup_valid {table : Nat → Option Word} {rs : Nat} {e : Word} (he : table rs = some e) (h1 : 1 ≤ huffLen e)
    (h16 : huffLen e ≤ 16) : acLookup table rs = .ok (emitBits (huffCode e) (huffLen e)) ∧
      ∀ k, k < huffLen e → (emitBits (huffCode e) (huffLen e))[k]? = some (e.getLsbD (huffLen e - 1 - k)) := by
  refine ⟨by simp [acLookup, he, huffValid, h1, h16], fun k hk => ?_⟩
  rw [emitBits_getElem? hk, huffCode, Nat.testBit_mod_two_pow, BitVec.testBit_toNat, BitVec.getLsbD_extractLsb',
    Nat.zero_add, decide_eq_true (by omega : huffLen e - 1 - k < huffLen e),
    decide_eq_true (by omega : huffLen e - 1 - k < 16), Bool.true_and, Bool.true_and]

/-- A look-up of an entry that is no code. -/
theorem acLookup_invalid {table : Nat → Option Word} {rs : Nat} {e : Word} (he : table rs = some e)
    (h : huffLen e = 0 ∨ 16 < huffLen e) : acLookup table rs = .error (.noCode rs) := by
  have : huffValid e = false := by simp only [huffValid]; apply decide_eq_false; omega
  simp [acLookup, he, this]

/-- A coefficient of magnitude below 1024 has its bit length as category. -/
theorem acCategoryOf_small {v : Int} (h : v.natAbs ≤ 1023) : acCategoryOf v = .ok (Nat.size v.natAbs) := by
  have : Nat.size v.natAbs ≤ 10 := Nat.size_le.mpr (by omega)
  simp only [acCategoryOf, catLut_eq, if_pos (by omega : v.natAbs < 2048)]
  rw [if_neg (by omega)]

/-- A coefficient of magnitude 1024 or more has none. -/
theorem acCategoryOf_large {v : Int} (h : 1024 ≤ v.natAbs) : acCategoryOf v = .error (.category v) := by
  simp only [acCategoryOf, catLut_eq]
  split
  · rfl
  · rename_i s hs
    split at hs <;> cases hs
    rw [if_pos (Nat.lt_size.mpr (by omega))]

/-- The ZRL symbols of a run, when ZRL has a code or the run is below 16. -/
theorem zrlBits_of_run {table : Nat → Option Word} {run : Nat} {zrl : List Bool}
    (h : 16 ≤ run → acLookup table 0xF0 = .ok zrl) : zrlBits table (run / 16) = .ok (List.replicate (run / 16) zrl).flatten := by
  by_cases h16 : 16 ≤ run
  · exact zrlBits_replicate (h h16) _
  · rw [Nat.div_eq_of_lt (by omega)]
    rfl

/-- A ZRL that is needed and has no code fails. -/
theorem zrlBits_error {table : Nat → Option Word} {run : Nat} {e : AcStop} (h16 : 16 ≤ run)
    (h : acLookup table 0xF0 = .error e) : zrlBits table (run / 16) = .error e := by
  obtain ⟨n, hn⟩ : ∃ n, run / 16 = n + 1 := ⟨run / 16 - 1, by omega⟩
  simp only [hn, zrlBits, h]

/-- The coding up to and with the first nonzero coefficient, and then of the rest with a run of 0. -/
theorem encodeAc_nonzero (table : Nat → Option Word) (dc v : Int) (k : Nat) (rest : List Int) (h : v ≠ 0) :
    encodeAc table (dc :: (List.replicate k 0 ++ v :: rest)) =
      match coefficientBits table k v with
      | .error e => .error e
      | .ok bits =>
        match encodeAc table (dc :: rest) with
        | .error e => .error e
        | .ok more => .ok (bits ++ more) := by
  simp only [encodeAc, List.tail_cons, encodeAcFrom_zeros, encodeAcFrom, if_neg h, Nat.zero_add] <;> rfl

/-- The zeros at the end of a block. -/
theorem encodeAc_zeros (table : Nat → Option Word) (dc : Int) (k : Nat) :
    encodeAc table (dc :: List.replicate k 0) = if k = 0 then .ok [] else acLookup table 0x00 := by
  have := encodeAcFrom_zeros table k 0 []
  simp only [List.append_nil, Nat.zero_add] at this
  simp only [encodeAc, List.tail_cons, this]
  cases k <;> rfl

/-- Whatever coding stops at an undefined look-up, that look-up is undefined. -/
theorem encodeAcFrom_undefined {table : Nat → Option Word} {run : Nat} {l : List Int} {rs : Nat}
    (h : encodeAcFrom table run l = .error (.undefinedEntry rs)) : table rs = none := by
  have hl (k : Nat) (h : acLookup table k = .error (.undefinedEntry rs)) : table rs = none := by
    simp only [acLookup] at h
    split at h
    · cases h
      assumption
    · split at h <;> cases h
  have hz (n : Nat) (h : zrlBits table n = .error (.undefinedEntry rs)) : table rs = none := by
    induction n with
    | zero => cases h
    | succ n ih =>
      simp only [zrlBits] at h
      split at h
      · rename_i e he
        cases h
        exact hl _ he
      · split at h
        · rename_i e he
          cases h
          exact ih he
        · cases h
  have hc (run : Nat) (v : Int) (h : coefficientBits table run v = .error (.undefinedEntry rs)) : table rs = none := by
    simp only [coefficientBits] at h
    split at h
    · rename_i e he
      cases h
      exact hz _ he
    · split at h
      · rename_i e he
        cases h
        simp only [acCategoryOf] at he
        split at he
        · cases he
        · split at he <;> cases he
      · split at h
        · rename_i e he
          cases h
          exact hl _ he
        · cases h
  induction l generalizing run with
  | nil =>
    cases run with
    | zero => cases h
    | succ => exact hl _ h
  | cons v rest ih =>
    simp only [encodeAcFrom] at h
    split at h
    · exact ih h
    · split at h
      · rename_i e he
        cases h
        exact hc _ _ he
      · split at h
        · rename_i e he
          cases h
          exact ih he
        · cases h

end Sys2Proof.Machine
end

