-- ==== Sys2Proof/Laws/Decode.lean ====
section
/-! SUPPORT. The fields of a command word, and what a successful or rejected decoding says. -/

namespace Sys2Proof

/-- OPC of a command word. -/
theorem opcField_commandWord (opc : BitVec 8) (comp : BitVec 2) (rsvd : BitVec 22) :
    opcField (commandWord opc comp rsvd) = opc := by
  apply BitVec.eq_of_getLsbD_eq
  intro i hi
  simp only [opcField, commandWord, BitVec.getLsbD_extractLsb', BitVec.getLsbD_append]
  have h1 : ¬ (24 + i < 22) := by omega
  have h2 : ¬ (24 + i - 22 < 2) := by omega
  have e : 24 + i - 22 - 2 = i := by omega
  simp [hi, h1, h2, e]

/-- COMP of a command word. -/
theorem compField_commandWord (opc : BitVec 8) (comp : BitVec 2) (rsvd : BitVec 22) :
    compField (commandWord opc comp rsvd) = comp := by
  apply BitVec.eq_of_getLsbD_eq
  intro i hi
  simp only [compField, commandWord, BitVec.getLsbD_extractLsb', BitVec.getLsbD_append]
  have h1 : ¬ (22 + i < 22) := by omega
  have h2 : 22 + i - 22 < 2 := by omega
  have e : 22 + i - 22 = i := by omega
  simp [hi, h1, e]

/-- RSVD of a command word. -/
theorem rsvdField_commandWord (opc : BitVec 8) (comp : BitVec 2) (rsvd : BitVec 22) :
    rsvdField (commandWord opc comp rsvd) = rsvd := by
  apply BitVec.eq_of_getLsbD_eq
  intro i hi
  simp only [rsvdField, commandWord, BitVec.getLsbD_extractLsb', BitVec.getLsbD_append]
  simp [hi]

/-- A command word is its three fields put together: no bit lies outside them. -/
theorem commandWord_fields (w : Word) : commandWord (opcField w) (compField w) (rsvdField w) = w := by
  apply BitVec.eq_of_getLsbD_eq
  intro i hi
  simp only [opcField, compField, rsvdField, commandWord, BitVec.getLsbD_extractLsb', BitVec.getLsbD_append]
  by_cases h1 : i < 22
  · simp [h1]
  by_cases h2 : i < 24
  · have a : i - 22 < 2 := by omega
    have e : 22 + (i - 22) = i := by omega
    simp [h1, a, e]
  · have a : ¬ (i - 22 < 2) := by omega
    have b : i - 22 - 2 < 8 := by omega
    have e : 24 + (i - 22 - 2) = i := by omega
    simp [h1, a, b, e]

/-- COMP = 3 is the one field value that names no component. -/
theorem compOf_eq_none (comp : BitVec 2) : compOf comp = none ↔ comp = 3#2 := by
  revert comp; decide

@[simp] theorem compOf_compBits (c : Comp) : compOf (compBits c) = some c := by cases c <;> rfl

/-- The field of the component it names. -/
theorem compBits_of_compOf {comp : BitVec 2} {c : Comp} (h : compOf comp = some c) : comp = compBits c := by
  revert h; cases c <;> revert comp <;> decide

end Sys2Proof
end

