-- ==== Sys2Proof/Laws/Commands.lean ====
section
/-! SUPPORT. What each command's meaning can do, said once: DCENC's and DISPATCH's cases, the shape of a region,
and what committing blocks leaves alone. -/

namespace Sys2Proof.Machine

/-- DCENC past its checks: the predictor takes the DC word, one DCM word is written, and one of three things is
recorded. -/
theorem dcencWith_ok {c : Comp} {r dc : Word} {s t : State} (h : dcencWith c r dc s = .ok t) :
    (catLut (dcDiff s c dc).natAbs = none ∧
      t = raise .dcCategory r (BitVec.ofInt 32 (dcDiff s c dc))
        (memWrite (setPrevDc s c dc) .dcm r.toNat dcmMarker)) ∨
    (∃ cat e, catLut (dcDiff s c dc).natAbs = some cat ∧ memRead s (dchufOf s c) cat = some e ∧
      ((huffValid e = true ∧
          t = memWrite (setPrevDc s c dc) .dcm r.toNat (dcmWord (huffLen e) (huffCode e) cat (dcDiff s c dc))) ∨
        (huffValid e = false ∧
          t = raise .dcNoCode r (BitVec.ofNat 32 cat) (memWrite (setPrevDc s c dc) .dcm r.toNat dcmMarker)))) := by
  simp only [dcencWith] at h
  split at h
  · rename_i hcat
    cases h
    exact .inl ⟨hcat, rfl⟩
  · rename_i cat hcat
    split at h
    · cases h
    · rename_i e he
      refine .inr ⟨cat, e, hcat, fetchWord_ok.mp he, ?_⟩
      split at h
      · rename_i hv
        cases h
        exact .inl ⟨hv, rfl⟩
      · rename_i hv
        cases h
        exact .inr ⟨by simpa using hv, rfl⟩

/-- Every outcome of DCENC that is a next state. -/
theorem execDcenc_next {comp : BitVec 2} {rsvd : BitVec 22} {r : Word} {s t : State}
    (h : exec (.dcenc comp rsvd r) s = .next t) :
    (compOf comp = none ∧ t = raise .badComp 0#32 (commandWord 0x04#8 comp rsvd) s) ∨
    (∃ c, compOf comp = some c ∧
      ((dcRangeOk s r.toNat = false ∧ t = raise .range r (commandWord 0x04#8 comp rsvd) s) ∨
        (∃ dc, dcRangeOk s r.toNat = true ∧ memRead s .result (r.toNat * ebs s) = some dc ∧
          dcencWith c r dc s = .ok t))) := by
  simp only [exec, execDcenc] at h
  split at h
  · rename_i hc
    cases h
    exact .inl ⟨hc, rfl⟩
  · rename_i c hc
    refine .inr ⟨c, hc, ?_⟩
    split at h
    · rename_i hr
      split at h
      · cases h
      · rename_i dc hdc
        split at h
        · cases h
        · rename_i t' ht
          cases h
          exact .inr ⟨dc, hr, fetchWord_ok.mp hdc, ht⟩
    · rename_i hr
      cases h
      exact .inl ⟨by simpa using hr, rfl⟩

/-- A region has `N` words. -/
theorem regionWords_length (dc : Word) (ac : List Word) (last : Word) {n : Nat} (hac : ac.length = n - 2)
    (hn : 2 ≤ n) : (regionWords dc ac last).length = n := by
  simp [regionWords, hac]
  omega

/-- Every outcome of a block writes exactly `N` words. -/
theorem encodeBlock_length {p : Params} {tb : Tables} {table : Nat → Option Word} {n : Nat} {samples : List F32}
    {out : BlockOut} (h : encodeBlock p tb table n samples = .ok out) (hn : 2 ≤ n) : out.words.length = n := by
  simp only [encodeBlock, encodeRegion] at h
  split at h
  · cases h
    exact regionWords_length _ _ _ (by simp) hn
  · split at h
    · cases h
    · cases h
      exact regionWords_length _ _ _ (by simp) hn
    · cases h
      exact regionWords_length _ _ _ (by simp) hn
    · split at h <;> cases h
      · exact regionWords_length _ _ _ (by simp [pack]) hn
      · exact regionWords_length _ _ _ (by simp [pack]) hn

/-- A region holds at least six words. -/
theorem six_le_ebs (s : State) : 6 ≤ ebs s := by
  simp only [ebs]
  omega

/-- The outcome of each block of a grid, block by block. -/
theorem blockOuts_ok {s : State} {c : Comp} {tb : Tables} {blks : List (Nat × Nat)} {outs : List (Nat × BlockOut)}
    (h : blockOuts s c tb blks = .ok outs) :
    outs.map (·.1) = blks.map (blockRegion s c) ∧
      (∀ (k : Nat) (blk : Nat × Nat), blks[k]? = some blk →
        ∃ out, outs[k]? = some (blockRegion s c blk, out) ∧ blockOut s c tb blk = .ok out) := by
  induction blks generalizing outs with
  | nil =>
    simp only [blockOuts] at h
    cases h
    simp
  | cons b rest ih =>
    simp only [blockOuts] at h
    split at h
    · cases h
    · rename_i out hout
      split at h
      · cases h
      · rename_i outs' houts
        cases h
        obtain ⟨hmap, hget⟩ := ih houts
        refine ⟨by simp [hmap], ?_⟩
        intro k blk hk
        cases k with
        | zero =>
          simp at hk
          subst hk
          exact ⟨out, by simp, hout⟩
        | succ k => simpa using hget k blk (by simpa using hk)

/-- Every outcome of a block of a grid writes exactly `N` words. -/
theorem blockOut_length {s : State} {c : Comp} {tb : Tables} {blk : Nat × Nat} {out : BlockOut}
    (h : blockOut s c tb blk = .ok out) : out.words.length = ebs s := by
  simp only [blockOut] at h
  split at h
  · cases h
  · rename_i o ho
    cases h
    exact encodeBlock_length ho (by have := six_le_ebs s; omega)

/-- Committing a block changes memory and the error registers only. -/
theorem commitBlock_frame (n : Nat) (s : State) (ro : Nat × BlockOut) :
    commitBlock n s ro =
      { s with
        mem := (memWriteList s .result (ro.1 * n) ro.2.words).mem
        err := (commitBlock n s ro).err
        errCode := (commitBlock n s ro).errCode
        errRegion := (commitBlock n s ro).errRegion
        errAux := (commitBlock n s ro).errAux } := by
  simp only [commitBlock]
  rw [memWriteList_frame]
  split
  · rfl
  · simp only [raise]
    split <;> rfl

/-- Committing blocks changes memory and the error registers only. -/
theorem commitBlocks_frame (n : Nat) (s : State) (outs : List (Nat × BlockOut)) :
    commitBlocks n s outs =
      { s with
        mem := (commitBlocks n s outs).mem
        err := (commitBlocks n s outs).err
        errCode := (commitBlocks n s outs).errCode
        errRegion := (commitBlocks n s outs).errRegion
        errAux := (commitBlocks n s outs).errAux } := by
  induction outs generalizing s with
  | nil => rfl
  | cons ro rest ih =>
    have step : commitBlocks n s (ro :: rest) = commitBlocks n (commitBlock n s ro) rest := rfl
    rw [step, ih, commitBlock_frame]

/-- The memory a committed block leaves. -/
theorem commitBlock_mem (n : Nat) (s : State) (ro : Nat × BlockOut) :
    (commitBlock n s ro).mem = (memWriteList s .result (ro.1 * n) ro.2.words).mem := by
  rw [commitBlock_frame]

/-- Committing blocks of `N` words leaves every byte outside their regions alone. -/
theorem readByte_commitBlocks (n : Nat) (s : State) (outs : List (Nat × BlockOut)) (a : Nat)
    (hlen : ∀ ro ∈ outs, ro.2.words.length = n)
    (h : ∀ ro ∈ outs, a < spaceAddr .result (ro.1 * n) ∨ spaceAddr .result (ro.1 * n + n) ≤ a) :
    readByte (commitBlocks n s outs).mem a = readByte s.mem a := by
  induction outs generalizing s with
  | nil => rfl
  | cons ro rest ih =>
    have step : commitBlocks n s (ro :: rest) = commitBlocks n (commitBlock n s ro) rest := rfl
    rw [step, ih _ (fun x hx => hlen x (by simp [hx])) (fun x hx => h x (by simp [hx])), commitBlock_mem]
    apply readByte_memWriteList
    rw [hlen ro (by simp)]
    exact h ro (by simp)

/-- Committing blocks keeps the canonical form. -/
theorem commitBlocks_wf (n : Nat) (s : State) (outs : List (Nat × BlockOut)) (h : Memory.wf s.mem = true) :
    Memory.wf (commitBlocks n s outs).mem = true := by
  induction outs generalizing s with
  | nil => exact h
  | cons ro rest ih =>
    apply ih
    rw [commitBlock_mem]
    exact memWriteList_wf _ _ _ _ h

/-- Every outcome of DISPATCH that is a next state. -/
theorem execDispatch_next {comp : BitVec 2} {rsvd : BitVec 22} {arg : Word} {s t : State}
    (h : exec (.dispatch comp rsvd arg) s = .next t) :
    (compOf comp = none ∧ t = raise .badComp 0#32 (commandWord 0x01#8 comp rsvd) s) ∨
    (∃ c, compOf comp = some c ∧
      ((gridCols s c * gridRows s c = 0 ∧ t = s) ∨
        (gridCols s c * gridRows s c ≠ 0 ∧ (s.surfW = 0#16 ∨ s.surfH = 0#16) ∧
          t = raise .cfg 0#32 (commandWord 0x01#8 comp rsvd) s) ∨
        (gridCols s c * gridRows s c ≠ 0 ∧ ¬ (s.surfW = 0#16 ∨ s.surfH = 0#16) ∧ gridFits s c = false ∧
          t = raise .range (BitVec.ofNat 32 (regionBase s c)) (commandWord 0x01#8 comp rsvd) s) ∨
        (gridCols s c * gridRows s c ≠ 0 ∧ ¬ (s.surfW = 0#16 ∨ s.surfH = 0#16) ∧ gridFits s c = true ∧
          ∃ tb outs, fetchTables s c = .ok tb ∧
            blockOuts s c tb (gridBlocks (gridCols s c) (gridRows s c)) = .ok outs ∧
            t = commitBlocks (ebs s) s outs))) := by
  simp only [exec, execDispatch] at h
  split at h
  · rename_i hc
    cases h
    exact .inl ⟨hc, rfl⟩
  · rename_i c hc
    refine .inr ⟨c, hc, ?_⟩
    split at h
    · rename_i h0
      cases h
      exact .inl ⟨h0, rfl⟩
    · rename_i h0
      split at h
      · rename_i h1
        cases h
        exact .inr (.inl ⟨h0, h1, rfl⟩)
      · rename_i h1
        split at h
        · rename_i h2
          refine .inr (.inr (.inr ⟨h0, h1, h2, ?_⟩))
          simp only [dispatchGrid] at h
          split at h
          · cases h
          · rename_i t' ht
            cases h
            split at ht
            · cases ht
            · rename_i tb htb
              split at ht
              · cases ht
              · rename_i outs houts
                cases ht
                exact ⟨tb, outs, htb, houts, rfl⟩
        · rename_i h2
          cases h
          exact .inr (.inr (.inl ⟨h0, h1, by simpa using h2, rfl⟩))

/-- The blocks of a grid are its pairs (column, row). -/
theorem mem_gridBlocks {cols rows : Nat} {blk : Nat × Nat} :
    blk ∈ gridBlocks cols rows ↔ blk.1 < cols ∧ blk.2 < rows := by
  obtain ⟨x, y⟩ := blk
  simp only [gridBlocks, List.mem_flatMap, List.mem_map, List.mem_range, Prod.mk.injEq]
  constructor
  · rintro ⟨r, hr, k, hk, rfl, rfl⟩
    exact ⟨hk, hr⟩
  · rintro ⟨hx, hy⟩
    exact ⟨y, hy, x, hx, rfl, rfl⟩

/-- The region of a block of the grid lies among the component's regions. -/
theorem blockRegion_bounds {s : State} {c : Comp} {blk : Nat × Nat}
    (h : blk ∈ gridBlocks (gridCols s c) (gridRows s c)) :
    regionBase s c ≤ blockRegion s c blk ∧ blockRegion s c blk < regionBase s c + gridCols s c * gridRows s c := by
  obtain ⟨hx, hy⟩ := mem_gridBlocks.mp h
  simp only [blockRegion]
  have : (blk.2 + 1) * gridCols s c ≤ gridRows s c * gridCols s c := Nat.mul_le_mul_right _ hy
  rw [Nat.mul_comm (gridRows s c)] at this
  rw [Nat.add_mul, Nat.one_mul] at this
  omega

/-- The outcome of every block of a grid has `N` words and a region among the component's. -/
theorem blockOuts_bounds {s : State} {c : Comp} {tb : Tables} {outs : List (Nat × BlockOut)}
    (h : blockOuts s c tb (gridBlocks (gridCols s c) (gridRows s c)) = .ok outs) :
    ∀ ro ∈ outs, ro.2.words.length = ebs s ∧ regionBase s c ≤ ro.1 ∧
      ro.1 < regionBase s c + gridCols s c * gridRows s c := by
  obtain ⟨hmap, hget⟩ := blockOuts_ok h
  intro ro hro
  obtain ⟨j, hj⟩ := List.getElem?_of_mem hro
  have hlt : j < (gridBlocks (gridCols s c) (gridRows s c)).length := by
    have hlen := congrArg List.length hmap
    simp at hlen
    have : j < outs.length := by
      by_contra hge
      rw [List.getElem?_eq_none (by omega)] at hj
      cases hj
    omega
  obtain ⟨o, ho, hb⟩ := hget j _ (List.getElem?_eq_getElem hlt)
  rw [hj] at ho
  cases ho
  exact ⟨blockOut_length hb, blockRegion_bounds (List.getElem_mem _)⟩

/-- Different blocks of a grid have different regions. -/
theorem gridRegions_nodup (s : State) (c : Comp) :
    ((gridBlocks (gridCols s c) (gridRows s c)).map (blockRegion s c)).Nodup := by
  apply List.Nodup.map_on
  · rintro ⟨x, y⟩ hx ⟨x', y'⟩ hx' he
    obtain ⟨p1, p2⟩ := mem_gridBlocks.mp hx
    obtain ⟨q1, q2⟩ := mem_gridBlocks.mp hx'
    simp only [blockRegion] at he p1 p2 q1 q2
    have hyy : y = y' := by
      have e1 : (y * gridCols s c + x) / gridCols s c = y := by
        rw [Nat.mul_comm, Nat.mul_add_div (by omega), Nat.div_eq_of_lt p1]; omega
      have e2 : (y' * gridCols s c + x') / gridCols s c = y' := by
        rw [Nat.mul_comm, Nat.mul_add_div (by omega), Nat.div_eq_of_lt q1]; omega
      rw [← e1, ← e2]
      congr 1
      omega
    subst hyy
    simp
    omega
  · simp only [gridBlocks]
    rw [List.nodup_flatMap]
    refine ⟨fun x _ => List.Nodup.map (fun a b h => by simpa using h) List.nodup_range, ?_⟩
    apply List.Pairwise.imp _ List.nodup_range
    intro a b hab
    simp only [Function.onFun, List.Disjoint]
    intro z hz hz'
    simp at hz hz'
    obtain ⟨_, _, rfl⟩ := hz
    obtain ⟨_, _, hh⟩ := hz'
    simp at hh
    exact hab hh.2.symm

/-- A word of the region of one block among several committed. -/
theorem memRead_commitBlocks (n : Nat) (outs : List (Nat × BlockOut)) (s : State)
    (hlen : ∀ ro ∈ outs, ro.2.words.length = n) (hnd : (outs.map (·.1)).Nodup) (k : Nat) (hk : k < n)
    (ro : Nat × BlockOut) (hro : ro ∈ outs) :
    memRead (commitBlocks n s outs) .result (ro.1 * n + k) = ro.2.words[k]? := by
  induction outs generalizing s with
  | nil => simp at hro
  | cons r0 rest ih =>
    have step : commitBlocks n s (r0 :: rest) = commitBlocks n (commitBlock n s r0) rest := rfl
    rw [step]
    simp only [List.map_cons, List.nodup_cons] at hnd
    rcases List.mem_cons.mp hro with rfl | hin
    · have later : memRead (commitBlocks n (commitBlock n s ro) rest) .result (ro.1 * n + k) =
          memRead (commitBlock n s ro) .result (ro.1 * n + k) := by
        apply readWord_congr
        intro j hj
        apply readByte_commitBlocks _ _ _ _ (fun x hx => hlen x (by simp [hx]))
        intro x hx
        have hne : x.1 ≠ ro.1 := by
          intro h
          apply hnd.1
          rw [← h]
          exact List.mem_map_of_mem hx
        simp only [spaceAddr, spaceBase]
        rcases Nat.lt_or_gt_of_ne hne with h | h
        · have := Nat.mul_le_mul_right n h
          rw [Nat.succ_mul] at this
          omega
        · have := Nat.mul_le_mul_right n h
          rw [Nat.succ_mul] at this
          omega
      rw [later, memRead_congr (commitBlock_mem n s ro),
        memRead_memWriteList _ _ _ _ _ (by rw [hlen ro (by simp)]; exact hk)]
    · exact ih _ (fun x hx => hlen x (by simp [hx])) hnd.2 hin

/-- What a successful read of a DISPATCH's tables says: 64 words of each, as they stand. -/
theorem fetchTables_ok {s : State} {c : Comp} {tb : Tables} (h : fetchTables s c = .ok tb) :
    (tb.d.length = 64 ∧ tb.dt.length = 64 ∧ tb.q.length = 64) ∧
      ∀ n, n < 64 → memRead s .dmat n = tb.d[n]? ∧ memRead s .dtmat n = tb.dt[n]? ∧
        memRead s (qtabOf s c) n = tb.q[n]? := by
  simp only [fetchTables] at h
  split at h
  · cases h
  rename_i d hd
  split at h
  · cases h
  rename_i dt hdt
  split at h
  · cases h
  rename_i q hq
  cases h
  obtain ⟨l1, g1⟩ := fetchWords_ok hd
  obtain ⟨l2, g2⟩ := fetchWords_ok hdt
  obtain ⟨l3, g3⟩ := fetchWords_ok hq
  refine ⟨⟨l1, l2, l3⟩, fun n hn => ⟨?_, ?_, ?_⟩⟩
  · simpa using g1 n hn
  · simpa using g2 n hn
  · simpa using g3 n hn

/-- Committing blocks clears no error flag. -/
theorem commitBlocks_err_keeps (n : Nat) (s : State) (outs : List (Nat × BlockOut)) :
    s.err &&& (commitBlocks n s outs).err = s.err := by
  induction outs generalizing s with
  | nil => simp [commitBlocks]
  | cons ro rest ih =>
    have step : commitBlocks n s (ro :: rest) = commitBlocks n (commitBlock n s ro) rest := rfl
    rw [step]
    have h1 := ih (commitBlock n s ro)
    have h2 : s.err &&& (commitBlock n s ro).err = s.err := by
      have hw : (memWriteList s .result (ro.1 * n) ro.2.words).err = s.err := by rw [memWriteList_frame]
      simp only [commitBlock]
      split
      · rw [hw]; simp
      · rename_i e aux _
        have h := raise_err_keeps e (BitVec.ofNat 32 ro.1) aux (memWriteList s .result (ro.1 * n) ro.2.words)
        rwa [hw] at h
    rw [← h2, BitVec.and_assoc, h1]

/-- Every command that answers a next state changes memory, the error registers, the predictors and
FENCE_COMPLETED only. -/
theorem exec_frame {i : Instr} {s t : State} (h : exec i s = .next t) :
    t = { s with
      mem := t.mem, err := t.err, errCode := t.errCode, errRegion := t.errRegion, errAux := t.errAux,
      prevDc := t.prevDc, fenceCompleted := t.fenceCompleted } := by
  cases i with
  | nop => cases h; rfl
  | signal => cases h; rfl
  | dcrst => cases h; rfl
  | dispatch c r a =>
    obtain ⟨_, rfl⟩ | ⟨c, hc, h | h | h | h⟩ := execDispatch_next h
    · rw [raise_frame]
    · obtain ⟨_, rfl⟩ := h; rfl
    · obtain ⟨_, _, rfl⟩ := h; rw [raise_frame]
    · obtain ⟨_, _, _, rfl⟩ := h; rw [raise_frame]
    · obtain ⟨_, _, _, tb, outs, _, _, rfl⟩ := h; rw [commitBlocks_frame]
  | dcenc c r a =>
    obtain ⟨_, rfl⟩ | ⟨c, hc, h | h⟩ := execDcenc_next h
    · rw [raise_frame]
    · obtain ⟨_, rfl⟩ := h; rw [raise_frame]
    · obtain ⟨dc, _, _, h⟩ := h
      obtain ⟨_, rfl⟩ | ⟨_, _, _, _, ⟨_, rfl⟩ | ⟨_, rfl⟩⟩ := dcencWith_ok h
      · rw [raise_frame]; rfl
      · rfl
      · rw [raise_frame]; rfl

/-- A list of blocks in processing order, cut in two. -/
theorem blockOuts_append {s : State} {c : Comp} {tb : Tables} {pre post : List (Nat × Nat)} {outs : List (Nat × BlockOut)}
    (h : blockOuts s c tb (pre ++ post) = .ok outs) :
    ∃ o1 o2, outs = o1 ++ o2 ∧ blockOuts s c tb pre = .ok o1 ∧ blockOuts s c tb post = .ok o2 := by
  induction pre generalizing outs with
  | nil => exact ⟨[], outs, rfl, rfl, h⟩
  | cons b rest ih =>
    simp only [List.cons_append, blockOuts] at h
    split at h
    · cases h
    · rename_i out ho
      split at h
      · cases h
      · rename_i os hos
        cases h
        obtain ⟨o1, o2, rfl, h1, h2⟩ := ih hos
        exact ⟨_ :: o1, o2, rfl, by simp only [blockOuts, ho, h1], h2⟩

/-- When every block has an outcome, so has the list. -/
theorem blockOuts_of_blocks {s : State} {c : Comp} {tb : Tables} {l : List (Nat × Nat)}
    (h : ∀ b ∈ l, ∃ out, blockOut s c tb b = .ok out) : ∃ outs, blockOuts s c tb l = .ok outs := by
  induction l with
  | nil => exact ⟨_, rfl⟩
  | cons b rest ih =>
    obtain ⟨out, ho⟩ := h b (by simp)
    obtain ⟨outs, hos⟩ := ih fun x hx => h x (by simp [hx])
    exact ⟨(blockRegion s c b, out) :: outs, by simp only [blockOuts, ho, hos]⟩

/-- The fault of the first block without an outcome is the fault of the list. -/
theorem blockOuts_error_first {s : State} {c : Comp} {tb : Tables} {pre post : List (Nat × Nat)} {blk : Nat × Nat}
    {f : Fault} (hp : ∀ b ∈ pre, ∃ out, blockOut s c tb b = .ok out) (hb : blockOut s c tb blk = .error f) :
    blockOuts s c tb (pre ++ blk :: post) = .error f := by
  induction pre with
  | nil => simp only [List.nil_append, blockOuts, hb]
  | cons b rest ih =>
    obtain ⟨out, ho⟩ := hp b (by simp)
    simp only [List.cons_append, blockOuts, ho, ih fun x hx => hp x (by simp [hx])]

/-- A block without an outcome looks up an undefined entry of its ACHUF. -/
theorem blockOut_error {s : State} {c : Comp} {tb : Tables} {blk : Nat × Nat} {f : Fault}
    (h : blockOut s c tb blk = .error f) :
    ∃ rs, f = .undefinedRead (achufOf s c) rs ∧ memRead s (achufOf s c) rs = none := by
  simp only [blockOut] at h
  split at h
  · rename_i rs hrs
    cases h
    refine ⟨rs, rfl, ?_⟩
    simp only [encodeBlock, encodeRegion, encodeAc] at hrs
    split at hrs
    · cases hrs
    · split at hrs
      · rename_i k hk
        cases hrs
        exact encodeAcFrom_undefined hk
      · cases hrs
      · cases hrs
      · split at hrs <;> cases hrs
  · cases h

/-- A list of blocks without outcomes looks up an undefined entry of its ACHUF. -/
theorem blockOuts_error {s : State} {c : Comp} {tb : Tables} {l : List (Nat × Nat)} {f : Fault}
    (h : blockOuts s c tb l = .error f) :
    ∃ rs, f = .undefinedRead (achufOf s c) rs ∧ memRead s (achufOf s c) rs = none := by
  induction l with
  | nil => cases h
  | cons b rest ih =>
    simp only [blockOuts] at h
    split at h
    · rename_i g hg
      cases h
      exact blockOut_error hg
    · split at h
      · rename_i g hg
        cases h
        exact ih hg
      · cases h

/-- A block is transformed, quantized and coded with the tables it is given. -/
theorem blockOut_of_undefined {s : State} {c : Comp} {tb : Tables} {blk : Nat × Nat} {q : List Int} {rs : Nat}
    (hq : quantizeFrom s.params.quantRound 0
      ((fdct s.params tb.d tb.dt (sampleBlock s c blk.1 blk.2)).zip tb.q) = .ok q)
    (he : encodeAc (memRead s (achufOf s c)) (zigzag q) = .error (.undefinedEntry rs)) :
    blockOut s c tb blk = .error (.undefinedRead (achufOf s c) rs) := by
  simp only [blockOut, encodeBlock, hq, encodeRegion, he]

/-- The bits of ERR after a block is committed. -/
theorem commitBlock_err (n : Nat) (s : State) (ro : Nat × BlockOut) (k : Nat) :
    (commitBlock n s ro).err.getLsbD k = true ↔
      s.err.getLsbD k = true ∨ ∃ e aux, ro.2.err = some (e, aux) ∧ errBit e = k := by
  have hw : (memWriteList s .result (ro.1 * n) ro.2.words).err = s.err := by rw [memWriteList_frame]
  simp only [commitBlock]
  split
  · rename_i h
    simp [hw, h]
  · rename_i e aux h
    have hb := errBit_lt e
    rw [raise_err, hw, BitVec.getLsbD_or, Bool.or_eq_true]
    refine or_congr Iff.rfl ?_
    simp only [errMask, BitVec.getLsbD_shiftLeft, h, Option.some.injEq, Prod.mk.injEq]
    constructor
    · intro hk
      refine ⟨e, aux, ⟨rfl, rfl⟩, ?_⟩
      simp at hk
      omega
    · rintro ⟨e', aux', ⟨rfl, rfl⟩, rfl⟩
      simp [hb]

/-- The bits of ERR after several blocks are committed: its old bits and those of the blocks' errors. -/
theorem commitBlocks_err (n : Nat) (s : State) (outs : List (Nat × BlockOut)) (k : Nat) :
    (commitBlocks n s outs).err.getLsbD k = true ↔
      s.err.getLsbD k = true ∨ ∃ ro ∈ outs, ∃ e aux, ro.2.err = some (e, aux) ∧ errBit e = k := by
  induction outs generalizing s with
  | nil => simp [commitBlocks]
  | cons ro rest ih =>
    have step : commitBlocks n s (ro :: rest) = commitBlocks n (commitBlock n s ro) rest := rfl
    rw [step, ih, commitBlock_err, or_assoc]
    simp only [List.mem_cons, exists_eq_or_imp]

/-- Blocks committed while an error is recorded capture nothing. -/
theorem commitBlocks_captured (n : Nat) (s : State) (outs : List (Nat × BlockOut)) (h : s.err ≠ 0#13) :
    (commitBlocks n s outs).errCode = s.errCode ∧ (commitBlocks n s outs).errRegion = s.errRegion ∧
      (commitBlocks n s outs).errAux = s.errAux := by
  induction outs generalizing s with
  | nil => exact ⟨rfl, rfl, rfl⟩
  | cons ro rest ih =>
    have step : commitBlocks n s (ro :: rest) = commitBlocks n (commitBlock n s ro) rest := rfl
    have one : (commitBlock n s ro).err ≠ 0#13 ∧ (commitBlock n s ro).errCode = s.errCode ∧
        (commitBlock n s ro).errRegion = s.errRegion ∧ (commitBlock n s ro).errAux = s.errAux := by
      simp only [commitBlock]
      rw [memWriteList_frame]
      split
      · exact ⟨h, rfl, rfl, rfl⟩
      · refine ⟨raise_err_ne_zero _ _ _ _, ?_, ?_, ?_⟩ <;> simp [h]
    rw [step]
    obtain ⟨k2, k3, k4⟩ := ih _ one.1
    exact ⟨k2.trans one.2.1, k3.trans one.2.2.1, k4.trans one.2.2.2⟩
/-- DISPATCH past its checks, with the conditions of the rule. -/
theorem exec_dispatch_grid {comp : BitVec 2} {c : Comp} {rsvd : BitVec 22} {arg : Word} {s : State}
    (hc : compOf comp = some c) (h0 : gridCols s c * gridRows s c ≠ 0) (h1 : s.surfW ≠ 0#16) (h2 : s.surfH ≠ 0#16)
    (h3 : (regionBase s c + gridCols s c * gridRows s c) * ebs s ≤ s.params.resultWords) :
    exec (.dispatch comp rsvd arg) s =
      match dispatchGrid c s with
      | .error f => .fault f
      | .ok t => .next t := by
  have hf : gridFits s c = true := by simp [gridFits, h3]
  simp only [exec, execDispatch, hc, h0, h1, h2, hf, if_false, if_true, or_self] <;> rfl

end Sys2Proof.Machine
end

