-- ==== Sys2Proof/Laws/Flags.lean ====
section
/-! SUPPORT. The fields of the STATUS and CTRL words. -/

namespace Sys2Proof.Machine

/-- Every field of STATUS. -/
theorem statusWord_fields (s : State) :
    (statusWord s).getLsbD 0 = busy s ∧ (statusWord s).getLsbD 1 = cqFull s ∧ (statusWord s).getLsbD 2 = irq s ∧
      (statusWord s).extractLsb' 3 5 = 0#5 ∧ (statusWord s).extractLsb' 8 16 = BitVec.ofNat 16 s.cq.length ∧
      (statusWord s).extractLsb' 24 8 = 0#8 := by
  unfold statusWord
  generalize BitVec.ofNat 16 s.cq.length = count
  generalize irq s = i2
  generalize cqFull s = i1
  generalize busy s = i0
  refine ⟨?_, ?_, ?_, ?_, ?_, ?_⟩
  · simp only [BitVec.getLsbD_append]; simp
  · simp only [BitVec.getLsbD_append]; simp
  · simp only [BitVec.getLsbD_append]; simp
  all_goals
    apply BitVec.eq_of_getLsbD_eq
    intro i hi
    simp only [BitVec.getLsbD_extractLsb', BitVec.getLsbD_append, BitVec.getLsbD_zero, hi, decide_true, Bool.true_and]
    repeat' split
    all_goals first | omega | rfl | (congr 1; omega)

/-- Every field of CTRL as read. -/
theorem ctrlWord_fields (c : Ctrl) :
    (ctrlWord c).extractLsb' 0 7 = c.quality ∧ (ctrlWord c).getLsbD 7 = false ∧
      (ctrlWord c).extractLsb' 8 2 = c.subsample ∧ (ctrlWord c).extractLsb' 10 6 = 0#6 ∧
      (ctrlWord c).getLsbD 16 = c.fenceIrqEn ∧ (ctrlWord c).getLsbD 17 = c.errIrqEn ∧
      (ctrlWord c).extractLsb' 18 14 = 0#14 := by
  obtain ⟨q, ss, fe, ee⟩ := c
  unfold ctrlWord
  refine ⟨?_, ?_, ?_, ?_, ?_, ?_, ?_⟩
  case refine_2 => simp only [BitVec.getLsbD_append]; simp
  case refine_5 => simp only [BitVec.getLsbD_append]; simp
  case refine_6 => simp only [BitVec.getLsbD_append]; simp
  all_goals
    apply BitVec.eq_of_getLsbD_eq
    intro i hi
    simp only [BitVec.getLsbD_extractLsb', BitVec.getLsbD_append, BitVec.getLsbD_zero, hi, decide_true, Bool.true_and]
    repeat' split
    all_goals first | omega | rfl | (congr 1; omega)

end Sys2Proof.Machine
end

