-- ==== Sys2Proof/Laws/HostPort.lean ====
section
/-! SUPPORT. The Host's address map and accesses: where an address leads, what a read leaves alone, and the cases
of a write. -/

namespace Sys2Proof.Machine

/-- A window found by the map holds the address. -/
theorem locate_ram {p : Params} {addr : Nat} {sp : Space} {i : Nat} (h : locate p addr = .ram sp i) :
    inWindow p addr sp = true ∧ i = (addr - spaceBase sp) / 4 := by
  simp only [locate] at h
  split at h
  · cases h
  · split at h
    · rename_i sq hsq
      cases h
      exact ⟨by simpa using List.find?_some hsq, rfl⟩
    · cases h

/-- An aligned address in a window is the address of a word of that RAM. -/
theorem locate_ram_aligned {p : Params} {addr : Nat} {sp : Space} {i : Nat} (h : locate p addr = .ram sp i)
    (ha : addr % 4 = 0) : i < spaceWords p sp ∧ addr = spaceAddr sp i := by
  obtain ⟨hw, hi⟩ := locate_ram h
  simp only [inWindow, decide_eq_true_eq] at hw
  have hb : spaceBase sp % 4 = 0 := by cases sp <;> rfl
  simp only [spaceAddr]
  omega

/-- Every word of every RAM is reached at its address: the windows of legal parameters do not overlap. -/
theorem locate_spaceAddr {p : Params} (hp : p.legal = true) {sp : Space} {i : Nat} (hi : i < spaceWords p sp) :
    locate p (spaceAddr sp i) = .ram sp i := by
  have hb := legal_bounds hp
  have hin (sq : Space) : inWindow p (spaceAddr sp i) sq = decide (sq = sp) := by
    by_cases h : sq = sp
    · subst h
      simp only [inWindow, spaceAddr, decide_true]
      exact decide_eq_true (by omega)
    · simp only [h, decide_false, inWindow]
      apply decide_eq_false
      cases sp <;> cases sq <;>
        first
          | exact absurd rfl h
          | (simp only [spaceWords, spaceAddr, spaceBase] at *; omega)
  have hfind : allSpaces.find? (inWindow p (spaceAddr sp i)) = some sp := by
    cases sp <;> simp [allSpaces, List.find?, hin]
  have hreg : ¬ (spaceAddr sp i < 0x100) := by cases sp <;> simp only [spaceAddr, spaceBase] <;> omega
  simp only [locate, hfind, if_neg hreg]
  congr 1
  simp only [spaceAddr]
  omega

/-- A Host read changes at most the error registers and the count of draws. -/
theorem hostRead_frame (addr : Word) (s : State) :
    (hostRead addr s).2 =
      { s with
        err := (hostRead addr s).2.err
        errCode := (hostRead addr s).2.errCode
        errRegion := (hostRead addr s).2.errRegion
        errAux := (hostRead addr s).2.errAux
        draws := (hostRead addr s).2.draws } := by
  have hraise : ∀ e r a, raise e r a s =
      { s with
        err := (raise e r a s).err
        errCode := (raise e r a s).errCode
        errRegion := (raise e r a s).errRegion
        errAux := (raise e r a s).errAux
        draws := (raise e r a s).draws } := by
    intro e r a
    simp only [raise]
    split <;> rfl
  simp only [hostRead]
  split
  · exact hraise _ _ _
  · split
    · exact hraise _ _ _
    · rfl
    · split
      · rfl
      · split <;> rfl

/-- A Host write to a RAM word, while idle. -/
theorem hostWrite_ram_idle {s : State} (hp : s.params.legal = true) {sp : Space} {i : Nat}
    (hi : i < spaceWords s.params sp) {addr : Word} (ha : addr.toNat = spaceAddr sp i) (hb : busy s = false)
    (w : Word) : hostWrite addr w s = memWrite s sp i (storedWord sp w) := by
  have h4 : ¬ (spaceAddr sp i % 4 ≠ 0) := by cases sp <;> simp only [spaceAddr, spaceBase] <;> omega
  simp only [hostWrite, ha, if_neg h4, locate_spaceAddr hp hi, protectedWrite, hb]
  rfl

/-- The memory after a Host write: the old one, or one word of a window stored. -/
theorem hostWrite_mem (addr w : Word) (s : State) :
    (hostWrite addr w s).mem = s.mem ∨
      ∃ sp i, i < spaceWords s.params sp ∧ addr.toNat = spaceAddr sp i ∧
        (hostWrite addr w s).mem = writeWord s.mem (spaceAddr sp i) (storedWord sp w) := by
  have hprot (a : Word) (t : State) (h : t.mem = s.mem) : (protectedWrite a s t).mem = s.mem := by
    simp only [protectedWrite]
    split
    · simp
    · exact h
  simp only [hostWrite]
  split
  · left; simp
  · rename_i h4
    split
    · left; simp
    · rename_i r _
      left
      cases r <;> simp only [writeReg] <;> first
        | rfl
        | exact hprot _ _ rfl
        | (simp only [pushCommand]; split <;> simp)
        | (simp only [writeCtrl]; split <;> (try split) <;> simp)
    · rename_i sp i hl
      obtain ⟨hi, ha⟩ := locate_ram_aligned hl (by omega)
      simp only [protectedWrite]
      split
      · left; simp
      · right
        exact ⟨sp, i, hi, ha, rfl⟩

end Sys2Proof.Machine
end

