-- ==== Sys2Proof/Laws/PerInstr.lean ====
section
/-! SUPPORT. The per-command family EncodeFields: the encoding of a command holds its opcode and its fields. -/

namespace Sys2Proof.Laws.EncodeFields

/-- The fields of a command: COMP, RSVD and the argument. -/
def fieldsOf : Instr → BitVec 2 × BitVec 22 × Word
  | .nop comp rsvd arg => (comp, rsvd, arg)
  | .dispatch comp rsvd arg => (comp, rsvd, arg)
  | .signal comp rsvd arg => (comp, rsvd, arg)
  | .dcrst comp rsvd arg => (comp, rsvd, arg)
  | .dcenc comp rsvd arg => (comp, rsvd, arg)

/-- The encoding of a command has the command's opcode in OPC, and COMP, RSVD and the argument where R76 puts them
(spec/30_encoding.md R76, R78). -/
def Statement (i : Instr) : Prop :=
  opcField (encode i).word = opcodeOf i ∧
    (compField (encode i).word, rsvdField (encode i).word, (encode i).arg) = fieldsOf i

theorem nop (comp : BitVec 2) (rsvd : BitVec 22) (arg : Word) : Statement (.nop comp rsvd arg) := by
  simp [Statement, encode, opcodeOf, fieldsOf, opcField_commandWord, compField_commandWord, rsvdField_commandWord]

theorem dispatch (comp : BitVec 2) (rsvd : BitVec 22) (arg : Word) : Statement (.dispatch comp rsvd arg) := by
  simp [Statement, encode, opcodeOf, fieldsOf, opcField_commandWord, compField_commandWord, rsvdField_commandWord]

theorem signal (comp : BitVec 2) (rsvd : BitVec 22) (arg : Word) : Statement (.signal comp rsvd arg) := by
  simp [Statement, encode, opcodeOf, fieldsOf, opcField_commandWord, compField_commandWord, rsvdField_commandWord]

theorem dcrst (comp : BitVec 2) (rsvd : BitVec 22) (arg : Word) : Statement (.dcrst comp rsvd arg) := by
  simp [Statement, encode, opcodeOf, fieldsOf, opcField_commandWord, compField_commandWord, rsvdField_commandWord]

theorem dcenc (comp : BitVec 2) (rsvd : BitVec 22) (arg : Word) : Statement (.dcenc comp rsvd arg) := by
  simp [Statement, encode, opcodeOf, fieldsOf, opcField_commandWord, compField_commandWord, rsvdField_commandWord]

end Sys2Proof.Laws.EncodeFields
end

