-- ==== Sys2Proof/Laws/Samples.lean ====
section
/-! SUPPORT. The samples of a block, the colour conversion and the matrix products, element by element. -/

namespace Sys2Proof.Machine

/-- Sample `(i, j)` stands at index `8j + i` of a block. -/
theorem sampleBlock_getElem? (s : State) (c : Comp) (bx row : Nat) {i j : Nat} (hi : i < 8) (hj : j < 8) :
    (sampleBlock s c bx row)[8 * j + i]? =
      some (filterCell s.params c
        ((sampleCell s (footprint c s.ctrl.subsample).1 (footprint c s.ctrl.subsample).2 bx row i j).map
          fun xy => surfaceTexel s xy.1 xy.2)) := by
  have h : 8 * j + i < 64 := by omega
  have hm : (8 * j + i) % 8 = i := by omega
  have hd : (8 * j + i) / 8 = j := by omega
  simp only [sampleBlock, List.getElem?_map, List.getElem?_range h, Option.map_some, hm, hd]

/-- A finite value by its fields is finite. -/
theorem FiniteF32.toF32_finite (x : FiniteF32) : f32Finite x.toF32 = true := by
  have he : f32Exp x.toF32 = x.exp.val := by
    have h1 := x.exp.isLt
    have h2 := x.frac.isLt
    simp only [f32Exp, FiniteF32.toF32, BitVec.toNat_append, BitVec.toNat_ofNat]
    rw [← Nat.shiftLeft_add_eq_or_of_lt h2, Nat.mod_eq_of_lt (by omega : x.exp.val < 2 ^ 8),
      ← Nat.shiftLeft_add_eq_or_of_lt (by omega : x.exp.val < 2 ^ 8), Nat.shiftLeft_eq, Nat.shiftLeft_eq]
    omega
  simp only [f32Finite, he, bne_iff_ne]
  have := x.exp.isLt
  omega

/-- A rational of moderate magnitude rounds to a finite pattern, the nearest one. -/
theorem f32OfRatio_nearest (z : Int) (den : Nat) (hd : 0 < den) (hz : z.natAbs < 2 ^ 100) :
    f32Finite (f32OfRatio z den) = true ∧ NearestEven (f32OfRatio z den) ((z : ℚ) / den) := by
  have hdq : (1 : ℚ) ≤ den := by exact_mod_cast hd
  have hf : f32Finite (f32OfRatio z den) = true := by
    rw [f32OfRatio, f32Round_finite _ _ _ _ hd]
    have hzq : (z.natAbs : ℚ) < 2 ^ 100 := by exact_mod_cast hz
    have h1 : (z.natAbs : ℚ) / den ≤ z.natAbs := div_le_self (by positivity) hdq
    have h2 : (2 : ℚ) ^ 100 < 2 ^ 128 - 2 ^ 103 := by norm_num
    rw [zpow_zero, mul_one]
    exact lt_of_le_of_lt h1 (lt_trans hzq h2)
  refine ⟨hf, f32Round_nearest _ _ _ _ hd _ ?_ hf⟩
  have habs : (z : ℚ) = (if decide (z < 0) = true then -1 else 1) * (z.natAbs : ℚ) := by
    rcases lt_or_ge z 0 with h | h
    · rw [decide_eq_true h, if_pos rfl]
      have : ((z.natAbs : Int) : ℚ) = ((-z : Int) : ℚ) := by congr 1; omega
      rw [Int.cast_natCast] at this
      rw [this]
      push_cast
      ring
    · rw [decide_eq_false (by omega), if_neg (by decide), one_mul]
      have : ((z.natAbs : Int) : ℚ) = (z : ℚ) := by congr 1; omega
      rw [Int.cast_natCast] at this
      exact this.symm
  rw [zpow_zero, mul_one]
  conv_lhs => rw [habs]
  ring

/-- Every conversion of channels within range is finite, under any value of the parameter. -/
theorem colorConvert_finite (p : Params) (c : Comp) {r g b : Nat} (hr : r ≤ 255) (hg : g ≤ 255) (hb : b ≤ 255) :
    f32Finite (colorConvert p c r g b) = true := by
  simp only [colorConvert]
  split
  · cases c <;> exact (f32OfRatio_nearest _ _ (by norm_num) (by omega)).1
  · exact FiniteF32.toF32_finite _

/-- An entry of a matrix product: the left-to-right sum of its eight products. -/
theorem matMul_getElem? (a b : List F32) {r c : Nat} (hr : r < 8) (hc : c < 8) :
    (matMul a b)[8 * r + c]? =
      some (seqDot ((List.range 8).map fun k => (a.getD (8 * r + k) 0#32, b.getD (8 * k + c) 0#32))) := by
  have h : 8 * r + c < 64 := by omega
  have hm : (8 * r + c) % 8 = c := by omega
  have hd : (8 * r + c) / 8 = r := by omega
  simp only [matMul, List.getElem?_map, List.getElem?_range h, Option.map_some, hm, hd]

end Sys2Proof.Machine
end

