-- ==== Sys2Proof/Laws/Step.lean ====
section
/-! SUPPORT. The Engine's step and runs of several steps. -/

namespace Sys2Proof.Machine

/-- Every Engine step that answers a next state: idle, a command executed and removed, or a rejected entry recorded
and removed. -/
theorem engineStep_next {s t : State} (h : engineStep s = .next t) :
    (s.cq = [] ∧ t = s) ∨
    (∃ e q i u, s.cq = e :: q ∧ decode e = .ok i ∧ exec i s = .next u ∧ t = popCommand u) ∨
    (∃ e q k, s.cq = e :: q ∧ (k = .badOpcode ∨ k = .badComp) ∧ t = popCommand (raise k 0#32 e.word s)) := by
  simp only [engineStep] at h
  split at h
  · rename_i hq
    cases h
    exact .inl ⟨hq, rfl⟩
  · rename_i e q hq
    split at h
    · rename_i i hi
      cases hx : exec i s with
      | next u =>
        rw [hx] at h
        cases h
        exact .inr (.inl ⟨e, q, i, u, hq, hi, hx, rfl⟩)
      | fault => rw [hx] at h; cases h
      | refused => rw [hx] at h; cases h
    · cases h
      exact .inr (.inr ⟨e, q, _, hq, .inl rfl, rfl⟩)
    · cases h
      exact .inr (.inr ⟨e, q, _, hq, .inr rfl, rfl⟩)

/-- A run of one step more, from its first step. -/
theorem run_succ (k : Nat) (s : State) :
    Sys2Proof.core.run (k + 1) s =
      match step s with
      | .next t => Sys2Proof.core.run k t
      | .fault f => .fault f
      | .refused r => .refused r := by
  cases h : step s <;>
    (have hs : Sys2Proof.core.step s = _ := h
     simp [Host.Core.run, hs])

/-- A run in two parts. -/
theorem run_add (n k : Nat) (s : State) :
    Sys2Proof.core.run (n + k) s =
      match Sys2Proof.core.run n s with
      | .next t => Sys2Proof.core.run k t
      | .fault f => .fault f
      | .refused r => .refused r := by
  induction n generalizing s with
  | zero => simp [Host.Core.run]
  | succ n ih =>
    rw [show n + 1 + k = (n + k) + 1 by omega, run_succ, run_succ]
    cases step s with
    | next t => exact ih t
    | fault => rfl
    | refused => rfl

end Sys2Proof.Machine
end

