-- ==== Sys2Proof/Tests/Slice0.lean ====
section
/-! SUPPORT. Small checks of the model against the spec's own examples (spec/95_test_vectors.md and the examples of
the rules), the smoke test of WellFormed, and for each statement with hypotheses a concrete case that meets them
(`witness_<statement>`). -/

namespace Sys2Proof.Tests

open Sys2Proof.Machine

/-! ### Helpers -/

/-- The next state of an outcome, if it is one. -/
def nextOf : Host.Outcome State Fault Refusal → Option State
  | .next s => some s
  | .fault _ => none
  | .refused _ => none

/-- The fault of an outcome, if it is one. -/
def faultOf : Host.Outcome State Fault Refusal → Option Fault
  | .next _ => none
  | .fault f => some f
  | .refused _ => none

theorem next_of_nextOf {o : Host.Outcome State Fault Refusal} (h : (nextOf o).isSome = true) : ∃ t, o = .next t := by
  cases o with
  | next s => exact ⟨s, rfl⟩
  | fault => cases h
  | refused => cases h

/-- Small RAMs and a short queue (the capacities of 95_test_vectors.md program P3), QUALITY 12, so N = 6. -/
def small : State :=
  { State.reset with
    params := { Params.default with resultWords := 64, dcmWords := 4, cqDepth := 4 }
    ctrl := { State.reset.ctrl with quality := 12#7 } }

/-- `n` bytes of one value from address `a` on. -/
def fill (a n : Nat) (v : Byte) : Memory := (List.range n).map fun k => (a + k, v)

theorem readByte_fill (a n : Nat) (v : Byte) (rest : Memory) (b : Nat) :
    readByte (fill a n v ++ rest) b = if a ≤ b ∧ b < a + n then some v else readByte rest b := by
  have key : ∀ (l : List Nat) (m : Memory),
      readByte (l.map (fun k => (a + k, v)) ++ m) b = if ∃ k ∈ l, a + k = b then some v else readByte m b := by
    intro l m
    induction l with
    | nil => simp
    | cons k l ih =>
      simp only [List.map_cons, List.cons_append, readByte]
      by_cases h : a + k = b
      · simp [h]
      · rw [if_neg h, ih]
        simp [h]
  rw [fill, key]
  congr 1
  apply propext
  constructor
  · rintro ⟨k, hk, rfl⟩
    simp at hk
    omega
  · rintro ⟨h1, h2⟩
    exact ⟨b - a, by simp; omega, by omega⟩

/-- A memory whose eight tables and first region hold zeros. -/
def tabledMem : Memory := fill 0x1000 0xC30 0#8 ++ (fill 0x1C40 0x30 0#8 ++ fill 0x01000000 24 0#8)

/-- `small` with that memory. -/
def tabled : State := { small with mem := tabledMem }

theorem readByte_tabled (a : Nat) (h : (0x1000 ≤ a ∧ a < 0x1C30) ∨ (0x1C40 ≤ a ∧ a < 0x1C70)) :
    (readByte tabledMem a).isSome = true := by
  rw [tabledMem, readByte_fill, readByte_fill]
  rcases h with h | h
  · rw [if_pos (by omega)]; rfl
  · rw [if_neg (by omega), if_pos (by omega)]; rfl

theorem tabled_loaded : TablesLoaded tabled := by
  have key (sp : Space) (h : sp ≠ .result) (h' : sp ≠ .dcm) : SpaceDefined tabled sp := by
    intro i hi
    rw [memRead, readWord_isSome]
    intro k hk
    show (readByte tabledMem (spaceAddr sp i + k)).isSome = true
    apply readByte_tabled
    cases sp <;> first
      | exact absurd rfl h
      | exact absurd rfl h'
      | (simp only [spaceWords, spaceAddr, spaceBase] at *; omega)
  exact ⟨key _ (by decide) (by decide), key _ (by decide) (by decide), key _ (by decide) (by decide),
    key _ (by decide) (by decide), key _ (by decide) (by decide), key _ (by decide) (by decide),
    key _ (by decide) (by decide), key _ (by decide) (by decide)⟩

/-- `small` with one entry at the head of the queue. -/
def queued (w arg : Word) : State := { small with cq := [{ word := w, arg := arg }] }

/-- A state in which DCENC of region 0 and component Y codes the difference `dc`: its DC word, and one entry of
DCHUF0 at category `cat`. -/
def dcState (dc : Word) (cat : Nat) (entry : Word) : State :=
  memWrite (memWrite small .result 0 dc) .dchuf0 cat entry

/-! ### WellFormed: each check refuses an ill-formed command -/

theorem test_wellFormed_dispatch_refuses : (Instr.dispatch 3#2 0#22 0#32).wellFormed = false := by decide
theorem test_wellFormed_dcenc_refuses : (Instr.dcenc 3#2 0#22 0#32).wellFormed = false := by decide
theorem test_wellFormed_accepts : (Instr.signal 3#2 0#22 0#32).wellFormed = true := by decide

/-! ### Decoding: words written out from 30_encoding.md R76 and R78 -/

/-- OPC 0000_0000, COMP 00, RSVD 0. -/
theorem test_decode_nop : decodeTableWord 32 0b00000000_00_0000000000000000000000 = some (.nop 0#2 0#22 0#32) := by
  decide
/-- OPC 0000_0001, COMP 01 (Cb), RSVD 0. -/
theorem test_decode_dispatch :
    decodeTableWord 32 0b00000001_01_0000000000000000000000 = some (.dispatch 1#2 0#22 0#32) := by decide
/-- OPC 0000_0010; the argument is the second word. -/
theorem test_decode_signal :
    decodeTableWord 64 (7 * 2 ^ 32 + 0b00000010_00_0000000000000000000000) = some (.signal 0#2 0#22 7#32) := by decide
/-- OPC 0000_0011. -/
theorem test_decode_dcrst : decodeTableWord 32 0b00000011_00_0000000000000000000000 = some (.dcrst 0#2 0#22 0#32) := by
  decide
/-- OPC 0000_0100, COMP 10 (Cr), RSVD all ones; the argument is the second word. -/
theorem test_decode_dcenc :
    decodeTableWord 64 (4 * 2 ^ 32 + 0b00000100_10_1111111111111111111111) = some (.dcenc 2#2 0x3FFFFF#22 4#32) := by
  decide
/-- COMP 11 on DISPATCH and OPC 0000_0101 are rejected by name. -/
theorem test_decode_rejects :
    decode { word := 0x01C00000#32, arg := 0#32 } = .error .badComp ∧
      decode { word := 0x05000000#32, arg := 0#32 } = .error .badOpcode := by decide

/-- `withFetchWord` makes the next step execute the command: SIGNAL 7 (43_sync.md R178). -/
theorem test_withFetchWord :
    ((nextOf (step (State.reset.withFetchWord 64 (7 * 2 ^ 32 + 0x02000000)))).map fun t =>
      (t.fenceCompleted, t.cq, t.inputs)) = some (7#32, [], []) := by decide

/-! ### The spec's vectors -/

/-- 95_test_vectors.md H4, H5: QUALITY 0 is stored as 1, 127 as 100. -/
theorem test_ctrl_quality :
    (hostRead 0x008#32 (hostWrite 0x008#32 0x00000000#32 State.reset)).1 = 0x00000001#32 ∧
      (hostRead 0x00C#32 (hostWrite 0x008#32 0x00000000#32 State.reset)).1 = 6#32 ∧
      (hostRead 0x008#32 (hostWrite 0x008#32 0x0000007F#32 State.reset)).1 = 0x00000064#32 := by decide
/-- H6, H7: SUBSAMPLE 3 leaves the field. -/
theorem test_ctrl_subsample :
    (hostRead 0x008#32 (hostWrite 0x008#32 0x00000332#32 (hostWrite 0x008#32 0x00000255#32 State.reset))).1 =
      0x00000232#32 := by decide
/-- H15: ERR is write-1-to-clear. -/
theorem test_err_clear : (hostWrite 0x010#32 0x00000010#32 { small with err := 0x0011#13 }).err = 0x0001#13 := by decide
/-- E21: a CTRL write that would change QUALITY while busy. -/
theorem test_ctrl_busy :
    let t := hostWrite 0x008#32 0x00000033#32 (queued 0#32 0#32)
    (t.err, t.errCode, t.errAux, t.ctrl.quality) = (0x0800#13, 12#8, 0x00000008#32, 12#7) := by decide
/-- H17: STATUS of a full queue of 4 with a pending error interrupt. -/
theorem test_status :
    (hostRead 0x004#32 { small with
      cq := List.replicate 4 { word := 0#32, arg := 0#32 }, err := 1#13,
      ctrl := { small.ctrl with errIrqEn := true } }).1 = 0x00000407#32 := by decide
/-- E22: a misaligned read. -/
theorem test_bus_error :
    ((hostRead 0x002#32 small).1, (hostRead 0x002#32 small).2.err, (hostRead 0x002#32 small).2.errAux) =
      (0#32, 0x1000#13, 0x00000002#32) := by decide
/-- 42_dc_coder.md R156, the example: DC 50, predictor 0, category 6 with the code 1110. -/
theorem test_dcenc_example :
    ((nextOf (exec (.dcenc 0#2 0#22 0#32) (dcState 50#32 6 0x0004000E#32))).map fun t =>
      (memRead t .dcm 0, t.prevDc.y, t.err)) = some (some 0x500003B2#32, 50#32, 0#13) := by decide
/-- 42_dc_coder.md R155, the example. -/
theorem test_dcrst_example :
    ((nextOf (exec (.dcrst 0#2 0#22 0#32) { small with prevDc := { y := 50#32, cb := 0xFFFFFFFD#32, cr := 7#32 } })).map
      fun t => t.prevDc) = some { y := 0#32, cb := 0#32, cr := 0#32 } := by decide
/-- E8: four regions of N = 18 words do not fit in 64 words. -/
theorem test_dispatch_range :
    ((nextOf (exec (.dispatch 0#2 0#22 0#32) { small with
      surfW := 8#16, surfH := 8#16, ctrl := { small.ctrl with quality := 50#7 },
      comps := { small.comps with y := { nb := 0x00010004#32, base := 0#22, sel := 0#3 } } })).map
      fun t => (t.err, t.errCode, t.errAux, t.mem.length)) = some (0x0010#13, 5#8, 0x01000000#32, 0) := by decide
/-- E7: an empty grid is a no-op, checked before CFG. -/
theorem test_dispatch_empty :
    ((nextOf (exec (.dispatch 0#2 0#22 0#32) small)).map fun t => (t.err, t.mem)) = some (0#13, []) := by decide

/-- 41_zigzag_ac.md R135, the examples of `Amp`. -/
theorem test_amplitude :
    (amplitude 1 1, amplitude (-1) 1, amplitude (-3) 2, amplitude 6 3, amplitude (-27) 5) = (1, 0, 0, 6, 4) := by decide
/-- 40_dispatch.md R111, the examples of `Round` under the default: 2.5, 3.5, -2.5. -/
theorem test_round :
    (f32ToInt .tiesEven 0x40200000#32, f32ToInt .tiesEven 0x40600000#32, f32ToInt .tiesEven 0xC0200000#32) =
      (some 2, some 4, some (-2)) := by decide
/-- 40_dispatch.md R111: the quotient of the flat-127 block, `0x447DFFFF ⊘ 16`, rounds to 63. -/
theorem test_quotient : f32ToInt .tiesEven (f32Div 0x447DFFFF#32 0x41800000#32) = some 63 := by decide

/-- The entries of the standard luma AC table that the next tests use (95_test_vectors.md §3): EOB 1010, 01 = 00,
0A = 1111111110000011, ZRL = 11111111001, E1 = 1111111111101011. -/
def lumaAc (rs : Nat) : Option Word :=
  if rs = 0x00 then some 0x0004000A#32
  else if rs = 0x01 then some 0x00020000#32
  else if rs = 0x0A then some 0x0010FF83#32
  else if rs = 0xF0 then some 0x000B07F9#32
  else if rs = 0xE1 then some 0x0010FFEB#32
  else some 0#32

/-- V4.6: q63 = 1, a run of 62 = 3·16 + 14 and no EOB: 50 bits. -/
theorem test_region_zrl :
    encodeRegion lumaAc 6 (List.replicate 63 0 ++ [1]) =
      .ok { words := [0#32, 0xFF3FE7FC#32, 0xFFF5C000#32, 0#32, 0#32, 0x32#32], err := none } := by decide
/-- V4.10: q0 = -7, q1 = -1023. -/
theorem test_region_negative :
    encodeRegion lumaAc 6 ([-7, -1023] ++ List.replicate 62 0) =
      .ok { words := [0xFFFFFFF9#32, 0xFF830028#32, 0#32, 0#32, 0#32, 0x1E#32], err := none } := by decide
/-- V4.12: q63 = -1024 is AC_CATEGORY. -/
theorem test_region_category :
    encodeRegion lumaAc 6 ([3] ++ List.replicate 62 0 ++ [-1024]) =
      .ok { words := [3#32, 0#32, 0#32, 0#32, 0#32, 0xFFFFFFFF#32], err := some (.acCategory, 0xFFFFFC00#32) } := by
  decide
/-- V4.8: all 64 coefficients 1 need 189 bits, more than the 128 of N = 6. -/
theorem test_region_overflow :
    encodeRegion lumaAc 6 (List.replicate 64 1) =
      .ok { words := [1#32, 0x24924924#32, 0x92492492#32, 0x49249249#32, 0x24924924#32, 0xFFFFFFFF#32]
            err := some (.acOverflow, 189#32) } := by decide +kernel

/-! ### Witnesses: for every statement with hypotheses, a case that meets them -/

/-- An entry at the head of the queue, for each rejected word of the rule. -/
theorem witness_EncodingExamplesDecodeAsStated :
    (queued 0x04C00000#32 0#32).cq = { word := 0x04C00000#32, arg := 0#32 } :: [] ∧
      (queued 0x7F000000#32 0#32).cq = { word := 0x7F000000#32, arg := 0#32 } :: [] ∧
      (queued 0x01FFFFFF#32 0#32).cq = { word := 0x01FFFFFF#32, arg := 0#32 } :: [] := by decide

/-- COMP 2, the largest legal field, on both commands that use it. -/
theorem witness_DecodeOfEncodeIsTheCommand :
    (Instr.dispatch 2#2 0x3FFFFF#22 0xFFFFFFFF#32).wellFormed = true ∧ (Instr.dcenc 2#2 0#22 0#32).wellFormed = true := by
  decide

theorem witness_EncodeOfDecodeIsTheEntry :
    decode { word := 0x04BFFFFF#32, arg := 0xFFFFFFFF#32 } = .ok (.dcenc 2#2 0x3FFFFF#22 0xFFFFFFFF#32) := by decide

/-- The last row; a word that decodes; and rejected words of both kinds. -/
theorem witness_OpcodeRowsMatchTheirOpcodeOnly :
    opcodeRows[4]? = some (0x04000000#32, 0xFF000000#32) ∧
      decode { word := 0x04400000#32, arg := 0#32 } = .ok (.dcenc 1#2 0#22 0#32) ∧
      (∀ i, decode { word := 0x05000000#32, arg := 0#32 } ≠ .ok i) ∧
      (∀ i, decode { word := 0x01C00000#32, arg := 0#32 } ≠ .ok i) := by
  have h1 : decode { word := 0x05000000#32, arg := 0#32 } = .error .badOpcode := by decide
  have h2 : decode { word := 0x01C00000#32, arg := 0#32 } = .error .badComp := by decide
  refine ⟨by decide, by decide, ?_, ?_⟩
  · intro i h
    rw [h1] at h
    cases h
  · intro i h
    rw [h2] at h
    cases h

/-- The smallest and the largest reserved opcode at the head, and a queue with one free place. -/
theorem witness_ReservedOpcodeIsRecordedAndRemoved :
    (queued 0x05000000#32 0#32).cq = { word := 0x05000000#32, arg := 0#32 } :: [] ∧
      5 ≤ (opcField 0x05000000#32).toNat ∧ 5 ≤ (opcField 0xFFFFFFFF#32).toNat ∧
      ({ small with cq := List.replicate 3 { word := 0#32, arg := 0#32 } } : State).cq.length ≠ small.params.cqDepth := by
  decide

theorem witness_ComponentFieldSelectsOrIsRejected :
    (queued 0x01C00000#32 0#32).cq = { word := 0x01C00000#32, arg := 0#32 } :: [] ∧
      compField 0x01C00000#32 = 3#2 ∧ opcField 0x01C00000#32 = 0x01#8 ∧
      compField 0x04FFFFFF#32 = 3#2 ∧ opcField 0x04FFFFFF#32 = 0x04#8 ∧
      opcField 0x00C00000#32 = 0x00#8 ∧ opcField 0x02C00000#32 = 0x02#8 ∧ opcField 0x03C00000#32 = 0x03#8 := by decide

/-- A DISPATCH and a DCENC that answer a next state. -/
theorem witness_ReservedBitsReachErrAuxOnly :
    (∃ t, exec (.dispatch 3#2 1#22 0#32) small = .next t) ∧ (∃ t, exec (.dcenc 0#2 1#22 4#32) small = .next t) :=
  ⟨next_of_nextOf (by decide), next_of_nextOf (by decide)⟩

theorem witness_StepRunsTheDecodedCommand :
    (queued 0x03000000#32 0#32).cq = { word := 0x03000000#32, arg := 0#32 } :: [] ∧
      decode { word := 0x03000000#32, arg := 0#32 } = .ok (.dcrst 0#2 0#22 0#32) ∧
      (queued 0x03000000#32 0#32).inputs = [] ∧
      ({ queued 0x03000000#32 0#32 with inputs := [.engine, .reset] } : State).inputs = .engine :: [.reset] := by decide

theorem witness_EngineStepRemovesExactlyTheHead :
    (∃ t, engineStep (queued 0x03000000#32 0#32) = .next t) ∧
      (queued 0x05000000#32 0#32).cq = { word := 0x05000000#32, arg := 0#32 } :: [] ∧
      decode { word := 0x05000000#32, arg := 0#32 } = .error .badOpcode ∧
      decode { word := 0x04C00000#32, arg := 0#32 } = .error .badComp ∧ State.reset.cq = [] ∧ State.reset.inputs = [] :=
  ⟨next_of_nextOf (by decide), by decide, by decide, by decide, rfl, rfl⟩

/-- A wait that holds at the boundary `v = FENCE_COMPLETED`, one that does not with a command queued, and one that
does not with none. -/
theorem witness_HostWaitEndsWhenItsConditionHolds :
    (waitHolds { small with fenceCompleted := 7#32, inputs := [.wait (.fenceAtLeast 7#32)] } (.fenceAtLeast 7#32) =
        true) ∧
      (waitHolds { queued 0#32 0#32 with inputs := [.wait (.fenceAtLeast 1#32)] } (.fenceAtLeast 1#32) = false ∧
        (queued 0#32 0#32).cq ≠ []) ∧
      (waitHolds { small with inputs := [.wait .irqHigh] } .irqHigh = false ∧ small.cq = []) := by decide

theorem witness_NopChangesOnlyTheQueue :
    (queued 0x00FFFFFF#32 0#32).cq = { word := 0x00FFFFFF#32, arg := 0#32 } :: [] ∧ opcField 0x00FFFFFF#32 = 0x00#8 := by
  decide

theorem witness_SignalPublishesItsArgument : opcField 0x02C00000#32 = 0x02#8 := by decide

theorem witness_DcrstClearsTheThreePredictors : opcField 0x03FFFFFF#32 = 0x03#8 := by decide

theorem size_50 : Nat.size 50 = 6 := by
  have h : some (Nat.size 50) = some 6 := by
    have := catLut_eq 50
    rw [if_pos (by omega)] at this
    rw [← this]
    decide
  exact Option.some.inj h

theorem size_2047 : Nat.size 2047 = 11 := by
  have h : some (Nat.size 2047) = some 11 := by
    have := catLut_eq 2047
    rw [if_pos (by omega)] at this
    rw [← this]
    decide
  exact Option.some.inj h

/-- Differences 50 (LEN 4) and, at the bound, 2047 (LEN 16). -/
theorem witness_DcencWritesTheCodedDifference :
    (compOf 0#2 = some .y ∧ ((0#32 : Word).toNat + 1) * ebs (dcState 50#32 6 0x0004000E#32) ≤ 64 ∧
        (0#32 : Word).toNat < small.params.dcmWords ∧
        memRead (dcState 50#32 6 0x0004000E#32) .result 0 = some 50#32 ∧
        (50 : Int) = (50#32 : Word).toInt - ((dcState 50#32 6 0x0004000E#32).prevDc.get .y).toInt ∧
        6 = Nat.size (50 : Int).natAbs ∧ memRead (dcState 50#32 6 0x0004000E#32) .dchuf0 6 = some 0x0004000E#32 ∧
        (0x0004000E#32 : Word).extractLsb' 16 5 = 4#5) ∧
      (memRead (dcState 2047#32 11 0x0010FFFE#32) .result 0 = some 2047#32 ∧
        (2047 : Int) = (2047#32 : Word).toInt - ((dcState 2047#32 11 0x0010FFFE#32).prevDc.get .y).toInt ∧
        11 = Nat.size (2047 : Int).natAbs ∧
        memRead (dcState 2047#32 11 0x0010FFFE#32) .dchuf0 11 = some 0x0010FFFE#32 ∧
        ((0x0010FFFE#32 : Word).extractLsb' 16 5).toNat = 16) := by
  refine ⟨⟨by decide, by decide, by decide, by decide, by decide, size_50.symm, by decide, by decide⟩,
    by decide, by decide, size_2047.symm, by decide, by decide⟩

/-- The longest bitstring: 27 bits. -/
theorem witness_DcmWordHoldsLengthAndBitstring :
    1 ≤ 16 ∧ 16 ≤ 16 ∧ 11 ≤ 11 ∧ 65535 < 2 ^ 16 ∧ 11 = Nat.size (-2047 : Int).natAbs :=
  ⟨by omega, by omega, by omega, by omega, size_2047.symm⟩

/-- At the bound: a difference of 2048. -/
theorem witness_DcencTooLargeDifferenceIsRecorded :
    compOf 0#2 = some .y ∧ ((0#32 : Word).toNat + 1) * ebs (dcState 2048#32 0 0#32) ≤ 64 ∧
      (0#32 : Word).toNat < small.params.dcmWords ∧ memRead (dcState 2048#32 0 0#32) .result 0 = some 2048#32 ∧
      (2048 : Int) = (2048#32 : Word).toInt - ((dcState 2048#32 0 0#32).prevDc.get .y).toInt ∧
      2048 ≤ (2048 : Int).natAbs := by decide

/-- LEN = 0 and, at the other bound, LEN = 17. -/
theorem witness_DcencMissingCodeIsRecorded :
    memRead (dcState 50#32 6 0#32) .result 0 = some 50#32 ∧ memRead (dcState 50#32 6 0#32) .dchuf0 6 = some 0#32 ∧
      (50 : Int) = (50#32 : Word).toInt - ((dcState 50#32 6 0#32).prevDc.get .y).toInt ∧ 6 = Nat.size (50 : Int).natAbs ∧
      ((0#32 : Word).extractLsb' 16 5).toNat = 0 ∧ 16 < ((0x00110000#32 : Word).extractLsb' 16 5).toNat :=
  ⟨by decide, by decide, by decide, size_50.symm, by decide, by decide⟩

/-- A surface and a luma grid of two blocks; `base` places it. -/
def twoBlocks (base : BitVec 22) : State :=
  { small with
    surfW := 16#16, surfH := 8#16
    comps := { small.comps with y := { nb := 0x00010002#32, base := base, sel := 0#3 } } }

/-- Two regions of 6 words from region 9 end at word 66, past the 64 of RESULT; from region 8 they fit. The DCENCs
are out of RESULT, and at the first word outside DCM. -/
theorem witness_RangeErrorsWriteNothing :
    compOf 0#2 = some .y ∧ gridCols (twoBlocks 9#22) .y * gridRows (twoBlocks 9#22) .y ≠ 0 ∧
      (twoBlocks 9#22).surfW ≠ 0#16 ∧ (twoBlocks 9#22).surfH ≠ 0#16 ∧
      small.params.resultWords <
        (regionBase (twoBlocks 9#22) .y + gridCols (twoBlocks 9#22) .y * gridRows (twoBlocks 9#22) .y) *
          ebs (twoBlocks 9#22) ∧
      small.params.resultWords < ((10#32 : Word).toNat + 1) * ebs small ∧
      small.params.dcmWords ≤ (4#32 : Word).toNat := by decide

/-- RESULT undefined; then the DC word defined and the table entry of its category undefined. -/
theorem witness_DcencFaultsOnUndefinedWords :
    compOf 0#2 = some .y ∧ ((0#32 : Word).toNat + 1) * ebs small ≤ small.params.resultWords ∧
      (0#32 : Word).toNat < small.params.dcmWords ∧ memRead small .result 0 = none ∧
      memRead (memWrite small .result 0 50#32) .result 0 = some 50#32 ∧
      memRead (memWrite small .result 0 50#32) (dchufOf small .y) 6 = none ∧
      faultOf (exec (.dcenc 0#2 0#22 0#32) (memWrite small .result 0 50#32)) = some (.undefinedRead .dchuf0 6) := by
  decide

theorem witness_DcencChangesItsPredictorAndItsWordOnly :
    (∃ t, exec (.dcenc 0#2 0#22 0#32) (dcState 50#32 6 0x0004000E#32) = .next t) ∧ compOf 0#2 ≠ some .cb ∧
      compOf 3#2 = none ∧ dcRangeOk small 4 = false :=
  ⟨next_of_nextOf (by decide), by decide, by decide, by decide⟩

/-- Between the two DCENCs of Y: a NOP and a DCENC of Cb that is out of range. -/
theorem witness_DifferencesAreTakenAgainstTheLastCodedDc :
    (∀ i ∈ [Instr.nop 0#2 0#22 0#32, .dcenc 1#2 0#22 4#32], (∀ comp rsvd arg, i ≠ .dcrst comp rsvd arg) ∧
      (∀ comp rsvd arg, compOf comp = some .y → i ≠ .dcenc comp rsvd arg)) ∧
    (∃ t u, exec (.dcenc 0#2 0#22 0#32) (dcState 50#32 6 0x0004000E#32) = .next t ∧
      execAll [Instr.nop 0#2 0#22 0#32, .dcenc 1#2 0#22 4#32] t = .next u) ∧
    (∃ t u, exec (.dcrst 0#2 0#22 0#32) small = .next t ∧
      execAll [Instr.nop 0#2 0#22 0#32, .dcenc 1#2 0#22 4#32] t = .next u) ∧
    (∃ t u, step { small with inputs := [.reset] } = .next t ∧
      execAll [Instr.nop 0#2 0#22 0#32, .dcenc 1#2 0#22 4#32] t = .next u) := by
  have chain (o : Host.Outcome State Fault Refusal)
      (h : ((nextOf o).bind fun t => nextOf (execAll [Instr.nop 0#2 0#22 0#32, .dcenc 1#2 0#22 4#32] t)).isSome = true) :
      ∃ t u, o = .next t ∧ execAll [Instr.nop 0#2 0#22 0#32, .dcenc 1#2 0#22 4#32] t = .next u := by
    cases o with
    | next s =>
      obtain ⟨u, hu⟩ := next_of_nextOf (o := execAll _ s) h
      exact ⟨s, u, rfl, hu⟩
    | fault => cases h
    | refused => cases h
  refine ⟨?_, chain _ (by decide), chain _ (by decide), chain _ (by decide)⟩
  intro i hi
  simp only [List.mem_cons, List.not_mem_nil, or_false] at hi
  rcases hi with rfl | rfl
  · exact ⟨fun _ _ _ h => (by cases h), fun _ _ _ _ h => (by cases h)⟩
  · refine ⟨fun _ _ _ h => (by cases h), ?_⟩
    intro comp rsvd arg hc h
    cases h
    revert hc
    decide

/-- A non-empty grid without a width, one without a height, and an empty grid. -/
theorem witness_DispatchWithoutASurfaceIsRecorded :
    compOf 0#2 = some .y ∧ gridCols (twoBlocks 0#22) .y * gridRows (twoBlocks 0#22) .y ≠ 0 ∧
      ({ twoBlocks 0#22 with surfW := 0#16 } : State).surfW = 0#16 ∧
      ({ twoBlocks 0#22 with surfH := 0#16 } : State).surfH = 0#16 ∧ gridCols small .y = 0 := by decide

/-- A surface of two 8×8 blocks, the first grey 128 and the second grey 255: the samples are 0 and 127. -/
def twoGreys : List (List Word) :=
  List.replicate 8 (List.replicate 8 0xFF808080#32 ++ List.replicate 8 0xFFFFFFFF#32)

/-- `twoBlocks` with every table word zero, so that every divisor is invalid. -/
def twoFailing : State := { twoBlocks 0#22 with mem := tabled.mem, surface := twoGreys }

theorem witness_DispatchWritesEveryRegionOfTheGrid :
    compOf 0#2 = some .y ∧ gridCols twoFailing .y * gridRows twoFailing .y ≠ 0 ∧ twoFailing.surfW ≠ 0#16 ∧
      twoFailing.surfH ≠ 0#16 ∧
      (regionBase twoFailing .y + gridCols twoFailing .y * gridRows twoFailing .y) * ebs twoFailing ≤
        twoFailing.params.resultWords ∧
      SpaceDefined twoFailing .dmat ∧ SpaceDefined twoFailing .dtmat ∧ SpaceDefined twoFailing (qtabOf twoFailing .y) ∧
      SpaceDefined twoFailing (achufOf twoFailing .y) ∧ 1 < gridCols twoFailing .y ∧ 0 < gridRows twoFailing .y := by
  obtain ⟨d1, d2, d3, _, d5, _⟩ := tabled_loaded
  exact ⟨by decide, by decide, by decide, by decide, by decide, d1, d2, d3, d5, by decide, by decide⟩

/-- A memory whose DMAT and DTMAT hold one value and whose QTAB0 another, with `rest` behind them. -/
def tablesMem (rest : Memory) : Memory := fill 0x1000 0x200 0x3F#8 ++ (fill 0x1200 0x100 0x30#8 ++ rest)

/-- The memory of the next state. -/
def splitMem : Memory := tablesMem [(0x1400, 0x01#8), (0x1401, 0x01#8), (0x1402, 0x01#8), (0x1403, 0x00#8)]

/-- `twoBlocks` with tables of one value each: `D` and `Dt` hold 0x3F3F3F3F (0.747), the divisors 0x30303030
(6.4e-10), ACHUF0 the one-bit code 0x00010101. Block (0, 0) is all zero and codes as EOB; the DC quotient of block
(1, 0) is no int32. -/
def splitState : State := { twoBlocks 0#22 with mem := splitMem, surface := twoGreys }

/-- The tables of `splitState`. -/
def splitTables : Tables :=
  { d := List.replicate 64 0x3F3F3F3F#32, dt := List.replicate 64 0x3F3F3F3F#32, q := List.replicate 64 0x30303030#32 }

theorem fetchWords_const {s : State} {sp : Space} {i n : Nat} {w : Word}
    (h : ∀ k, k < n → memRead s sp (i + k) = some w) : fetchWords s sp i n = .ok (List.replicate n w) := by
  induction n generalizing i with
  | zero => rfl
  | succ n ih =>
    have h0 := fetchWord_ok.mpr (h 0 (by omega))
    have hr := ih (i := i + 1) (by
      intro k hk
      have := h (k + 1) (by omega)
      rwa [show i + (k + 1) = i + 1 + k by omega] at this)
    rw [Nat.add_zero] at h0
    simp only [fetchWords, h0, hr, List.replicate_succ]

theorem readByte_tablesMem {rest : Memory} {a : Nat} {v : Byte}
    (h : (0x1000 ≤ a ∧ a < 0x1200 ∧ v = 0x3F#8) ∨ (0x1200 ≤ a ∧ a < 0x1300 ∧ v = 0x30#8)) :
    readByte (tablesMem rest) a = some v := by
  rw [tablesMem, readByte_fill, readByte_fill]
  rcases h with ⟨_, _, rfl⟩ | ⟨_, _, rfl⟩
  · rw [if_pos (by omega)]
  · rw [if_neg (by omega), if_pos (by omega)]

theorem readWord_const {m : Memory} {a : Nat} {v : Byte} {w : Word} (hw : wordOfBytes v v v v = w)
    (h : ∀ j, j < 4 → readByte m (a + j) = some v) : readWord m a = some w := by
  have b0 := h 0 (by omega)
  rw [Nat.add_zero] at b0
  rw [readWord, b0, h 1 (by omega), h 2 (by omega), h 3 (by omega), ← hw]

theorem fetchTables_of {s : State} {c : Comp} {d dt q : List Word} (hd : fetchWords s .dmat 0 64 = .ok d)
    (hdt : fetchWords s .dtmat 0 64 = .ok dt) (hq : fetchWords s (qtabOf s c) 0 64 = .ok q) :
    fetchTables s c = .ok { d := d, dt := dt, q := q } := by
  simp only [fetchTables, hd, hdt, hq]

theorem tablesMem_words {s : State} {rest : Memory} (hm : s.mem = tablesMem rest) (k : Nat) (hk : k < 64) :
    memRead s .dmat k = some 0x3F3F3F3F#32 ∧ memRead s .dtmat k = some 0x3F3F3F3F#32 ∧
      memRead s .qtab0 k = some 0x30303030#32 := by
  refine ⟨?_, ?_, ?_⟩ <;> rw [memRead, hm]
  · exact readWord_const (v := 0x3F#8) (by decide) fun j hj =>
      readByte_tablesMem (.inl ⟨by simp only [spaceAddr, spaceBase]; omega, by simp only [spaceAddr, spaceBase]; omega, rfl⟩)
  · exact readWord_const (v := 0x3F#8) (by decide) fun j hj =>
      readByte_tablesMem (.inl ⟨by simp only [spaceAddr, spaceBase]; omega, by simp only [spaceAddr, spaceBase]; omega, rfl⟩)
  · exact readWord_const (v := 0x30#8) (by decide) fun j hj =>
      readByte_tablesMem (.inr ⟨by simp only [spaceAddr, spaceBase]; omega, by simp only [spaceAddr, spaceBase]; omega, rfl⟩)

theorem split_tables {s : State} {rest : Memory} (hm : s.mem = tablesMem rest) (hs : qtabOf s .y = .qtab0) :
    fetchTables s .y = .ok splitTables := by
  refine fetchTables_of (fetchWords_const ?_) (fetchWords_const ?_) (fetchWords_const ?_) <;> intro k hk <;>
    rw [Nat.zero_add]
  · exact (tablesMem_words hm k hk).1
  · exact (tablesMem_words hm k hk).2.1
  · rw [hs]
    exact (tablesMem_words hm k hk).2.2

theorem split_fetchTables : fetchTables splitState .y = .ok splitTables := split_tables rfl rfl

/-- The error of a block, or BUS_ERROR (never raised by a block) for a fault. -/
def blockErr (o : Except Fault BlockOut) : Option (ErrKind × Word) :=
  match o with
  | .ok out => out.err
  | .error _ => some (.busError, 0#32)

/-- The product of two matrices of one value each is a matrix of one value. -/
theorem matMul_const (a b : F32) :
    matMul (List.replicate 64 a) (List.replicate 64 b) = List.replicate 64 (seqDot (List.replicate 8 (a, b))) := by
  have get (x : F32) (n : Nat) (h : n < 64) : (List.replicate 64 x).getD n 0#32 = x := by
    rw [List.getD_eq_getElem?_getD, List.getElem?_replicate, if_pos h]
    rfl
  apply List.ext_getElem
  · simp [matMul]
  · intro n h1 h2
    simp only [matMul, List.length_map, List.length_range] at h1
    simp only [matMul, List.getElem_map, List.getElem_range, List.getElem_replicate]
    congr 1
    apply List.ext_getElem
    · simp
    · intro k k1 k2
      simp only [List.length_map, List.length_range] at k1
      simp only [List.getElem_map, List.getElem_range, List.getElem_replicate]
      rw [get _ _ (by omega), get _ _ (by omega)]

theorem split_samples_zero : sampleBlock splitState .y 0 0 = List.replicate 64 0#32 := by decide +kernel

theorem split_samples_full : sampleBlock splitState .y 1 0 = List.replicate 64 0x42FE0000#32 := by decide +kernel

theorem split_dot_zero :
    seqDot (List.replicate 8 (0x3F3F3F3F#32, 0#32)) = 0#32 ∧ seqDot (List.replicate 8 (0#32, 0x3F3F3F3F#32)) = 0#32 := by
  decide +kernel

theorem split_first : blockErr (blockOut splitState .y splitTables (0, 0)) = none := by
  have hf : fdct splitState.params splitTables.d splitTables.dt (List.replicate 64 0#32) = List.replicate 64 0#32 := by
    show matMul (matMul (List.replicate 64 _) (List.replicate 64 _)) (List.replicate 64 _) = _
    rw [matMul_const, split_dot_zero.1, matMul_const, split_dot_zero.2]
  simp only [blockOut, split_samples_zero, encodeBlock, hf]
  decide +kernel

theorem split_second : blockErr (blockOut splitState .y splitTables (1, 0)) = some (.quantInvalid, 0#32) := by
  have hf : fdct splitState.params splitTables.d splitTables.dt (List.replicate 64 0x42FE0000#32) =
      List.replicate 64 (seqDot (List.replicate 8
        (seqDot (List.replicate 8 (0x3F3F3F3F#32, 0x42FE0000#32)), 0x3F3F3F3F#32))) := by
    show matMul (matMul (List.replicate 64 _) (List.replicate 64 _)) (List.replicate 64 _) = _
    rw [matMul_const, matMul_const]
  simp only [blockOut, split_samples_full, encodeBlock, hf]
  decide +kernel

theorem dispatch_two_next {s : State} {comp : BitVec 2} {rsvd : BitVec 22} {arg : Word} {c : Comp} {tb : Tables}
    {b1 b2 : Nat × Nat} {o1 o2 : BlockOut} (c0 : compOf comp = some c) (c1 : ¬ gridCols s c * gridRows s c = 0)
    (c2 : ¬ (s.surfW = 0#16 ∨ s.surfH = 0#16)) (c3 : gridFits s c = true)
    (hg : gridBlocks (gridCols s c) (gridRows s c) = [b1, b2]) (ht : fetchTables s c = .ok tb)
    (h1 : blockOut s c tb b1 = .ok o1) (h2 : blockOut s c tb b2 = .ok o2) :
    ∃ t, exec (.dispatch comp rsvd arg) s = .next t := by
  simp only [exec, execDispatch, c0, if_neg c1, if_neg c2, c3, if_true, dispatchGrid, ht, hg, blockOuts, h1, h2]
  exact ⟨_, rfl⟩

/-- The first block has no error and the second has: `pre` is one block, and the captured region is 1. -/
theorem witness_DispatchCapturesTheFirstFailingBlock :
    compOf 0#2 = some .y ∧ gridCols splitState .y * gridRows splitState .y ≠ 0 ∧ splitState.surfW ≠ 0#16 ∧
      splitState.surfH ≠ 0#16 ∧ gridFits splitState .y = true ∧ splitState.err = 0#13 ∧
      gridBlocks (gridCols splitState .y) (gridRows splitState .y) = [(0, 0)] ++ (1, 0) :: [] ∧
      fetchTables splitState .y = .ok splitTables ∧ (∃ t, exec (.dispatch 0#2 0#22 0#32) splitState = .next t) ∧
      (∃ out, blockOut splitState .y splitTables (0, 0) = .ok out ∧ out.err = none) ∧
      ∃ out, blockOut splitState .y splitTables (1, 0) = .ok out ∧ out.err = some (.quantInvalid, 0#32) := by
  have out (blk : Nat × Nat) (e : Option (ErrKind × Word)) (he : e ≠ some (.busError, 0#32))
      (h : blockErr (blockOut splitState .y splitTables blk) = e) :
      ∃ out, blockOut splitState .y splitTables blk = .ok out ∧ out.err = e := by
    cases hb : blockOut splitState .y splitTables blk with
    | ok o =>
      rw [hb] at h
      exact ⟨o, rfl, h⟩
    | error f =>
      rw [hb] at h
      exact absurd h.symm he
  obtain ⟨o1, h1, e1⟩ := out (0, 0) _ (by decide) split_first
  obtain ⟨o2, h2, e2⟩ := out (1, 0) _ (by decide) split_second
  refine ⟨by decide, by decide, by decide, by decide, by decide, by decide, by decide, split_fetchTables, ?_,
    ⟨o1, h1, e1⟩, o2, h2, e2⟩
  exact dispatch_two_next rfl (by decide) (by decide) (by decide) (by decide) split_fetchTables h1 h2

/-- A table of which only the entry that the blocks look up is defined. -/
theorem witness_DispatchWritesEveryRegionOfTheGrid_partialTable :
    SpaceDefined splitState .dmat ∧ SpaceDefined splitState .dtmat ∧ SpaceDefined splitState (qtabOf splitState .y) ∧
      memRead splitState (achufOf splitState .y) 1 = none ∧
      (regionBase splitState .y + gridCols splitState .y * gridRows splitState .y) * ebs splitState ≤
        splitState.params.resultWords ∧
      ∀ tb col row, fetchTables splitState .y = .ok tb → col < gridCols splitState .y → row < gridRows splitState .y →
        ∃ out, encodeBlock splitState.params tb (memRead splitState (achufOf splitState .y)) (ebs splitState)
          (sampleBlock splitState .y col row) = .ok out := by
  have word := tablesMem_words (s := splitState) rfl
  have hq : qtabOf splitState .y = .qtab0 := rfl
  obtain ⟨o1, h1, _⟩ := witness_DispatchCapturesTheFirstFailingBlock.2.2.2.2.2.2.2.2.2.1
  obtain ⟨o2, h2, _⟩ := witness_DispatchCapturesTheFirstFailingBlock.2.2.2.2.2.2.2.2.2.2
  have key (blk : Nat × Nat) (o : BlockOut) (h : blockOut splitState .y splitTables blk = .ok o) :
      ∃ out, encodeBlock splitState.params splitTables (memRead splitState (achufOf splitState .y)) (ebs splitState)
        (sampleBlock splitState .y blk.1 blk.2) = .ok out := by
    simp only [blockOut] at h
    split at h
    · cases h
    · exact ⟨_, ‹_›⟩
  refine ⟨fun k hk => by rw [(word k hk).1]; rfl, fun k hk => by rw [(word k hk).2.1]; rfl, ?_, by decide +kernel,
    by decide, ?_⟩
  · rw [hq]
    exact fun k hk => by rw [(word k hk).2.2]; rfl
  · intro tb col row ht hc hr
    have : tb = splitTables := by
      rw [split_fetchTables] at ht
      exact (Except.ok.inj ht).symm
    subst this
    have hcols : gridCols splitState .y = 2 := rfl
    have hrows : gridRows splitState .y = 1 := rfl
    have hr0 : row = 0 := by omega
    subst hr0
    rcases (by omega : col = 0 ∨ col = 1) with rfl | rfl
    · exact key (0, 0) o1 h1
    · exact key (1, 0) o2 h2

theorem blockOut_err (s : State) (e : BitVec 13) (c : Comp) (tb : Tables) (blk : Nat × Nat) :
    blockOut { s with err := e } c tb blk = blockOut s c tb blk := rfl

/-- The same with an error already recorded. -/
theorem witness_DispatchCapturesTheFirstFailingBlock_recorded :
    ({ splitState with err := 1#13 } : State).err ≠ 0#13 ∧
      fetchTables { splitState with err := 1#13 } .y = .ok splitTables ∧
      ∃ t, exec (.dispatch 0#2 0#22 0#32) { splitState with err := 1#13 } = .next t := by
  obtain ⟨o1, h1, _⟩ := witness_DispatchCapturesTheFirstFailingBlock.2.2.2.2.2.2.2.2.2.1
  obtain ⟨o2, h2, _⟩ := witness_DispatchCapturesTheFirstFailingBlock.2.2.2.2.2.2.2.2.2.2
  have ht : fetchTables { splitState with err := 1#13 } .y = .ok splitTables := split_tables rfl rfl
  refine ⟨by decide, ht, dispatch_two_next (b1 := (0, 0)) (b2 := (1, 0)) (o1 := o1) (o2 := o2) rfl (by decide) (by decide)
    (by decide) (by decide) ht ?_ ?_⟩
  · rw [blockOut_err]
    exact h1
  · rw [blockOut_err]
    exact h2

theorem witness_DispatchChangesItsRegionsOnly :
    (∃ t, exec (.dispatch 0#2 0#22 0#32) splitState = .next t) ∧ (∃ t, exec (.dispatch 3#2 0#22 0#32) small = .next t) ∧
      compOf 3#2 = none ∧ gridFits (twoBlocks 9#22) .y = false :=
  ⟨witness_DispatchCapturesTheFirstFailingBlock.2.2.2.2.2.2.2.2.1, next_of_nextOf (by decide), by decide, by decide⟩

/-- The last word of DMAT, of DTMAT and of the selected QTAB undefined. -/
theorem witness_DispatchFaultsOnUndefinedTables :
    compOf 0#2 = some .y ∧ gridCols (twoBlocks 8#22) .y * gridRows (twoBlocks 8#22) .y ≠ 0 ∧
      (twoBlocks 8#22).surfW ≠ 0#16 ∧ (twoBlocks 8#22).surfH ≠ 0#16 ∧ gridFits (twoBlocks 8#22) .y = true ∧
      memRead (twoBlocks 8#22) .dmat 63 = none ∧ memRead (twoBlocks 8#22) .dtmat 63 = none ∧
      memRead (twoBlocks 8#22) (qtabOf (twoBlocks 8#22) .y) 63 = none := by decide

/-- `splitState` with no Huffman table: the first block, all zero, looks up EOB. -/
def bareState : State := { twoBlocks 0#22 with mem := tablesMem [], surface := twoGreys }

theorem witness_DispatchFaultsOnUndefinedTables_lookup :
    fetchTables bareState .y = .ok splitTables ∧
      gridBlocks (gridCols bareState .y) (gridRows bareState .y) = [] ++ (0, 0) :: [(1, 0)] ∧
      quantizeFrom bareState.params.quantRound 0
        ((fdct bareState.params splitTables.d splitTables.dt (sampleBlock bareState .y 0 0)).zip splitTables.q) =
          .ok (List.replicate 64 0) ∧
      encodeAc (memRead bareState (achufOf bareState .y)) (zigzag (List.replicate 64 0)) =
        .error (.undefinedEntry 0x00) := by
  have hs : sampleBlock bareState .y 0 0 = List.replicate 64 0#32 := by decide +kernel
  have hf : fdct bareState.params splitTables.d splitTables.dt (List.replicate 64 0#32) = List.replicate 64 0#32 := by
    show matMul (matMul (List.replicate 64 _) (List.replicate 64 _)) (List.replicate 64 _) = _
    rw [matMul_const, split_dot_zero.1, matMul_const, split_dot_zero.2]
  refine ⟨split_tables rfl rfl, by decide, ?_, ?_⟩
  · rw [hs, hf]
    decide +kernel
  · have hz : zigzag (List.replicate 64 0) = 0 :: List.replicate 63 0 := by decide
    have hm : memRead bareState (achufOf bareState .y) 0x00 = none := by decide +kernel
    rw [hz, encodeAc_zeros, if_neg (by decide)]
    simp only [acLookup, hm]

/-- A 16×16 surface under 4:2:0: the one chroma block ends exactly at its edge; and a clamped pixel of a block
beyond it. -/
theorem witness_SampledPixelsLieInsideTheSurface :
    let s : State := { small with surfW := 16#16, surfH := 16#16, ctrl := { small.ctrl with subsample := 2#2 } }
    s.surfW ≠ 0#16 ∧ s.surfH ≠ 0#16 ∧ (15, 15) ∈ sampleCell s 16 16 1 1 7 7 ∧
      (0 + 1) * (footprint .cb s.ctrl.subsample).1 ≤ s.surfW.toNat ∧
      (0 + 1) * (footprint .cb s.ctrl.subsample).2 ≤ s.surfH.toNat := by decide

/-- The last sample, a listed texel, a cell of two pixels under BOX, and the default conversion at its bound. -/
theorem witness_SampledPixelsLieInsideTheSurface_values :
    8 * 7 + 7 < 64 ∧ (∃ texels, twoFailing.surface[7]? = some texels ∧ texels[15]? = some 0xFFFFFFFF#32) ∧
      Comp.cr ≠ .y ∧ ({ Params.default with chromaFilter := .box } : Params).chromaFilter = .box ∧
      Params.default.colorConvert = .jfif ∧ 255 ≤ 255 :=
  ⟨by omega, ⟨List.replicate 8 0xFF808080#32 ++ List.replicate 8 0xFFFFFFFF#32, by decide, by decide⟩, by decide, rfl,
    rfl, by omega⟩

/-- 40_dispatch.md R106, the example (255, 0, 0). -/
theorem test_jfif :
    (jfifConvert .y 255 0 0, jfifConvert .cb 255 0 0, jfifConvert .cr 255 0 0) =
      (0xC24F051F#32, 0xC22C1C58#32, 0x42FF0000#32) := by decide

/-- Finite operands whose product, sum and quotient are finite, the largest finite value among them. -/
theorem witness_BinaryArithmeticRoundsToNearestEven :
    f32Finite 0x7F7FFFFF#32 = true ∧ f32Finite 0x3F800000#32 = true ∧
      f32Finite (f32Mul 0x7F7FFFFF#32 0x3F800000#32) = true ∧ f32Finite (f32Add 0x7F7FFFFF#32 0x3F800000#32) = true ∧
      f32Finite (f32Div 0x7F7FFFFF#32 0x3F800000#32) = true ∧ f32Rat 0x3F800000#32 ≠ 0 := by
  refine ⟨by decide, by decide, by decide, by decide, by decide, ?_⟩
  have : f32Unpack 0x3F800000#32 = .fin false 0x800000 (-23) := by decide
  simp [f32Rat, this]

/-- Overflow of each operation, a zero divisor of either sign, and a NaN. -/
theorem witness_BinaryArithmeticRoundsToNearestEven_special :
    f32Finite (f32Mul 0x7F7FFFFF#32 0x40000000#32) = false ∧ f32Finite (f32Add 0x7F7FFFFF#32 0x7F7FFFFF#32) = false ∧
      f32Finite (f32Div 0x7F7FFFFF#32 0x00000001#32) = false ∧ f32Rat 0x00000001#32 ≠ 0 ∧
      f32Finite 0x80000000#32 = true ∧ f32Rat 0x80000000#32 = 0 ∧ IsNaN 0x7F800001#32 := by
  have h1 : f32Unpack 0x00000001#32 = .fin false 1 (-149) := by decide
  have h0 : f32Unpack 0x80000000#32 = .fin true 0 (-149) := by decide
  exact ⟨by decide, by decide, by decide +kernel, (f32Rat_eq_zero h1).not.mpr (by omega), by decide,
    (f32Rat_eq_zero h0).mpr rfl, by decide⟩

/-- 2.5, a tie, and the largest finite value. -/
theorem witness_QuotientRoundingFollowsItsMode :
    f32Finite 0x40200000#32 = true ∧ f32Finite 0x7F7FFFFF#32 = true ∧ |((2 : Int) : ℚ) - f32Rat 0x40200000#32| = 1 / 2 := by
  refine ⟨by decide, by decide, ?_⟩
  have : f32Unpack 0x40200000#32 = .fin false 0xA00000 (-22) := by decide
  simp only [f32Rat, this]
  norm_num

/-- A block that fails at index 1 and one that does not. -/
theorem witness_QuantizationFailsAtTheFirstBadIndex :
    quantizeFrom .tiesEven 0 [(0x40200000#32, 0x3F800000#32), (0x3F800000#32, 0x80000000#32)] = .error 1 ∧
      quantizeFrom .tiesEven 0 [(0x40200000#32, 0x3F800000#32)] = .ok [2] := by
  decide +kernel

theorem witness_ZigzagIsAPermutationOfTheBlock : (List.replicate 64 (0 : Int)).length = 64 ∧ zzRom[63]? = some 63 := by
  decide

theorem witness_CategoryAndAmplitudeDetermineTheValue :
    2047 < 2048 ∧ 2048 ≤ 2048 ∧ 11 = Nat.size (-2047 : Int).natAbs ∧ (-2047 : Int) < 0 ∧
      11 = Nat.size (2047 : Int).natAbs ∧ (0 : Int) < 2047 :=
  ⟨by omega, by omega, size_2047.symm, by omega, size_2047.symm, by omega⟩

theorem size_1 : Nat.size 1 = 1 := Nat.size_one

/-- One coefficient of 1 at the positions 17 (one ZRL) and 63 (three, and no EOB). -/
theorem witness_SingleCoefficientCodesAsZrlSymbolEob :
    1 = Nat.size (1 : Int).natAbs ∧ (∃ b, acLookup lumaAc 0xF0 = .ok b) ∧ (∃ b, acLookup lumaAc 0x00 = .ok b) ∧
      (∃ b, acLookup lumaAc ((17 - 1) % 16 * 16 + 1) = .ok b) ∧ (∃ b, acLookup lumaAc ((63 - 1) % 16 * 16 + 1) = .ok b) :=
  ⟨size_1.symm, ⟨emitBits 0x07F9 11, by decide⟩, ⟨emitBits 0x000A 4, by decide⟩, ⟨emitBits 0 2, by decide⟩,
    ⟨emitBits 0xFFEB 16, by decide⟩⟩

/-- LEN 16, LEN 0 and LEN 17; a run of 16 before a coefficient and one without ZRL before it, with coefficients
behind; and position 1 of a block under a table that has no ZRL and no EOB. -/
theorem witness_SingleCoefficientCodesAsZrlSymbolEob_steps :
    (lumaAc 0x0A = some 0x0010FF83#32 ∧ ((0x0010FF83#32 : Word).extractLsb' 16 5).toNat = 16) ∧
      ((0#32 : Word).extractLsb' 16 5).toNat = 0 ∧ 16 < ((0x00110000#32 : Word).extractLsb' 16 5).toNat ∧
      (∃ zrl, acLookup lumaAc 0xF0 = .ok zrl) ∧ (∃ b, acLookup lumaAc (16 % 16 * 16 + 1) = .ok b) ∧
      (∃ b, encodeAc lumaAc (0 :: [-1, 1, 0]) = .ok b) ∧
      (∃ b, acLookup (fun rs => if rs = 0x01 then some 0x00020000#32 else none) ((1 - 1) % 16 * 16 + 1) = .ok b) :=
  ⟨⟨by decide, by decide⟩, by decide, by decide, ⟨emitBits 0x07F9 11, by decide⟩, ⟨emitBits 0 2, by decide⟩,
    ⟨[false, false, false, false, false, true, true, false, true, false], by decide⟩, ⟨emitBits 0 2, by decide⟩⟩

theorem witness_TooLargeCoefficientStopsTheCoding :
    1024 ≤ (-1024 : Int).natAbs ∧ ∃ zrl, acLookup lumaAc 0xF0 = .ok zrl :=
  ⟨by decide, emitBits 0x07F9 11, by decide⟩

/-- A run of 16 under a table without ZRL; a symbol without a code; and one behind a coefficient that has one. -/
theorem witness_TooLargeCoefficientStopsTheCoding_steps :
    acLookup (fun _ => some 0#32) 0xF0 = .error (.noCode 0xF0) ∧
      (2 = Nat.size (2 : Int).natAbs ∧ acLookup lumaAc (0 % 16 * 16 + 2) = .error (.noCode 2)) ∧
      (∃ b, acLookup lumaAc (0 % 16 * 16 + 1) = .ok b) ∧ encodeAc lumaAc (0 :: [1024]) = .error (.category 1024) :=
  ⟨by decide, ⟨by
    have h : some 2 = some (Nat.size 2) := by
      have := catLut_eq 2
      rw [if_pos (by omega)] at this
      rw [← this]
      decide
    exact Option.some.inj h, by decide⟩, ⟨emitBits 0 2, by decide⟩, by decide⟩

theorem witness_AcBitstringIsBounded :
    (List.replicate 64 (0 : Int)).length = 64 ∧
      encodeAc lumaAc (List.replicate 64 0) = .ok [true, false, true, false] ∧ 1 ≤ (1#7 : BitVec 7).toNat ∧
      (100#7 : BitVec 7).toNat ≤ 100 := by decide

/-- The last bit of the last word of N = 6. -/
theorem witness_PackingIsMsbFirst : (pack [true] 6)[127 / 32]? = some 0#32 ∧ (pack [true] 6)[0 / 32]? = some 0x80000000#32 := by
  decide

/-- Tables whose product moves the first sample to coefficient 1, with divisors 1. -/
def oneCoefficient : Tables :=
  { d := [0x3F800000#32], dt := [0#32, 0x3F800000#32], q := List.replicate 64 0x3F800000#32 }

theorem witness_RegionHoldsTheOutcomeOfItsBlock_transform : Params.default.dctArith = .seq32 ∧ 7 < 8 := ⟨rfl, by omega⟩

/-- An invalid divisor at index 0. -/
theorem witness_RegionHoldsTheOutcomeOfItsBlock_invalid :
    quantizeFrom .tiesEven 0 ((fdct Params.default [] [] []).zip [0#32]) = .error 0 := by decide +kernel

/-- Coefficient 1 at index 1: it codes in 7 bits (too many for N = 2, not for N = 6); with no table it has no code. -/
theorem witness_RegionHoldsTheOutcomeOfItsBlock_coded :
    quantizeFrom .tiesEven 0 ((fdct Params.default oneCoefficient.d oneCoefficient.dt [0x3F800000#32]).zip
        oneCoefficient.q) = .ok ([0, 1] ++ List.replicate 62 0) ∧
      encodeAc lumaAc (zigzag ([0, 1] ++ List.replicate 62 0)) =
        .ok [false, false, true, true, false, true, false] ∧
      encodeAc (fun _ => some 0#32) (zigzag ([0, 1] ++ List.replicate 62 0)) = .error (.noCode 1) := by decide +kernel

/-- Coefficient 1024 at index 1 has no category. -/
theorem witness_RegionHoldsTheOutcomeOfItsBlock_category :
    quantizeFrom .tiesEven 0 ((fdct Params.default oneCoefficient.d oneCoefficient.dt [0x44800000#32]).zip
        oneCoefficient.q) = .ok ([0, 1024] ++ List.replicate 62 0) ∧
      encodeAc lumaAc (zigzag ([0, 1024] ++ List.replicate 62 0)) = .error (.category 1024) := by decide +kernel

theorem witness_RaiseCapturesOnlyTheFirstError :
    State.reset.err = 0#13 ∧ ({ State.reset with err := 1#13 } : State).err ≠ 0#13 := by decide

theorem witness_ErrorFlagsAreStickyUntilWrittenWithOne :
    (∃ t, exec (.dcenc 3#2 0#22 0#32) { small with err := 1#13 } = .next t) ∧ (0x014#32 : Word) ≠ 0x010#32 :=
  ⟨next_of_nextOf (by decide), by decide⟩

/-- Misaligned; the first address past the register block; the last word before RESULT; the first past DCHUF1. -/
theorem witness_BusErrorsTouchTheErrorStateOnly :
    (0x00000001#32 : Word).toNat % 4 ≠ 0 ∧
      ∀ a ∈ [0x00000100, 0x00FFFFFC, 0x00001C70, 0x01000000 + 4 * 64], 0x100 ≤ a ∧
        ∀ sp, a < spaceBase sp ∨ spaceBase sp + 4 * spaceWords small.params sp ≤ a := by
  refine ⟨by decide, ?_⟩
  intro a ha
  simp only [List.mem_cons, List.not_mem_nil, or_false] at ha
  rcases ha with rfl | rfl | rfl | rfl <;> refine ⟨by omega, fun sp => ?_⟩ <;> cases sp <;> decide

theorem witness_ReservedAndReadOnlyOffsetsIgnoreWrites :
    (∀ a ∈ [0x034, 0x03C, 0x04C, 0x05C, 0x06C, 0x08C, 0x0FC], a % 4 = 0) ∧
      (0x0FC#32 : Word).toNat % 4 = 0 ∧ 0x08C ≤ (0x0FC#32 : Word).toNat ∧ (0x0FC#32 : Word).toNat ≤ 0x0FC := by decide

/-- Busy and idle, at the last word of RESULT and of DCHUF1. -/
theorem witness_ConfigurationWritesAreRefusedWhileBusy :
    (queued 0#32 0#32).cq ≠ [] ∧ small.cq = [] ∧ small.params.legal = true ∧ 63 < spaceWords small.params .result ∧
      (0x010000FC#32 : Word).toNat = spaceAddr .result 63 ∧ 11 < spaceWords small.params .dchuf1 ∧
      (0x00001C6C#32 : Word).toNat = spaceAddr .dchuf1 11 := by decide

/-- Idle; busy with no change of the fields; busy with a change. -/
theorem witness_CtrlWriteIsLegalizedAndProtected :
    (small.cq = [] ∧ (0x7F#32 : Word).extractLsb' 0 7 = 127#7) ∧
      ((queued 0#32 0#32).cq ≠ [] ∧ (0x3030C#32 : Word).extractLsb' 0 7 = small.ctrl.quality ∧
        (0x3030C#32 : Word).extractLsb' 8 2 = 3#2) ∧
      ((0x33#32 : Word).extractLsb' 0 7 ≠ small.ctrl.quality) := by decide

theorem witness_EbsFollowsQuality : 1 ≤ State.reset.ctrl.quality.toNat ∧ State.reset.ctrl.quality.toNat ≤ 100 := by decide

/-- A full queue. -/
theorem witness_StatusShowsQueueAndInterrupt :
    small.params.legal = true ∧
      ({ small with cq := List.replicate 4 { word := 0#32, arg := 0#32 } } : State).cq.length ≤ small.params.cqDepth := by
  decide

theorem witness_CmdWritePushesOrOverflows :
    ({ small with cq := List.replicate 4 { word := 0#32, arg := 0#32 } } : State).cq.length = small.params.cqDepth ∧
      ({ small with cq := List.replicate 3 { word := 0#32, arg := 0#32 } } : State).cq.length ≠ small.params.cqDepth := by
  decide

theorem witness_QueuedEntriesAreNeverChanged : ∃ t, exec (.signal 0#2 0#22 7#32) (queued 0#32 0#32) = .next t :=
  next_of_nextOf (by decide)

theorem witness_HostReadsHaveNoSideEffects :
    (0x010000FC#32 : Word).toNat % 4 = 0 ∧ locate small.params (0x010000FC#32 : Word).toNat ≠ .unmapped ∧
      (0x0FC#32 : Word).toNat % 4 = 0 ∧ (0x0FC#32 : Word).toNat < 0x100 := by decide

/-- RESULT while busy; RESULT while idle, defined and not; a table while busy. -/
theorem witness_HostReadsOfRamsReturnStoredOrFreeWords :
    small.params.legal = true ∧ (0x010000FC#32 : Word).toNat = spaceAddr .result 63 ∧
      63 < spaceWords small.params .result ∧ (queued 0#32 0#32).cq ≠ [] ∧
      (memWrite small .result 63 5#32).cq = [] ∧ memRead (memWrite small .result 63 5#32) .result 63 = some 5#32 ∧
      memRead small .result 63 = none ∧ memRead (memWrite (queued 0#32 0#32) .dmat 63 5#32) .dmat 63 = some 5#32 := by
  decide

theorem witness_RamWordsReadBackAsStored :
    small.params.legal = true ∧ small.cq = [] ∧ 11 < spaceWords small.params .dchuf1 ∧
      (0x00001C6C#32 : Word).toNat = spaceAddr .dchuf1 11 ∧ ¬ (Space.dchuf0 = Space.dchuf1 ∧ 11 = 11) := by decide

theorem witness_ResetInputRestoresTheResetState :
    ({ queued 0#32 0#32 with inputs := [.reset, .engine] } : State).inputs = .reset :: [.engine] := by decide

theorem witness_NoCommandWritesConfiguration : ∃ t, exec (.dcenc 0#2 0#22 0#32) (dcState 50#32 6 0x0004000E#32) = .next t :=
  next_of_nextOf (by decide)

theorem witness_OnlyTheirCommandsWriteFenceAndPredictors :
    (∃ t, exec (.dispatch 0#2 0#22 0#32) small = .next t) ∧
      (∀ comp rsvd arg, Instr.dispatch 0#2 0#22 0#32 ≠ .signal comp rsvd arg) ∧
      ∀ comp rsvd arg, Instr.dispatch 0#2 0#22 0#32 ≠ .dcrst comp rsvd arg ∧
        Instr.dispatch 0#2 0#22 0#32 ≠ .dcenc comp rsvd arg :=
  ⟨next_of_nextOf (by decide), fun _ _ _ h => (by cases h), fun _ _ _ => ⟨fun h => (by cases h), fun h => (by cases h)⟩⟩

/-- DCRST, then SIGNAL 7, then NOP: the run over the entries before the SIGNAL answers a next state. -/
theorem witness_FenceValueFollowsEveryEarlierCommand :
    let q : List Entry :=
      [{ word := 0x03000000#32, arg := 0#32 }] ++ { word := 0x02000000#32, arg := 7#32 } ::
        [{ word := 0#32, arg := 0#32 }]
    let s : State := { small with cq := q }
    s.inputs = [] ∧ s.cq = q ∧ opcField 0x02000000#32 = 0x02#8 ∧ opcField 0x03000000#32 ≠ 0x02#8 ∧
      ∃ t, Sys2Proof.core.run 1 s = .next t := by
  refine ⟨rfl, rfl, by decide, by decide, ?_⟩
  rw [show (1 : Nat) = 0 + 1 from rfl, run_succ]
  obtain ⟨t, ht⟩ := next_of_nextOf (o := step { small with
    cq := [{ word := 0x03000000#32, arg := 0#32 }] ++ { word := 0x02000000#32, arg := 7#32 } ::
      [{ word := 0#32, arg := 0#32 }] }) (by decide)
  exact ⟨t, by rw [ht]; rfl⟩

theorem witness_CommandsCompleteAfterBoot :
    TablesLoaded tabled ∧
      ∀ comp rsvd r, Instr.dcenc 0#2 0#22 0#32 = .dcenc comp rsvd r → dcRangeOk tabled r.toNat = true →
        (memRead tabled .result (r.toNat * ebs tabled)).isSome = true := by
  refine ⟨tabled_loaded, ?_⟩
  intro comp rsvd r h _
  cases h
  rw [memRead, readWord_isSome]
  intro k hk
  have ha : spaceAddr .result ((0#32 : Word).toNat * ebs tabled) = 0x01000000 := by decide
  rw [ha]
  show (readByte tabledMem (0x01000000 + k)).isSome = true
  have f := readByte_fill 0x01000000 24 0#8 [] (0x01000000 + k)
  rw [List.append_nil] at f
  rw [tabledMem, readByte_fill, readByte_fill, f, if_neg (by omega), if_neg (by omega), if_pos (by omega)]
  rfl

theorem witness_StepKeepsParametersAndSurface :
    ∃ t, step { small with inputs := [.hostWrite 0x020#32 8#32] } = .next t := next_of_nextOf (by decide)

/-- A state that meets the invariant (the reset state with a Host write pending), and its step. -/
theorem witness_EveryStepKeepsTheInvariant :
    StateInv { State.reset with inputs := [.hostWrite 0x00001000#32 0x3F800000#32] } ∧
      ∃ t, step { State.reset with inputs := [.hostWrite 0x00001000#32 0x3F800000#32] } = .next t := by
  refine ⟨⟨by decide, by decide, ?_, ?_, ?_, by decide, by decide, by decide, by decide, by decide, by decide⟩,
    next_of_nextOf (by decide)⟩
  · intro a ha
    simp [State.reset, readByte] at ha
  · intro a k _ _
    rfl
  · intro sp i w _ _ h
    simp [memRead, State.reset, readWord, readByte] at h

end Sys2Proof.Tests
end

section
/-! SUPPORT. No step changes the parameters or the surface (spec/00_scope.md R9, 20_memory.md R66). -/

namespace Sys2Proof.Machine

/-- `t` has what is fixed for a run, the parameters (R9) and the surface (R66), as `s` has it. -/
def SameFixed (s t : State) : Prop := t.params = s.params ∧ t.surface = s.surface

/-- Taking events from the list touches neither. -/
theorem sameFixed_of_inputs {s t : State} {events : List Input} (h : SameFixed { s with inputs := events } t) :
    SameFixed s t := h

theorem popCommand_sameFixed {s t : State} (h : SameFixed s t) : SameFixed s (popCommand t) := h

theorem raise_sameFixed (e : ErrKind) (r a : Word) (s : State) : SameFixed s (raise e r a s) :=
  ⟨raise_params e r a s, raise_surface e r a s⟩

theorem protectedWrite_sameFixed (addr : Word) {s t : State} (h : SameFixed s t) :
    SameFixed s (protectedWrite addr s t) := by
  unfold protectedWrite
  split
  · exact raise_sameFixed _ _ _ s
  · exact h

theorem pushCommand_sameFixed (w : Word) (s : State) : SameFixed s (pushCommand w s) := by
  unfold pushCommand
  split
  · exact raise_sameFixed _ _ _ s
  · exact ⟨rfl, rfl⟩

theorem writeCtrl_sameFixed (w : Word) (s : State) : SameFixed s (writeCtrl w s) := by
  simp only [writeCtrl]
  split
  · split
    · exact ⟨rfl, rfl⟩
    · exact raise_sameFixed _ _ _ _
  · exact ⟨rfl, rfl⟩

theorem writeReg_sameFixed (r : Reg) (addr w : Word) (s : State) : SameFixed s (writeReg r addr w s) := by
  cases r with
  | ctrl => exact writeCtrl_sameFixed w s
  | cmd => exact pushCommand_sameFixed w s
  | surfW | surfH | compNb | compBase | compSel => exact protectedWrite_sameFixed addr ⟨rfl, rfl⟩
  | err | fenceEvent | cmdArg => exact ⟨rfl, rfl⟩
  | _ => exact ⟨rfl, rfl⟩

theorem hostWrite_sameFixed (addr w : Word) (s : State) : SameFixed s (hostWrite addr w s) := by
  unfold hostWrite
  split
  · exact raise_sameFixed _ _ _ s
  · split
    · exact raise_sameFixed _ _ _ s
    · exact writeReg_sameFixed _ addr w s
    · exact protectedWrite_sameFixed addr ⟨rfl, rfl⟩

theorem hostReadEvent_sameFixed (addr : Word) (s : State) : SameFixed s (hostReadEvent addr s) := by
  have h : SameFixed s (hostRead addr s).2 := by
    rw [hostRead_frame]
    exact ⟨rfl, rfl⟩
  exact h

theorem exec_sameFixed {i : Instr} {s t : State} (h : exec i s = .next t) : SameFixed s t := by
  rw [exec_frame h]
  exact ⟨rfl, rfl⟩

theorem engineStep_sameFixed {s t : State} (h : engineStep s = .next t) : SameFixed s t := by
  obtain ⟨_, rfl⟩ | ⟨_, _, _, _, _, _, hexec, rfl⟩ | ⟨_, _, _, _, _, rfl⟩ := engineStep_next h
  · exact ⟨rfl, rfl⟩
  · exact popCommand_sameFixed (exec_sameFixed hexec)
  · exact popCommand_sameFixed (raise_sameFixed _ _ _ s)

theorem waitEvent_sameFixed {c : WaitCond} {rest : List Input} {s t : State} (h : waitEvent c rest s = .next t) :
    SameFixed s t := by
  unfold waitEvent at h
  split at h
  · cases h
    exact ⟨rfl, rfl⟩
  · split at h
    · exact engineStep_sameFixed h
    · cases h

/-- Settles O58, by the event that stands first: taking it from the list changes neither, and what it does keeps
both. -/
theorem stepKeepsParametersAndSurface : Obligations.StepKeepsParametersAndSurface := by
  intro s t h
  unfold step at h
  generalize s.inputs = events at h
  match events, h with
  | [], h => exact engineStep_sameFixed h
  | .engine :: rest, h => exact sameFixed_of_inputs (engineStep_sameFixed h)
  | .hostWrite addr w :: rest, h =>
    cases h
    exact sameFixed_of_inputs (hostWrite_sameFixed addr w { s with inputs := rest })
  | .hostRead addr :: rest, h =>
    cases h
    exact sameFixed_of_inputs (hostReadEvent_sameFixed addr { s with inputs := rest })
  | .wait c :: rest, h => exact waitEvent_sameFixed h
  | .reset :: rest, h =>
    cases h
    exact ⟨rfl, rfl⟩

end Sys2Proof.Machine
end

section
/-! SUPPORT. A coefficient that codes (spec/41_zigzag_ac.md R132 to R137). -/

namespace Sys2Proof.Machine

/-- A coefficient of magnitude below 1024, with a code for its symbol and, where its run needs ZRLs, for ZRL. -/
theorem coefficientBits_ok {table : Nat → Option Word} {run : Nat} {v : Int} {zrl code : List Bool}
    (hv : v.natAbs ≤ 1023) (hz : 16 ≤ run → acLookup table 0xF0 = .ok zrl)
    (hc : acLookup table (run % 16 * 16 + Nat.size v.natAbs) = .ok code) :
    coefficientBits table run v =
      .ok ((List.replicate (run / 16) zrl).flatten ++ code ++
        emitBits (amplitude v (Nat.size v.natAbs)) (Nat.size v.natAbs)) := by
  simp only [coefficientBits, zrlBits_of_run hz, acCategoryOf_small hv, hc]

/-- `k` zeros and such a coefficient, before coefficients that code. -/
theorem encodeAc_coefficient {table : Nat → Option Word} {v : Int} {k : Nat} {zrl code : List Bool}
    (dc : Int) {rest : List Int} {more : List Bool} (h0 : v ≠ 0) (hv : v.natAbs ≤ 1023)
    (hz : 16 ≤ k → acLookup table 0xF0 = .ok zrl)
    (hc : acLookup table (k % 16 * 16 + Nat.size v.natAbs) = .ok code)
    (hmore : encodeAc table (dc :: rest) = .ok more) :
    encodeAc table (dc :: (List.replicate k 0 ++ v :: rest)) =
      .ok ((List.replicate (k / 16) zrl).flatten ++ code ++
        emitBits (amplitude v (Nat.size v.natAbs)) (Nat.size v.natAbs) ++ more) := by
  simp only [encodeAc_nonzero table dc v k rest h0, coefficientBits_ok hv hz hc, hmore]

/-- Settles O33: a single coefficient is a coefficient before the `63 - k` zeros at the end of its block. -/
theorem singleCoefficientCodesAsZrlSymbolEob : Obligations.SingleCoefficientCodesAsZrlSymbolEob := by
  refine ⟨fun code len => ⟨emitBits_length code len, fun k hk => emitBits_getElem? hk⟩,
    fun table rs => ⟨fun h => by simp only [acLookup, h], ?_⟩, ?_, encodeAc_zeros, ?_⟩
  · rintro e len he rfl
    refine ⟨fun h1 h16 => ?_, acLookup_invalid he⟩
    obtain ⟨hl, hbits⟩ := acLookup_valid he h1 h16
    exact ⟨_, hl, emitBits_length _ _, hbits⟩
  · rintro table dc v k s rest zrl code more h0 hv rfl hz hc hmore
    exact encodeAc_coefficient dc h0 hv hz hc hmore
  · rintro table dc v k s zrl code eob h1 h63 h0 hv rfl hz hc heob
    have hend : encodeAc table (dc :: List.replicate (63 - k) 0) = .ok (if k = 63 then [] else eob) := by
      rw [encodeAc_zeros]
      by_cases hk : k = 63
      · rw [if_pos (by omega), if_pos hk]
      · rw [if_neg (by omega), if_neg hk, heob hk]
    exact encodeAc_coefficient dc h0 hv (fun h => hz (by omega)) hc hend

end Sys2Proof.Machine
end

section
/-! SUPPORT. Product, sum and quotient as one rounding of the exact value (spec/00_scope.md R12). -/

namespace Sys2Proof.Machine

/-- `w` is `x` rounded once: finite exactly below the overflow threshold, then the nearest pattern, and the infinity
of the sign `neg` otherwise (R12). -/
def RoundsTo (w : F32) (neg : Bool) (x : ℚ) : Prop :=
  (f32Finite w = true → NearestEven w x) ∧
  (f32Finite w = true ↔ |x| < 2 ^ 128 - 2 ^ 103) ∧
  (f32Finite w = false → w = f32Inf neg)

/-- The factor a sign stands for. -/
def signRat (neg : Bool) : ℚ := if neg then -1 else 1

theorem signRat_bne (s t : Bool) : signRat (s != t) = signRat s * signRat t := by
  cases s <;> cases t <;> norm_num [signRat]

theorem abs_signRat (s : Bool) : |signRat s| = 1 := by cases s <;> norm_num [signRat]

theorem signRat_div (s t : Bool) : signRat s / signRat t = signRat s * signRat t := by
  cases s <;> cases t <;> norm_num [signRat]

/-- `f32Round` rounds the value its arguments give. -/
theorem f32Round_roundsTo (neg : Bool) (num : Nat) {den : Nat} (k : Int) (hd : 0 < den) :
    RoundsTo (f32Round neg num den k) neg (signRat neg * ((num : ℚ) / den * 2 ^ k)) := by
  have habs : |signRat neg * ((num : ℚ) / den * 2 ^ k)| = (num : ℚ) / den * 2 ^ k := by
    rw [abs_mul, abs_signRat, one_mul, abs_of_nonneg (by positivity)]
  refine ⟨f32Round_nearest neg num den k hd _ rfl, ?_, f32Round_overflow⟩
  rw [habs]
  exact f32Round_finite neg num den k hd

/-- The exact zero has either zero as its rounding. -/
theorem f32Zero_roundsTo (s neg : Bool) : RoundsTo (f32Zero s) neg 0 := by
  have hf : f32Finite (f32Zero s) = true := by cases s <;> decide
  have h0 : f32Rat (f32Zero s) = 0 := by cases s <;> exact (f32Rat_eq_zero (neg := _) (k := -149) rfl).mpr rfl
  refine ⟨fun _ v _ => ?_, ?_, fun h => absurd hf (by rw [h]; decide)⟩
  · rw [h0, sub_zero, sub_zero, abs_zero]
    exact ⟨abs_nonneg _, fun hv hne => absurd (abs_eq_zero.mp hv) hne⟩
  · simp only [hf, abs_zero, true_iff]
    norm_num

/-- A shifted signed integer in units of `2^e`. -/
theorem signedShift_mul (neg : Bool) (m : Nat) {k e : Int} (h : e ≤ k) :
    (signedShift neg m (k - e) : ℚ) * 2 ^ e = signRat neg * ((m : ℚ) * 2 ^ k) := by
  have hp : (2 : ℚ) ^ (k - e).toNat * 2 ^ e = 2 ^ k := by
    rw [← zpow_natCast, Int.toNat_of_nonneg (by omega), ← zpow_add₀ (by norm_num), sub_add_cancel]
  have hm : ((m * 2 ^ (k - e).toNat : Nat) : ℚ) * 2 ^ e = m * 2 ^ k := by
    rw [Nat.cast_mul, Nat.cast_pow, Nat.cast_ofNat, mul_assoc, hp]
  cases neg with
  | false => rw [signedShift, if_neg (by decide), Int.cast_natCast, hm, signRat, if_neg (by decide), one_mul]
  | true => rw [signedShift, if_pos rfl, Int.cast_neg, Int.cast_natCast, neg_mul, hm, signRat, if_pos rfl, neg_one_mul]

/-- An integer is the sign of its order before 0 times its magnitude. -/
theorem signRat_mul_natAbs (z : Int) : signRat (decide (z < 0)) * (z.natAbs : ℚ) = z := by
  rw [Nat.cast_natAbs, Int.cast_abs]
  by_cases h : z < 0
  · have hq : (z : ℚ) < 0 := by exact_mod_cast h
    simp [signRat, h, abs_of_neg hq]
  · have hq : (0 : ℚ) ≤ z := by exact_mod_cast not_lt.mp h
    simp [signRat, h, abs_of_nonneg hq]

theorem f32Mul_roundsTo {a b : F32} (ha : f32Finite a = true) (hb : f32Finite b = true) :
    RoundsTo (f32Mul a b) (f32Neg a != f32Neg b) (f32Rat a * f32Rat b) := by
  obtain ⟨m, k, hua, hra⟩ := f32Unpack_finite a ha
  obtain ⟨n, l, hub, hrb⟩ := f32Unpack_finite b hb
  have hx : f32Rat a * f32Rat b =
      signRat (f32Neg a != f32Neg b) * (((m * n : Nat) : ℚ) / (1 : Nat) * 2 ^ (k + l)) := by
    rw [hra, hrb, signRat_bne, zpow_add₀ (by norm_num)]
    push_cast [signRat]
    ring
  simp only [f32Mul, hua, hub, hx]
  exact f32Round_roundsTo _ _ _ Nat.one_pos

theorem f32Div_roundsTo {a b : F32} (ha : f32Finite a = true) (hb : f32Finite b = true) (hb0 : f32Rat b ≠ 0) :
    RoundsTo (f32Div a b) (f32Neg a != f32Neg b) (f32Rat a / f32Rat b) := by
  obtain ⟨m, k, hua, hra⟩ := f32Unpack_finite a ha
  obtain ⟨n, l, hub, hrb⟩ := f32Unpack_finite b hb
  have hn : n ≠ 0 := fun h => hb0 ((f32Rat_eq_zero hub).mpr h)
  have hx : f32Rat a / f32Rat b = signRat (f32Neg a != f32Neg b) * ((m : ℚ) / n * 2 ^ (k - l)) := by
    rw [hra, hrb, signRat_bne, ← signRat_div, zpow_sub₀ (by norm_num), mul_div_mul_comm, mul_div_mul_comm]
    rfl
  simp only [f32Div, hua, hub, hx, if_neg hn]
  exact f32Round_roundsTo _ _ _ (Nat.pos_of_ne_zero hn)

theorem f32Add_roundsTo {a b : F32} (ha : f32Finite a = true) (hb : f32Finite b = true) :
    RoundsTo (f32Add a b) (decide (f32Rat a + f32Rat b < 0)) (f32Rat a + f32Rat b) := by
  obtain ⟨m, k, hua, hra⟩ := f32Unpack_finite a ha
  obtain ⟨n, l, hub, hrb⟩ := f32Unpack_finite b hb
  simp only [f32Add, hua, hub]
  have hx : f32Rat a + f32Rat b = ((signedShift (f32Neg a) m (k - min k l) +
      signedShift (f32Neg b) n (l - min k l) : Int) : ℚ) * 2 ^ min k l := by
    rw [Int.cast_add, add_mul, signedShift_mul _ _ (min_le_left k l), signedShift_mul _ _ (min_le_right k l), hra, hrb]
    rfl
  rw [hx]
  generalize signedShift (f32Neg a) m (k - min k l) + signedShift (f32Neg b) n (l - min k l) = z
  have hsign : decide ((z : ℚ) * 2 ^ min k l < 0) = decide (z < 0) := by
    have : (0 : ℚ) < 2 ^ min k l := by positivity
    simp [mul_neg_iff, this, not_lt_of_gt]
  rw [hsign]
  split
  case isTrue hz =>
    rw [hz, Int.cast_zero, zero_mul]
    exact f32Zero_roundsTo _ _
  case isFalse hz =>
    have h := f32Round_roundsTo (decide (z < 0)) z.natAbs (min k l) Nat.one_pos
    rwa [Nat.cast_one, div_one, ← mul_assoc, signRat_mul_natAbs] at h

/-! The fields of a pattern -/

theorem f32Finite_iff_expField (w : F32) : f32Finite w = true ↔ (w.extractLsb' 23 8).toNat ≠ 255 := by
  rw [f32Finite, bne_iff_ne, f32Exp_eq]

theorem isNaN_iff_fields (w : F32) :
    IsNaN w ↔ (w.extractLsb' 23 8).toNat = 255 ∧ (w.extractLsb' 0 23).toNat ≠ 0 := by
  rw [IsNaN, f32Exp_eq, f32Frac_eq]

theorem f32Rat_of_fields {w : F32} (h : f32Finite w = true) :
    f32Rat w = (if w.getLsbD 31 then -1 else 1) *
      (if (w.extractLsb' 23 8).toNat = 0 then ((w.extractLsb' 0 23).toNat : ℚ) * 2 ^ (-149 : Int)
        else ((w.extractLsb' 0 23).toNat + 2 ^ 23 : ℚ) * 2 ^ (((w.extractLsb' 23 8).toNat : Int) - 150)) := by
  rw [f32Finite_iff_expField, ← f32Exp_eq] at h
  rw [← f32Exp_eq, ← f32Frac_eq, ← f32Neg]
  by_cases h0 : f32Exp w = 0
  · simp only [f32Rat, f32Unpack, h0, if_true, mul_assoc]
    rfl
  · simp only [f32Rat, f32Unpack, h, h0, if_false, mul_assoc]
    push_cast
    rfl

/-! NaN, infinities and zero divisors -/

theorem arith_nan {a b : F32} (h : IsNaN a ∨ IsNaN b) :
    IsNaN (f32Mul a b) ∧ IsNaN (f32Add a b) ∧ IsNaN (f32Div a b) := by
  obtain ⟨hmul, hadd, hdiv⟩ : f32Mul a b = f32NaN ∧ f32Add a b = f32NaN ∧ f32Div a b = f32NaN := by
    rcases h with h | h
    · simp only [f32Mul, f32Add, f32Div, f32Unpack_nan h, and_self]
    · cases ha : f32Unpack a <;> simp only [f32Mul, f32Add, f32Div, f32Unpack_nan h, ha, and_self]
  rw [hmul, hadd, hdiv]
  exact ⟨f32NaN_isNaN, f32NaN_isNaN, f32NaN_isNaN⟩

theorem arith_inf_inf (s t : Bool) :
    f32Mul (f32Inf s) (f32Inf t) = f32Inf (s != t) ∧ f32Add (f32Inf s) (f32Inf s) = f32Inf s ∧
      (s ≠ t → IsNaN (f32Add (f32Inf s) (f32Inf t))) ∧ IsNaN (f32Div (f32Inf s) (f32Inf t)) := by
  simp only [f32Mul, f32Add, f32Div, f32Unpack_inf, if_true, true_and]
  exact ⟨fun h => by rw [if_neg h]; exact f32NaN_isNaN, f32NaN_isNaN⟩

theorem arith_inf_finite (s : Bool) {x : F32} (hx : f32Finite x = true) :
    (f32Rat x = 0 → IsNaN (f32Mul (f32Inf s) x) ∧ IsNaN (f32Mul x (f32Inf s))) ∧
    (f32Rat x ≠ 0 → f32Mul (f32Inf s) x = f32Inf (s != f32Neg x) ∧ f32Mul x (f32Inf s) = f32Inf (f32Neg x != s)) ∧
    f32Add (f32Inf s) x = f32Inf s ∧ f32Add x (f32Inf s) = f32Inf s ∧
    f32Div (f32Inf s) x = f32Inf (s != f32Neg x) ∧ f32Div x (f32Inf s) = f32Zero (f32Neg x != s) := by
  obtain ⟨m, k, hu, -⟩ := f32Unpack_finite x hx
  simp only [f32Mul, f32Add, f32Div, f32Unpack_inf, hu, ne_eq, f32Rat_eq_zero hu, and_true]
  refine ⟨fun hm => ?_, fun hm => ?_⟩
  · rw [if_pos hm, if_pos hm]
    exact ⟨f32NaN_isNaN, f32NaN_isNaN⟩
  · rw [if_neg hm, if_neg hm]
    exact ⟨rfl, rfl⟩

theorem f32Div_zero {a b : F32} (ha : f32Finite a = true) (hb : f32Finite b = true) (hb0 : f32Rat b = 0) :
    (f32Rat a = 0 → IsNaN (f32Div a b)) ∧ (f32Rat a ≠ 0 → f32Div a b = f32Inf (f32Neg a != f32Neg b)) := by
  obtain ⟨m, k, hua, -⟩ := f32Unpack_finite a ha
  obtain ⟨n, l, hub, -⟩ := f32Unpack_finite b hb
  have hn : n = 0 := (f32Rat_eq_zero hub).mp hb0
  simp only [f32Div, hua, hub, if_pos hn, ne_eq, f32Rat_eq_zero hua]
  exact ⟨fun hm => by rw [if_pos hm]; exact f32NaN_isNaN, fun hm => if_neg hm⟩

/-- Settles O28: each operation on finite operands is one rounding of the exact value, and the special values are the
cases of its definition. -/
theorem binaryArithmeticRoundsToNearestEven : Obligations.BinaryArithmeticRoundsToNearestEven := by
  refine ⟨f32Finite_iff_expField, fun w => f32Rat_of_fields, isNaN_iff_fields, by decide, ?_,
    fun a b => arith_nan, arith_inf_inf, fun s x => arith_inf_finite s⟩
  intro a b ha hb
  obtain ⟨mulNear, mulFin, mulInf⟩ := f32Mul_roundsTo ha hb
  obtain ⟨addNear, addFin, addInf⟩ := f32Add_roundsTo ha hb
  have div := f32Div_roundsTo ha hb
  exact ⟨mulNear, addNear, fun h => (div h).1, mulFin, addFin, fun h => (div h).2.1, mulInf, addInf,
    fun h => (div h).2.2, fun h => (f32Div_zero ha hb h).1, fun h => (f32Div_zero ha hb h).2⟩

end Sys2Proof.Machine
end

section
/-! SUPPORT. The stops of DCENC and DISPATCH at an undefined word (spec/10_state.md R50). -/

namespace Sys2Proof.Machine

theorem fetchWord_undefined {s : State} {sp : Space} {i : Nat} (h : memRead s sp i = none) :
    fetchWord s sp i = .error (.undefinedRead sp i) := by
  simp only [fetchWord, h]

/-- DCENC of a component, in range, whose DC word is undefined. -/
theorem exec_dcenc_undefinedResult {comp : BitVec 2} {c : Comp} {r : Word} {s : State} (rsvd : BitVec 22)
    (hc : compOf comp = some c) (hr : dcRangeOk s r.toNat = true)
    (hdc : memRead s .result (r.toNat * ebs s) = none) :
    exec (.dcenc comp rsvd r) s = .fault (.undefinedRead .result (r.toNat * ebs s)) := by
  simp only [exec, execDcenc, hc, hr, if_true, fetchWord_undefined hdc]

/-- DCENC of a component, in range, past its DC word. -/
theorem exec_dcenc_fault {comp : BitVec 2} {c : Comp} {r dc : Word} {s : State} {f : Fault} (rsvd : BitVec 22)
    (hc : compOf comp = some c) (hr : dcRangeOk s r.toNat = true)
    (hdc : memRead s .result (r.toNat * ebs s) = some dc) (h : dcencWith c r dc s = .error f) :
    exec (.dcenc comp rsvd r) s = .fault f := by
  simp only [exec, execDcenc, hc, hr, if_true, fetchWord_ok.mpr hdc, h]

theorem dcencWith_undefinedEntry {c : Comp} {r dc : Word} {s : State} (hd : (dcDiff s c dc).natAbs ≤ 2047)
    (he : memRead s (dchufOf s c) (Nat.size (dcDiff s c dc).natAbs) = none) :
    dcencWith c r dc s = .error (.undefinedRead (dchufOf s c) (Nat.size (dcDiff s c dc).natAbs)) := by
  have hcat : catLut (dcDiff s c dc).natAbs = some (Nat.size (dcDiff s c dc).natAbs) := by
    rw [catLut_eq, if_pos (by omega)]
  simp only [dcencWith, hcat, fetchWord_undefined he]

/-- Settles O19: in range, the DC word is read first, and then the entry of the difference's category. -/
theorem dcencFaultsOnUndefinedWords : Obligations.DcencFaultsOnUndefinedWords := by
  intro comp c rsvd r s hc hresult hdcm
  have hr : dcRangeOk s r.toNat = true := decide_eq_true ⟨hresult, hdcm⟩
  exact ⟨exec_dcenc_undefinedResult rsvd hc hr,
    fun dc hdc hd he => exec_dcenc_fault rsvd hc hr hdc (dcencWith_undefinedEntry hd he)⟩

/-- The fault of a failed read of a DISPATCH's tables names an undefined word. -/
theorem fetchTables_error {s : State} {c : Comp} {f : Fault} (h : fetchTables s c = .error f) :
    ∃ sp k, f = .undefinedRead sp k ∧ memRead s sp k = none := by
  have words {sp : Space} {g : Fault} (hg : fetchWords s sp 0 64 = .error g) :
      ∃ sp k, g = .undefinedRead sp k ∧ memRead s sp k = none := by
    obtain ⟨k, -, hk, hn⟩ := fetchWords_error hg
    exact ⟨sp, 0 + k, hk, hn⟩
  simp only [fetchTables] at h
  split at h
  · cases h
    exact words ‹_›
  · split at h
    · cases h
      exact words ‹_›
    · split at h
      · cases h
        exact words ‹_›
      · cases h

/-- Every one of the 64 words of each of a DISPATCH's tables is read. -/
theorem fetchTables_undefined {s : State} {c : Comp} {sp : Space} {n : Nat}
    (hsp : sp = .dmat ∨ sp = .dtmat ∨ sp = qtabOf s c) (hn : n < 64) (h : memRead s sp n = none) :
    ∃ f, fetchTables s c = .error f := by
  cases ht : fetchTables s c with
  | error f => exact ⟨f, rfl⟩
  | ok tb =>
    obtain ⟨⟨hd, hdt, hq⟩, get⟩ := fetchTables_ok ht
    obtain ⟨getD, getDt, getQ⟩ := get n hn
    have present {ws : List Word} (hlen : ws.length = 64) (hget : memRead s sp n = ws[n]?) : False := by
      rw [h, List.getElem?_eq_getElem (by omega)] at hget
      cases hget
    obtain rfl | rfl | rfl := hsp
    · exact (present hd getD).elim
    · exact (present hdt getDt).elim
    · exact (present hq getQ).elim

/-- A list of blocks, one of which has no outcome, has none. -/
theorem blockOuts_error_of_mem {s : State} {c : Comp} {tb : Tables} {l : List (Nat × Nat)} {blk : Nat × Nat}
    {f : Fault} (hm : blk ∈ l) (hb : blockOut s c tb blk = .error f) : ∃ g, blockOuts s c tb l = .error g := by
  cases ho : blockOuts s c tb l with
  | error g => exact ⟨g, rfl⟩
  | ok outs =>
    obtain ⟨k, hk⟩ := List.getElem?_of_mem hm
    obtain ⟨out, -, hout⟩ := (blockOuts_ok ho).2 k blk hk
    rw [hb] at hout
    cases hout

theorem dispatchGrid_fetchTables_error {s : State} {c : Comp} {f : Fault} (h : fetchTables s c = .error f) :
    dispatchGrid c s = .error f := by
  simp only [dispatchGrid, h]

theorem dispatchGrid_blockOuts_error {s : State} {c : Comp} {tb : Tables} {f : Fault} (ht : fetchTables s c = .ok tb)
    (h : blockOuts s c tb (gridBlocks (gridCols s c) (gridRows s c)) = .error f) : dispatchGrid c s = .error f := by
  simp only [dispatchGrid, ht, h]

/-- Settles O26: past the checks a DISPATCH faults as the read of its tables does, and then as its blocks do. -/
theorem dispatchFaultsOnUndefinedTables : Obligations.DispatchFaultsOnUndefinedTables := by
  intro comp c rsvd arg s hc hgrid hw hh hfits
  have fault {f : Fault} (h : dispatchGrid c s = .error f) : exec (.dispatch comp rsvd arg) s = .fault f := by
    rw [exec_dispatch_grid hc hgrid hw hh hfits, h]
  constructor
  · intro sp n hsp hn hnone
    obtain ⟨f, hf⟩ := fetchTables_undefined hsp hn hnone
    obtain ⟨sq, k, rfl, hk⟩ := fetchTables_error hf
    exact ⟨sq, k, fault (dispatchGrid_fetchTables_error hf), hk⟩
  · intro tb blk q rs htb hmem hq hac
    have hblk := blockOut_of_undefined hq hac
    refine ⟨encodeAcFrom_undefined hac, ?_, ?_⟩
    · obtain ⟨f, hf⟩ := blockOuts_error_of_mem hmem hblk
      obtain ⟨k, rfl, hk⟩ := blockOuts_error hf
      exact ⟨k, fault (dispatchGrid_blockOuts_error htb hf), hk⟩
    · intro pre post hsplit hpre
      apply fault (dispatchGrid_blockOuts_error htb _)
      rw [hsplit]
      exact blockOuts_error_first hpre hblk

end Sys2Proof.Machine
end

section
/-! SUPPORT. Host accesses to a register by its address, and the values STATUS, CTRL and EBS show (spec/10_state.md
R21 to R23). -/

namespace Sys2Proof.Machine

/-- `addr` is a byte address of the register block at which register `r` stands (20_memory.md R53, R54). -/
abbrev IsRegAddr (addr : Word) (r : Reg) : Prop :=
  addr.toNat % 4 = 0 ∧ addr.toNat < 0x100 ∧ regAt addr.toNat = r

theorem hostRead_reg {addr : Word} {r : Reg} (h : IsRegAddr addr r) (s : State) :
    hostRead addr s = (readReg s r, s) := by
  obtain ⟨h4, hlt, rfl⟩ := h
  simp [hostRead, h4, locate, hlt]

theorem hostWrite_reg {addr : Word} {r : Reg} (h : IsRegAddr addr r) (w : Word) (s : State) :
    hostWrite addr w s = writeReg r addr w s := by
  obtain ⟨h4, hlt, rfl⟩ := h
  simp [hostWrite, h4, locate, hlt]

/-- Settles O45: EBS is a read-only register computed from QUALITY. -/
theorem ebsFollowsQuality : Obligations.EbsFollowsQuality := by
  have haddr : IsRegAddr 0x00C#32 .ebs := by decide
  refine ⟨hostRead_reg haddr, hostWrite_reg haddr, fun s _ hhigh => ⟨six_le_ebs s, ?_⟩, ?_⟩
  · simp only [ebs]
    omega
  · rw [hostRead_reg haddr]
    rfl

theorem busy_eq_decide (s : State) : busy s = decide (s.cq.length ≠ 0) := by
  cases h : s.cq <;> simp [busy, h]

theorem cqFull_eq_decide (s : State) : cqFull s = decide (s.cq.length = s.params.cqDepth) := beq_eq_decide _ _

theorem busy_eq_false_iff (s : State) : busy s = false ↔ s.cq = [] := by simp [busy]

/-- Settles O46: each field of STATUS, where CQ_COUNT holds the length of a queue within its capacity. -/
theorem statusShowsQueueAndInterrupt : Obligations.StatusShowsQueueAndInterrupt := by
  have haddr : IsRegAddr 0x004#32 .status := by decide
  refine ⟨fun s hlegal hqueue => ?_, hostWrite_reg haddr, ?_⟩
  · obtain ⟨hbusy, hfull, hirq, hlow, hcount, hhigh⟩ := statusWord_fields s
    have hlength : s.cq.length < 2 ^ 16 := by have := legal_bounds hlegal; omega
    rw [hostRead_reg haddr]
    refine ⟨rfl, hbusy.trans (busy_eq_decide s), hfull.trans (cqFull_eq_decide s), hirq, hlow, ?_, hhigh⟩
    exact (congrArg BitVec.toNat hcount).trans ((BitVec.toNat_ofNat ..).trans (Nat.mod_eq_of_lt hlength))
  · rw [hostRead_reg haddr]
    rfl

/-- A CTRL write that nothing protects against: all four fields take their values. -/
theorem writeCtrl_writes {w : Word} {s : State}
    (h : busy s = false ∨
      legalQuality (w.extractLsb' 0 7) = s.ctrl.quality ∧
        legalSubsample s.ctrl.subsample (w.extractLsb' 8 2) = s.ctrl.subsample) :
    writeCtrl w s =
      { s with
        ctrl :=
          { quality := legalQuality (w.extractLsb' 0 7)
            subsample := legalSubsample s.ctrl.subsample (w.extractLsb' 8 2)
            fenceIrqEn := w.getLsbD 16
            errIrqEn := w.getLsbD 17 } } := by
  simp only [writeCtrl]
  by_cases hb : busy s = true
  · obtain ⟨hq, hss⟩ := h.resolve_left (by simp [hb])
    rw [if_pos hb, if_pos ⟨hq, hss⟩, hq, hss]
  · rw [if_neg hb]

/-- A CTRL write that would change a protected field while busy: the enables take their values, and BUSY_WRITE is
recorded. -/
theorem writeCtrl_refuses {w : Word} {s : State} (hb : busy s = true)
    (h : ¬ (legalQuality (w.extractLsb' 0 7) = s.ctrl.quality ∧
        legalSubsample s.ctrl.subsample (w.extractLsb' 8 2) = s.ctrl.subsample)) :
    writeCtrl w s =
      raise .busyWrite 0#32 0x008#32
        { s with ctrl := { s.ctrl with fenceIrqEn := w.getLsbD 16, errIrqEn := w.getLsbD 17 } } := by
  simp only [writeCtrl]
  rw [if_pos hb, if_neg h]

/-- Settles O44: a CTRL write is either written or refused, and a read gives the fields of the CTRL word. -/
theorem ctrlWriteIsLegalizedAndProtected : Obligations.CtrlWriteIsLegalizedAndProtected := by
  have haddr : IsRegAddr 0x008#32 .ctrl := by decide
  rintro w s q ss rfl rfl
  obtain ⟨hquality, h7, hsubsample, h10, h16, h17, h18⟩ := ctrlWord_fields s.ctrl
  rw [hostWrite_reg haddr, hostRead_reg haddr, hostRead_reg haddr]
  refine ⟨fun h => writeCtrl_writes (h.imp_left (busy_eq_false_iff s).mpr), fun hq => writeCtrl_refuses ?_,
    rfl, hquality, hsubsample, h16, h17, h7, h10, h18, rfl⟩
  simpa [busy] using hq

end Sys2Proof.Machine
end

section
/-! SUPPORT. What a Host access and a command can do to ERR, FENCE_COMPLETED and the DC predictors (spec/10_state.md
R24, R36, R40). -/

namespace Sys2Proof.Machine

/-- `t` is `s` with other values of what the Host stores: the queue, the registers of configuration, FENCE_EVENT,
CMD_ARG and the RAMs (20_memory.md R62, R63). -/
def HostUpdate (s t : State) : Prop :=
  t = { s with
    cq := t.cq, ctrl := t.ctrl, surfW := t.surfW, surfH := t.surfH, comps := t.comps, fenceEvent := t.fenceEvent,
    cmdArg := t.cmdArg, mem := t.mem }

/-- What a Host write other than an acknowledgement of errors leaves: what it stores, with at most one error
recorded. -/
inductive HostWritten (s : State) : State → Prop where
  | stored {t : State} (h : HostUpdate s t) : HostWritten s t
  | recorded {t : State} (h : HostUpdate s t) (e : ErrKind) (aux : Word) : HostWritten s (raise e 0#32 aux t)

theorem HostUpdate.err {s t : State} (h : HostUpdate s t) : t.err = s.err := by rw [h]

theorem HostUpdate.fenceCompleted {s t : State} (h : HostUpdate s t) : t.fenceCompleted = s.fenceCompleted := by rw [h]

theorem HostUpdate.prevDc {s t : State} (h : HostUpdate s t) : t.prevDc = s.prevDc := by rw [h]

theorem HostWritten.err_keeps {s t : State} (h : HostWritten s t) : s.err &&& t.err = s.err := by
  cases h with
  | stored h => rw [h.err, BitVec.and_self]
  | recorded h e aux => rw [← h.err, raise_err_keeps]

theorem HostWritten.fenceCompleted {s t : State} (h : HostWritten s t) : t.fenceCompleted = s.fenceCompleted := by
  cases h with
  | stored h => exact h.fenceCompleted
  | recorded h e aux => rw [raise_fenceCompleted, h.fenceCompleted]

theorem HostWritten.prevDc {s t : State} (h : HostWritten s t) : t.prevDc = s.prevDc := by
  cases h with
  | stored h => exact h.prevDc
  | recorded h e aux => rw [raise_prevDc, h.prevDc]

theorem raise_hostWritten (e : ErrKind) (aux : Word) (s : State) : HostWritten s (raise e 0#32 aux s) :=
  .recorded (t := s) rfl e aux

theorem protectedWrite_hostWritten (addr : Word) {s t : State} (h : HostUpdate s t) :
    HostWritten s (protectedWrite addr s t) := by
  unfold protectedWrite
  split
  · exact raise_hostWritten .busyWrite addr s
  · exact .stored h

theorem pushCommand_hostWritten (w : Word) (s : State) : HostWritten s (pushCommand w s) := by
  unfold pushCommand
  split
  · exact raise_hostWritten .cqOverflow w s
  · exact .stored rfl

theorem writeCtrl_hostWritten (w : Word) (s : State) : HostWritten s (writeCtrl w s) := by
  simp only [writeCtrl]
  split
  · split
    · exact .stored rfl
    · refine .recorded ?_ .busyWrite 0x008#32
      rfl
  · exact .stored rfl

theorem writeReg_hostWritten {r : Reg} (hr : r ≠ .err) (addr w : Word) (s : State) :
    HostWritten s (writeReg r addr w s) := by
  cases r with
  | err => exact absurd rfl hr
  | ctrl => exact writeCtrl_hostWritten w s
  | cmd => exact pushCommand_hostWritten w s
  | surfW | surfH | compNb | compBase | compSel => exact protectedWrite_hostWritten addr rfl
  | _ => exact .stored rfl

/-- ERR stands at one offset only (10_state.md R24). -/
theorem regAt_eq_err {n : Nat} (h : regAt n = .err) : n = 0x010 := by
  unfold regAt at h
  split at h <;> cases h
  rfl

theorem hostWrite_err (w : Word) (s : State) : hostWrite 0x010#32 w s = ackErrors w s :=
  hostWrite_reg (r := .err) (by decide) w s

theorem hostWrite_hostWritten {addr : Word} (ha : addr ≠ 0x010#32) (w : Word) (s : State) :
    HostWritten s (hostWrite addr w s) := by
  unfold hostWrite
  split
  · exact raise_hostWritten .busError addr s
  · split
    · exact raise_hostWritten .busError addr s
    · rename_i r hr
      refine writeReg_hostWritten ?_ addr w s
      rintro rfl
      unfold locate at hr
      split at hr
      · exact ha (BitVec.eq_of_toNat_eq (regAt_eq_err (HostLoc.reg.inj hr)))
      · split at hr <;> cases hr
    · exact protectedWrite_hostWritten addr rfl

/-- A Host read leaves the state, records BUS_ERROR, or counts a free draw. -/
theorem hostRead_state (addr : Word) (s : State) :
    (hostRead addr s).2 = s ∨ (hostRead addr s).2 = raise .busError 0#32 addr s ∨
      (hostRead addr s).2 = (drawWord s).2 := by
  unfold hostRead
  split
  · exact .inr (.inl rfl)
  · split
    · exact .inr (.inl rfl)
    · exact .inl rfl
    · split
      · exact .inr (.inr rfl)
      · split
        · exact .inl rfl
        · exact .inr (.inr rfl)

theorem hostRead_err_keeps (addr : Word) (s : State) : s.err &&& (hostRead addr s).2.err = s.err := by
  obtain h | h | h := hostRead_state addr s <;> rw [h]
  · exact BitVec.and_self
  · exact raise_err_keeps .busError 0#32 addr s
  · exact BitVec.and_self

/-- DISPATCH clears no error flag, and writes neither FENCE_COMPLETED nor a predictor. -/
theorem exec_dispatch_keeps {comp : BitVec 2} {rsvd : BitVec 22} {arg : Word} {s t : State}
    (h : exec (.dispatch comp rsvd arg) s = .next t) :
    s.err &&& t.err = s.err ∧ t.fenceCompleted = s.fenceCompleted ∧ t.prevDc = s.prevDc := by
  have recorded (e : ErrKind) (r a : Word) : s.err &&& (raise e r a s).err = s.err ∧
      (raise e r a s).fenceCompleted = s.fenceCompleted ∧ (raise e r a s).prevDc = s.prevDc :=
    ⟨raise_err_keeps e r a s, raise_fenceCompleted e r a s, raise_prevDc e r a s⟩
  obtain ⟨-, rfl⟩ | ⟨c, -, ⟨-, rfl⟩ | ⟨-, -, rfl⟩ | ⟨-, -, -, rfl⟩ | ⟨-, -, -, tb, outs, -, -, rfl⟩⟩ :=
    execDispatch_next h
  · exact recorded ..
  · exact ⟨BitVec.and_self, rfl, rfl⟩
  · exact recorded ..
  · exact recorded ..
  · refine ⟨commitBlocks_err_keeps (ebs s) s outs, ?_, ?_⟩ <;> rw [commitBlocks_frame]

/-- DCENC clears no error flag, and does not write FENCE_COMPLETED. -/
theorem exec_dcenc_keeps {comp : BitVec 2} {rsvd : BitVec 22} {r : Word} {s t : State}
    (h : exec (.dcenc comp rsvd r) s = .next t) :
    s.err &&& t.err = s.err ∧ t.fenceCompleted = s.fenceCompleted := by
  obtain ⟨-, rfl⟩ | ⟨c, -, ⟨-, rfl⟩ | ⟨dc, -, -, hdc⟩⟩ := execDcenc_next h
  · exact ⟨raise_err_keeps .badComp _ _ s, raise_fenceCompleted .badComp _ _ s⟩
  · exact ⟨raise_err_keeps .range _ _ s, raise_fenceCompleted .range _ _ s⟩
  · obtain ⟨-, rfl⟩ | ⟨cat, e, -, -, ⟨-, rfl⟩ | ⟨-, rfl⟩⟩ := dcencWith_ok hdc
    · exact ⟨raise_err_keeps .dcCategory _ _ (memWrite (setPrevDc s c dc) .dcm r.toNat dcmMarker),
        raise_fenceCompleted .dcCategory _ _ _⟩
    · exact ⟨BitVec.and_self, rfl⟩
    · exact ⟨raise_err_keeps .dcNoCode _ _ (memWrite (setPrevDc s c dc) .dcm r.toNat dcmMarker),
        raise_fenceCompleted .dcNoCode _ _ _⟩

theorem exec_err_keeps {i : Instr} {s t : State} (h : exec i s = .next t) : s.err &&& t.err = s.err := by
  cases i with
  | nop | signal | dcrst => cases h; exact BitVec.and_self
  | dispatch => exact (exec_dispatch_keeps h).1
  | dcenc => exact (exec_dcenc_keeps h).1

/-- Settles O39: a write to ERR acknowledges errors, and every other access and every command can only record one. -/
theorem errorFlagsAreStickyUntilWrittenWithOne : Obligations.ErrorFlagsAreStickyUntilWrittenWithOne :=
  ⟨hostRead_reg (r := .err) (by decide), fun s w => hostWrite_err w s, fun _ _ _ => exec_err_keeps,
    fun _ w s ha => (hostWrite_hostWritten ha w s).err_keeps, hostRead_err_keeps, rfl⟩

theorem exec_fenceCompleted {i : Instr} {s t : State} (h : exec i s = .next t)
    (hi : ∀ comp rsvd arg, i ≠ .signal comp rsvd arg) : t.fenceCompleted = s.fenceCompleted := by
  cases i with
  | nop | dcrst => cases h; rfl
  | signal comp rsvd arg => exact absurd rfl (hi comp rsvd arg)
  | dispatch => exact (exec_dispatch_keeps h).2.1
  | dcenc => exact (exec_dcenc_keeps h).2

theorem exec_prevDc {i : Instr} {s t : State} (h : exec i s = .next t)
    (hi : ∀ comp rsvd arg, i ≠ .dcrst comp rsvd arg ∧ i ≠ .dcenc comp rsvd arg) : t.prevDc = s.prevDc := by
  cases i with
  | nop | signal => cases h; rfl
  | dispatch => exact (exec_dispatch_keeps h).2.2
  | dcrst comp rsvd arg => exact absurd rfl (hi comp rsvd arg).1
  | dcenc comp rsvd arg => exact absurd rfl (hi comp rsvd arg).2

/-- A Host write, to ERR or elsewhere, writes neither FENCE_COMPLETED nor a predictor. -/
theorem hostWrite_fenceCompleted_prevDc (addr w : Word) (s : State) :
    (hostWrite addr w s).fenceCompleted = s.fenceCompleted ∧ (hostWrite addr w s).prevDc = s.prevDc := by
  by_cases ha : addr = 0x010#32
  · rw [ha, hostWrite_err]
    exact ⟨rfl, rfl⟩
  · have hw := hostWrite_hostWritten ha w s
    exact ⟨hw.fenceCompleted, hw.prevDc⟩

/-- Settles O55, by the command, and by what a Host access can change. -/
theorem onlyTheirCommandsWriteFenceAndPredictors : Obligations.OnlyTheirCommandsWriteFenceAndPredictors := by
  refine ⟨fun i s t h => ⟨exec_fenceCompleted h, exec_prevDc h⟩, fun addr w s => ?_,
    hostWrite_reg (r := .fenceEvent) (by decide)⟩
  obtain ⟨hfence, hprev⟩ := hostWrite_fenceCompleted_prevDc addr w s
  rw [hostRead_frame]
  exact ⟨hfence, hprev, rfl, rfl⟩

end Sys2Proof.Machine
end

section
/-! SUPPORT. Host accesses by where their address leads: a bus error, a register, a word of a RAM (spec/20_memory.md
R53 to R64). -/

namespace Sys2Proof.Machine

/-! Bus errors -/

theorem locate_unmapped {p : Params} {addr : Nat} (hreg : 0x100 ≤ addr)
    (hram : ∀ sp, addr < spaceBase sp ∨ spaceBase sp + 4 * spaceWords p sp ≤ addr) : locate p addr = .unmapped := by
  have hfind : allSpaces.find? (inWindow p addr) = none := by
    rw [List.find?_eq_none]
    intro sp _
    have := hram sp
    simp only [inWindow, decide_eq_true_eq]
    omega
  simp only [locate, if_neg (Nat.not_lt.mpr hreg), hfind]

theorem hostRead_busError {addr : Word} {s : State}
    (h : addr.toNat % 4 ≠ 0 ∨ locate s.params addr.toNat = .unmapped) :
    hostRead addr s = (0#32, raise .busError 0#32 addr s) := by
  unfold hostRead
  by_cases h4 : addr.toNat % 4 ≠ 0
  · rw [if_pos h4]
  · rw [if_neg h4, h.resolve_left h4]

theorem hostWrite_busError {addr : Word} {s : State}
    (h : addr.toNat % 4 ≠ 0 ∨ locate s.params addr.toNat = .unmapped) (w : Word) :
    hostWrite addr w s = raise .busError 0#32 addr s := by
  unfold hostWrite
  by_cases h4 : addr.toNat % 4 ≠ 0
  · rw [if_pos h4]
  · rw [if_neg h4, h.resolve_left h4]

/-- Settles O41: such an address is misaligned or leads nowhere. -/
theorem busErrorsTouchTheErrorStateOnly : Obligations.BusErrorsTouchTheErrorStateOnly := by
  intro addr w s h
  have hbus : addr.toNat % 4 ≠ 0 ∨ locate s.params addr.toNat = .unmapped :=
    h.imp_right fun ⟨hreg, hram⟩ => locate_unmapped hreg hram
  exact ⟨hostRead_busError hbus, hostWrite_busError hbus w⟩

/-! Registers -/

/-- The registers a Host write leaves as they are (10_state.md R20 to R40), and the reserved offsets. -/
def Reg.readOnly : Reg → Bool
  | .id | .status | .ebs | .errCode | .errRegion | .errAux | .capResult | .capDcm | .capCq | .fenceCompleted
  | .prevDc _ | .reserved => true
  | _ => false

/-- The registers a Host write reaches only while the queue is empty (20_memory.md R63), beside CTRL, which has its
own rule (10_state.md R22). -/
def Reg.isConfig : Reg → Bool
  | .surfW | .surfH | .compNb _ | .compBase _ | .compSel _ => true
  | _ => false

theorem writeReg_readOnly {r : Reg} (hr : r.readOnly = true) (addr w : Word) (s : State) :
    writeReg r addr w s = s := by
  cases r with
  | ctrl | err | surfW | surfH | compNb | compBase | compSel | fenceEvent | cmdArg | cmd => cases hr
  | _ => rfl

theorem protectedWrite_busy {s : State} (hb : s.cq ≠ []) (addr : Word) (t : State) :
    protectedWrite addr s t = raise .busyWrite 0#32 addr s := by
  simp [protectedWrite, busy, hb]

theorem protectedWrite_idle {s : State} (hb : s.cq = []) (addr : Word) (t : State) : protectedWrite addr s t = t := by
  simp [protectedWrite, busy, hb]

theorem writeReg_isConfig_busy {r : Reg} (hr : r.isConfig = true) {s : State} (hb : s.cq ≠ []) (addr w : Word) :
    writeReg r addr w s = raise .busyWrite 0#32 addr s := by
  cases r with
  | surfW | surfH | compNb | compBase | compSel => exact protectedWrite_busy hb addr _
  | _ => cases hr

/-- The offsets of the register block that no rule names are reserved (20_memory.md R54). -/
theorem regAt_reserved {n : Nat}
    (h : (0x034 ≤ n ∧ n ≤ 0x03C) ∨ n = 0x04C ∨ n = 0x05C ∨ n = 0x06C ∨ (0x08C ≤ n ∧ n ≤ 0x0FC)) :
    regAt n = .reserved := by
  unfold regAt
  split
  case h_30 => rfl
  all_goals omega

/-- Reads at a list of register addresses. -/
theorem map_hostRead_reg {addrs : List Word} (h : ∀ a ∈ addrs, a.toNat % 4 = 0 ∧ a.toNat < 0x100) (s : State) :
    addrs.map (fun a => hostRead a s) = addrs.map fun a => (readReg s (regAt a.toNat), s) :=
  List.map_congr_left fun a ha => hostRead_reg ⟨(h a ha).1, (h a ha).2, rfl⟩ s

/-- Settles O42: every address named is that of a register; a reserved offset is one of the read-only registers. -/
theorem reservedAndReadOnlyOffsetsIgnoreWrites : Obligations.ReservedAndReadOnlyOffsetsIgnoreWrites := by
  refine ⟨fun s => ⟨map_hostRead_reg (by simp) s, map_hostRead_reg (by simp) s, map_hostRead_reg (by simp) s⟩,
    fun addr w s h4 h => ?_, fun addr w s h => ?_⟩
  · have haddr : IsRegAddr addr .reserved := ⟨h4, by omega, regAt_reserved h⟩
    rw [hostRead_reg haddr, hostWrite_reg haddr]
    exact ⟨rfl, rfl⟩
  · obtain ⟨h4, hlt, hr⟩ : addr.toNat % 4 = 0 ∧ addr.toNat < 0x100 ∧ (regAt addr.toNat).readOnly = true := by
      revert addr
      simp [regAt, Reg.readOnly]
    rw [hostWrite_reg ⟨h4, hlt, rfl⟩, writeReg_readOnly hr]

/-! Words of the RAMs -/

/-- `addr` is the byte address of word `i` of a RAM (20_memory.md R53, R58). -/
abbrev IsRamAddr (p : Params) (addr : Word) (sp : Space) (i : Nat) : Prop :=
  addr.toNat % 4 = 0 ∧ locate p addr.toNat = .ram sp i

theorem spaceAddr_aligned (sp : Space) (i : Nat) : spaceAddr sp i % 4 = 0 := by
  have hbase : spaceBase sp % 4 = 0 := by cases sp <;> rfl
  simp only [spaceAddr]
  omega

theorem isRamAddr_spaceAddr {p : Params} (hp : p.legal = true) {sp : Space} {i : Nat} (hi : i < spaceWords p sp)
    {addr : Word} (ha : addr.toNat = spaceAddr sp i) : IsRamAddr p addr sp i := by
  rw [IsRamAddr, ha]
  exact ⟨spaceAddr_aligned sp i, locate_spaceAddr hp hi⟩

theorem hostWrite_ram {addr : Word} {s : State} {sp : Space} {i : Nat} (h : IsRamAddr s.params addr sp i) (w : Word) :
    hostWrite addr w s = protectedWrite addr s (memWrite s sp i (storedWord sp w)) := by
  obtain ⟨h4, hl⟩ := h
  simp only [hostWrite, h4, ne_eq, not_true_eq_false, if_false, hl]

/-- A read of RESULT or DCM while busy, or of an undefined word, draws a free value. -/
theorem hostRead_ram_draws {addr : Word} {s : State} {sp : Space} {i : Nat} (h : IsRamAddr s.params addr sp i)
    (hfree : (isDataRam sp && busy s) = true ∨ memRead s sp i = none) : hostRead addr s = drawWord s := by
  obtain ⟨h4, hl⟩ := h
  simp only [hostRead, h4, ne_eq, not_true_eq_false, if_false, hl]
  split
  · rfl
  · rename_i hnot
    rw [hfree.resolve_left hnot]

theorem hostRead_ram_stored {addr w : Word} {s : State} {sp : Space} {i : Nat} (h : IsRamAddr s.params addr sp i)
    (hidle : (isDataRam sp && busy s) = false) (hw : memRead s sp i = some w) : hostRead addr s = (w, s) := by
  obtain ⟨h4, hl⟩ := h
  simp only [hostRead, h4, ne_eq, not_true_eq_false, if_false, hl, hidle, Bool.false_eq_true, hw]

theorem isDataRam_eq_false {sp : Space} (hr : sp ≠ .result) (hd : sp ≠ .dcm) : isDataRam sp = false := by
  cases sp with
  | result => exact absurd rfl hr
  | dcm => exact absurd rfl hd
  | _ => rfl

/-- Settles O43: a protected write is refused while the queue is not empty, and stores while it is. -/
theorem configurationWritesAreRefusedWhileBusy : Obligations.ConfigurationWritesAreRefusedWhileBusy := by
  refine ⟨fun addr w s hb h => ?_, fun addr w s sp i hp hb hi ha => ?_, fun addr w s sp i hp hb hi ha => ?_,
    fun w s hb => ⟨?_, ?_, ?_⟩⟩
  · obtain ⟨h4, hlt, hr⟩ : addr.toNat % 4 = 0 ∧ addr.toNat < 0x100 ∧ (regAt addr.toNat).isConfig = true := by
      revert addr
      simp [regAt, Reg.isConfig]
    rw [hostWrite_reg ⟨h4, hlt, rfl⟩, writeReg_isConfig_busy hr hb]
  · rw [hostWrite_ram (isRamAddr_spaceAddr hp hi ha), protectedWrite_busy hb]
  · rw [hostWrite_ram (isRamAddr_spaceAddr hp hi ha), protectedWrite_idle hb]
  · exact (hostWrite_reg (r := .surfW) (by decide) w s).trans (protectedWrite_idle hb _ _)
  · exact (hostWrite_reg (r := .surfH) (by decide) w s).trans (protectedWrite_idle hb _ _)
  · rintro c _ rfl
    exact ⟨(hostWrite_reg (r := .compNb c) (by cases c <;> decide) w s).trans (protectedWrite_idle hb _ _),
      (hostWrite_reg (r := .compBase c) (by cases c <;> decide) w s).trans (protectedWrite_idle hb _ _),
      (hostWrite_reg (r := .compSel c) (by cases c <;> decide) w s).trans (protectedWrite_idle hb _ _)⟩

/-- Settles O50: while busy the two data RAMs draw; otherwise the word stored decides. -/
theorem hostReadsOfRamsReturnStoredOrFreeWords : Obligations.HostReadsOfRamsReturnStoredOrFreeWords := by
  intro addr s sp i hp hi ha
  have hram := isRamAddr_spaceAddr hp hi ha
  refine ⟨fun hsp hb => hostRead_ram_draws hram (.inl ?_), fun h => ⟨fun w => hostRead_ram_stored hram ?_,
    fun hnone => hostRead_ram_draws hram (.inr hnone)⟩⟩
  · rcases hsp with rfl | rfl <;> simp [isDataRam, busy, hb]
  · rcases h with hb | ⟨hr, hd⟩
    · rw [(busy_eq_false_iff s).mpr hb, Bool.and_false]
    · rw [isDataRam_eq_false hr hd, Bool.false_and]

/-- The 21 stored bits of a Huffman word, the reserved ones zero (10_state.md R43). -/
theorem and_huffmanMask (w : Word) : w &&& 0x001FFFFF#32 = (0#11 ++ w.extractLsb' 0 21 : BitVec 32) := by
  apply BitVec.eq_of_toNat_eq
  rw [BitVec.toNat_and, BitVec.toNat_append, BitVec.extractLsb'_toNat]
  exact (Nat.and_two_pow_sub_one_eq_mod w.toNat 21).trans (by simp)

theorem isHuffman_iff (sp : Space) :
    isHuffman sp = true ↔ sp = .achuf0 ∨ sp = .achuf1 ∨ sp = .dchuf0 ∨ sp = .dchuf1 := by
  cases sp <;> decide

theorem storedWord_eq (sp : Space) (w : Word) :
    storedWord sp w = if sp = .achuf0 ∨ sp = .achuf1 ∨ sp = .dchuf0 ∨ sp = .dchuf1 then
      (0#11 ++ w.extractLsb' 0 21 : BitVec 32) else w := by
  simp only [storedWord, isHuffman_iff, and_huffmanMask]

theorem busy_memWrite (s : State) (sp : Space) (i : Nat) (v : Word) : busy (memWrite s sp i v) = busy s := rfl

/-- Settles O51: an idle write is one MemWrite of the stored bits. -/
theorem ramWordsReadBackAsStored : Obligations.RamWordsReadBackAsStored := by
  intro addr w s sp i hp hb hi ha
  have hidle : busy s = false := (busy_eq_false_iff s).mpr hb
  rw [hostWrite_ram_idle hp hi ha hidle, ← storedWord_eq]
  refine ⟨?_, fun sq j hj hne => memRead_memWrite_ne hp _ hi hj fun ⟨hsp, hij⟩ => hne ⟨hsp.symm, hij.symm⟩, rfl⟩
  have hidle' : (isDataRam sp && busy (memWrite s sp i (storedWord sp w))) = false := by
    rw [busy_memWrite, hidle, Bool.and_false]
  rw [hostRead_ram_stored (s := memWrite s sp i (storedWord sp w)) (isRamAddr_spaceAddr hp hi ha) hidle'
    (memRead_memWrite_same ..)]

/-! The cases of an access -/

/-- An aligned read of a mapped address leaves the state, or counts a free draw. -/
theorem hostRead_mapped {addr : Word} {s : State} (h4 : addr.toNat % 4 = 0)
    (hmapped : locate s.params addr.toNat ≠ .unmapped) :
    (hostRead addr s).2 = s ∨ (hostRead addr s).2 = (drawWord s).2 := by
  cases hl : locate s.params addr.toNat with
  | unmapped => exact absurd hl hmapped
  | reg r =>
    left
    simp only [hostRead, h4, ne_eq, not_true_eq_false, if_false, hl]
  | ram sp i =>
    cases hfree : isDataRam sp && busy s with
    | true => exact .inr (by rw [hostRead_ram_draws ⟨h4, hl⟩ (.inl hfree)])
    | false =>
      cases hw : memRead s sp i with
      | none => exact .inr (by rw [hostRead_ram_draws ⟨h4, hl⟩ (.inr hw)])
      | some w => exact .inl (by rw [hostRead_ram_stored ⟨h4, hl⟩ hfree hw])

/-- Settles O49, by the cases of a mapped read. -/
theorem hostReadsHaveNoSideEffects : Obligations.HostReadsHaveNoSideEffects := by
  refine ⟨fun addr s h4 hmapped => ?_, fun addr s h4 hlt => ?_, hostRead_reg (r := .cmd) (by decide)⟩
  · obtain h | h := hostRead_mapped h4 hmapped <;> rw [h]
    rfl
  · rw [hostRead_reg ⟨h4, hlt, rfl⟩]

/-- A Host write is a bus error, a write to a register, or a protected write to a word of a RAM. -/
theorem hostWrite_cases (addr w : Word) (s : State) :
    hostWrite addr w s = raise .busError 0#32 addr s ∨
    (∃ r, IsRegAddr addr r ∧ hostWrite addr w s = writeReg r addr w s) ∨
    (∃ sp i, i < spaceWords s.params sp ∧
      hostWrite addr w s = protectedWrite addr s (memWrite s sp i (storedWord sp w))) := by
  by_cases h4 : addr.toNat % 4 = 0
  · by_cases hlt : addr.toNat < 0x100
    · exact .inr (.inl ⟨_, ⟨h4, hlt, rfl⟩, hostWrite_reg ⟨h4, hlt, rfl⟩ w s⟩)
    · cases hl : locate s.params addr.toNat with
      | unmapped => exact .inl (hostWrite_busError (.inr hl) w)
      | reg r =>
        simp only [locate, if_neg hlt] at hl
        split at hl <;> cases hl
      | ram sp i => exact .inr (.inr ⟨sp, i, (locate_ram_aligned hl h4).1, hostWrite_ram ⟨h4, hl⟩ w⟩)
  · exact .inl (hostWrite_busError (.inl h4) w)

/-- CMD stands at one offset only (10_state.md R39). -/
theorem regAt_eq_cmd {n : Nat} (h : regAt n = .cmd) : n = 0x07C := by
  unfold regAt at h
  split at h <;> cases h
  rfl

theorem pushCommand_cq (w : Word) (s : State) :
    (pushCommand w s).cq = s.cq ∨ (pushCommand w s).cq = s.cq ++ [{ word := w, arg := s.cmdArg }] := by
  unfold pushCommand
  split
  · exact .inl (raise_cq ..)
  · exact .inr rfl

theorem protectedWrite_cq (addr : Word) {s t : State} (h : t.cq = s.cq) : (protectedWrite addr s t).cq = s.cq := by
  unfold protectedWrite
  split
  · exact raise_cq ..
  · exact h

theorem writeCtrl_cq (w : Word) (s : State) : (writeCtrl w s).cq = s.cq := by
  simp only [writeCtrl]
  split
  · split
    · rfl
    · exact raise_cq ..
  · rfl

theorem writeReg_cq {r : Reg} (hr : r ≠ .cmd) (addr w : Word) (s : State) : (writeReg r addr w s).cq = s.cq := by
  cases r with
  | cmd => exact absurd rfl hr
  | ctrl => exact writeCtrl_cq w s
  | surfW | surfH | compNb | compBase | compSel => exact protectedWrite_cq addr rfl
  | _ => rfl

/-- Settles O48: of all accesses and commands, a write to CMD alone touches the queue, and it appends. -/
theorem queuedEntriesAreNeverChanged : Obligations.QueuedEntriesAreNeverChanged := by
  refine ⟨fun addr w s => ?_, fun addr s => ?_, fun i s t h => ?_, hostWrite_reg (r := .cmdArg) (by decide)⟩
  · obtain h | ⟨r, ⟨-, -, hr⟩, h⟩ | ⟨sp, i, -, h⟩ := hostWrite_cases addr w s <;> rw [h]
    · exact .inl (raise_cq ..)
    · by_cases hcmd : r = .cmd
      · subst hcmd
        have haddr : addr = 0x07C#32 := BitVec.eq_of_toNat_eq (regAt_eq_cmd hr)
        exact (pushCommand_cq w s).imp_right fun hpush => ⟨haddr, hpush⟩
      · exact .inl (writeReg_cq hcmd addr w s)
    · exact .inl (protectedWrite_cq addr rfl)
  · rw [hostRead_frame]
  · rw [exec_frame h]

end Sys2Proof.Machine
end

section
/-! SUPPORT. What a command can write: DCENC its predictor and one DCM word, DISPATCH the regions of its grid
(spec/20_memory.md R67, 40_dispatch.md R100, 42_dc_coder.md R156). -/

namespace Sys2Proof.Machine

/-- `t` is `u` with at most one error recorded. -/
def AtMostOneError (u t : State) : Prop := t = u ∨ ∃ e r a, t = raise e r a u

theorem raise_atMostOneError (e : ErrKind) (r a : Word) (u : State) : AtMostOneError u (raise e r a u) :=
  .inr ⟨e, r, a, rfl⟩

theorem AtMostOneError.mem {u t : State} (h : AtMostOneError u t) : t.mem = u.mem := by
  obtain rfl | ⟨e, r, a, rfl⟩ := h
  · rfl
  · exact raise_mem e r a u

theorem AtMostOneError.prevDc {u t : State} (h : AtMostOneError u t) : t.prevDc = u.prevDc := by
  obtain rfl | ⟨e, r, a, rfl⟩ := h
  · rfl
  · exact raise_prevDc e r a u

/-! DCENC -/

/-- DCENC past its checks stores the predictor and one DCM word. -/
theorem dcencWith_stores {c : Comp} {r dc : Word} {s t : State} (h : dcencWith c r dc s = .ok t) :
    ∃ v, AtMostOneError (memWrite (setPrevDc s c dc) .dcm r.toNat v) t := by
  obtain ⟨-, rfl⟩ | ⟨cat, e, -, -, ⟨-, rfl⟩ | ⟨-, rfl⟩⟩ := dcencWith_ok h
  · exact ⟨_, raise_atMostOneError ..⟩
  · exact ⟨_, .inl rfl⟩
  · exact ⟨_, raise_atMostOneError ..⟩

/-- DCENC is refused and stores nothing, or it names a component and a region in range and stores. -/
theorem execDcenc_stores {comp : BitVec 2} {rsvd : BitVec 22} {r : Word} {s t : State}
    (h : exec (.dcenc comp rsvd r) s = .next t) :
    AtMostOneError s t ∨
    ∃ c dc v, compOf comp = some c ∧ dcRangeOk s r.toNat = true ∧
      AtMostOneError (memWrite (setPrevDc s c dc) .dcm r.toNat v) t := by
  obtain ⟨-, rfl⟩ | ⟨c, hc, ⟨-, rfl⟩ | ⟨dc, hrange, -, hdc⟩⟩ := execDcenc_next h
  · exact .inl (raise_atMostOneError ..)
  · exact .inl (raise_atMostOneError ..)
  · obtain ⟨v, hv⟩ := dcencWith_stores hdc
    exact .inr ⟨c, dc, v, hc, hrange, hv⟩

theorem execDcenc_prevDc {comp : BitVec 2} {rsvd : BitVec 22} {r : Word} {s t : State}
    (h : exec (.dcenc comp rsvd r) s = .next t) {d : Comp} (hd : compOf comp ≠ some d) :
    t.prevDc.get d = s.prevDc.get d := by
  obtain hno | ⟨c, dc, v, hc, -, hstored⟩ := execDcenc_stores h
  · rw [hno.prevDc]
  · have hne : d ≠ c := fun heq => hd (heq ▸ hc)
    rw [hstored.prevDc]
    exact PerComp_get_set_ne s.prevDc dc hne

theorem execDcenc_readByte {comp : BitVec 2} {rsvd : BitVec 22} {r : Word} {s t : State}
    (h : exec (.dcenc comp rsvd r) s = .next t) {a : Nat}
    (ha : a < spaceAddr .dcm r.toNat ∨ spaceAddr .dcm r.toNat + 4 ≤ a) : readByte t.mem a = readByte s.mem a := by
  obtain hno | ⟨c, dc, v, -, -, hstored⟩ := execDcenc_stores h
  · rw [hno.mem]
  · rw [hstored.mem, readByte_memWrite _ _ _ _ _ ha, setPrevDc_mem]

theorem execDcenc_refused {comp : BitVec 2} {rsvd : BitVec 22} {r : Word} {s t : State}
    (h : exec (.dcenc comp rsvd r) s = .next t) (hno : compOf comp = none ∨ dcRangeOk s r.toNat = false) :
    t.mem = s.mem ∧ t.prevDc = s.prevDc := by
  obtain hnothing | ⟨c, dc, v, hc, hrange, -⟩ := execDcenc_stores h
  · exact ⟨hnothing.mem, hnothing.prevDc⟩
  · simp [hc, hrange] at hno

/-- Settles O20, by what DCENC stores. -/
theorem dcencChangesItsPredictorAndItsWordOnly : Obligations.DcencChangesItsPredictorAndItsWordOnly := by
  intro comp rsvd r s t h
  obtain ⟨herr, hfence⟩ := exec_dcenc_keeps h
  refine ⟨?_, fun d => execDcenc_prevDc h, fun a => execDcenc_readByte h, execDcenc_refused h, herr⟩
  have hframe := exec_frame h
  rwa [hfence] at hframe

/-! DISPATCH -/

/-- DISPATCH stores nothing, or it names a component with a grid that fits and commits blocks of `N` words in the
regions of the grid. -/
theorem execDispatch_stores {comp : BitVec 2} {rsvd : BitVec 22} {arg : Word} {s t : State}
    (h : exec (.dispatch comp rsvd arg) s = .next t) :
    AtMostOneError s t ∨
    ∃ c outs, compOf comp = some c ∧ (gridCols s c * gridRows s c ≠ 0 ∧ s.surfW ≠ 0#16 ∧ s.surfH ≠ 0#16) ∧
      gridFits s c = true ∧
      (∀ ro ∈ outs, ro.2.words.length = ebs s ∧ regionBase s c ≤ ro.1 ∧
        ro.1 < regionBase s c + gridCols s c * gridRows s c) ∧
      t = commitBlocks (ebs s) s outs := by
  obtain ⟨-, rfl⟩ | ⟨c, hc, ⟨-, rfl⟩ | ⟨-, -, rfl⟩ | ⟨-, -, -, rfl⟩ |
    ⟨hgrid, hsurf, hfits, tb, outs, -, houts, ht⟩⟩ := execDispatch_next h
  · exact .inl (raise_atMostOneError ..)
  · exact .inl (.inl rfl)
  · exact .inl (raise_atMostOneError ..)
  · exact .inl (raise_atMostOneError ..)
  · obtain ⟨hw, hh⟩ := not_or.mp hsurf
    exact .inr ⟨c, outs, hc, ⟨hgrid, hw, hh⟩, hfits, blockOuts_bounds houts, ht⟩

/-- The words of a region among `lo` to `hi - 1` lie among those regions' words. -/
theorem region_words_bounds {n lo hi r : Nat} (hlo : lo ≤ r) (hhi : r < hi) : lo * n ≤ r * n ∧ r * n + n ≤ hi * n := by
  have hlast := Nat.mul_le_mul_right n (Nat.succ_le_of_lt hhi)
  rw [Nat.succ_mul] at hlast
  exact ⟨Nat.mul_le_mul_right n hlo, hlast⟩

theorem execDispatch_readByte {comp : BitVec 2} {rsvd : BitVec 22} {arg : Word} {s t : State}
    (h : exec (.dispatch comp rsvd arg) s = .next t) {a : Nat}
    (ha : ∀ c, compOf comp = some c → a < 0x01000000 + 4 * (regionBase s c * ebs s) ∨
      0x01000000 + 4 * ((regionBase s c + gridCols s c * gridRows s c) * ebs s) ≤ a) :
    readByte t.mem a = readByte s.mem a := by
  obtain hno | ⟨c, outs, hc, -, -, hbounds, rfl⟩ := execDispatch_stores h
  · rw [hno.mem]
  · refine readByte_commitBlocks _ _ _ _ (fun ro hro => (hbounds ro hro).1) fun ro hro => ?_
    obtain ⟨-, hlo, hhi⟩ := hbounds ro hro
    obtain ⟨hfirst, hlast⟩ := region_words_bounds (n := ebs s) hlo hhi
    have houtside := ha c hc
    simp only [spaceAddr, spaceBase]
    omega

theorem execDispatch_refused {comp : BitVec 2} {rsvd : BitVec 22} {arg : Word} {s t : State}
    (h : exec (.dispatch comp rsvd arg) s = .next t)
    (hno : compOf comp = none ∨ s.surfW = 0#16 ∨ s.surfH = 0#16 ∨
      (∀ c, compOf comp = some c → gridCols s c * gridRows s c = 0 ∨ gridFits s c = false)) : t.mem = s.mem := by
  obtain hnothing | ⟨c, outs, hc, ⟨hgrid, hw, hh⟩, hfits, -, -⟩ := execDispatch_stores h
  · exact hnothing.mem
  · obtain hnone | hw' | hh' | hgrid' := hno
    · rw [hc] at hnone
      cases hnone
    · exact absurd hw' hw
    · exact absurd hh' hh
    · exact ((hgrid' c hc).elim hgrid (by simp [hfits])).elim

/-- Settles O25, by what DISPATCH stores. -/
theorem dispatchChangesItsRegionsOnly : Obligations.DispatchChangesItsRegionsOnly := by
  intro comp rsvd arg s t h
  obtain ⟨herr, hfence, hprev⟩ := exec_dispatch_keeps h
  refine ⟨?_, fun c hc a ha => ?_, execDispatch_refused h, herr⟩
  · have hframe := exec_frame h
    rwa [hfence, hprev] at hframe
  · refine execDispatch_readByte h fun c' hc' => ?_
    obtain rfl : c = c' := Option.some.inj (hc.symm.trans hc')
    exact ha

/-! All commands -/

/-- RESULT and DCM, the RAMs that commands write, stand above every table. -/
theorem exec_readByte_tables {i : Instr} {s t : State} (h : exec i s = .next t) {a : Nat} (ha : a < 0x01000000) :
    readByte t.mem a = readByte s.mem a := by
  cases i with
  | nop | signal | dcrst => cases h; rfl
  | dispatch => exact execDispatch_readByte h fun c _ => .inl (by omega)
  | dcenc comp rsvd r =>
    have hbelow : a < spaceAddr .dcm r.toNat := by
      simp only [spaceAddr, spaceBase]
      omega
    exact execDcenc_readByte h (.inl hbelow)

/-- Settles O54, by the frame of a command. -/
theorem noCommandWritesConfiguration : Obligations.NoCommandWritesConfiguration := by
  refine fun i s t h => ⟨?_, fun a => exec_readByte_tables h⟩
  rw [exec_frame h]
  exact ⟨rfl, rfl, rfl, rfl, rfl, rfl, rfl, rfl, rfl, rfl, rfl, rfl⟩

end Sys2Proof.Machine
end

section
/-! SUPPORT. Every step keeps the invariant (spec/10_state.md R18, R22, R25, R43, 20_memory.md R53, R58): first the
operations on the state, then the commands, the Host accesses and the events. -/

namespace Sys2Proof.Machine

/-! The state's operations -/

/-- The fields the invariant speaks of. -/
def invFields (s : State) : Params × Memory × List Entry × Ctrl × BitVec 13 × BitVec 8 :=
  (s.params, s.mem, s.cq, s.ctrl, s.err, s.errCode)

/-- The invariant depends on those fields only. -/
theorem StateInv.of_invFields {s t : State} (h : StateInv s) (ht : invFields t = invFields s) : StateInv t := by
  simp only [invFields, Prod.mk.injEq] at ht
  obtain ⟨hparams, hmem, hcq, hctrl, herr, hcode⟩ := ht
  obtain ⟨legal, memWf, memMapped, memWhole, huffman, queue, qualityLow, qualityHigh, subsample, captured,
    codeRange⟩ := h
  simp only [MemMapped, MemWhole, HuffmanReservedZero, memRead, ← hparams, ← hmem, ← hcq, ← hctrl, ← herr,
    ← hcode] at *
  exact ⟨legal, memWf, memMapped, memWhole, huffman, queue, qualityLow, qualityHigh, subsample, captured, codeRange⟩

/-- The first error is captured under a code of the table, and a later one keeps the code. -/
theorem StateInv.raise {s : State} (h : StateInv s) (e : ErrKind) (r a : Word) : StateInv (raise e r a s) := by
  have hset : StateInv { s with err := s.err ||| errMask e, errCode := (Machine.raise e r a s).errCode } := by
    obtain ⟨hlow, hhigh⟩ := errCodeOf_range e
    refine { h with captured := fun _ => ?_, codeRange := ?_ } <;> simp only [raise_errCode] <;> split
    · intro hzero
      simp [hzero] at hlow
    · exact h.captured ‹_›
    · exact hhigh
    · exact h.codeRange
  exact hset.of_invFields (by simp [invFields])

theorem StateInv.atMostOneError {u t : State} (h : StateInv u) (ht : AtMostOneError u t) : StateInv t := by
  obtain rfl | ⟨e, r, a, rfl⟩ := ht
  · exact h
  · exact h.raise e r a

theorem StateInv.ackErrors {s : State} (h : StateInv s) (w : Word) : StateInv (ackErrors w s) := by
  refine { h with captured := fun hne => h.captured fun hzero => hne ?_ }
  rw [ackErrors_err, hzero, BitVec.zero_and]

theorem StateInv.popCommand {s : State} (h : StateInv s) : StateInv (popCommand s) := by
  refine { h with queue := ?_ }
  rw [popCommand_cq, List.length_tail]
  exact (Nat.sub_le _ _).trans h.queue

theorem StateInv.pushCommand {s : State} (h : StateInv s) (w : Word) : StateInv (pushCommand w s) := by
  unfold Machine.pushCommand
  split
  · exact h.raise ..
  · rename_i hfull
    have hroom : (s.cq ++ [(⟨w, s.cmdArg⟩ : Entry)]).length ≤ s.params.cqDepth := by
      rw [List.length_append, List.length_singleton]
      exact Nat.lt_of_le_of_ne h.queue hfull
    exact { h with queue := hroom }

theorem StateInv.resetEvent {s : State} (h : StateInv s) : StateInv (resetEvent s) where
  legal := h.legal
  memWf := rfl
  memMapped := fun _ ha => nomatch ha
  memWhole := fun _ _ _ _ => rfl
  huffman := fun _ _ _ _ _ hw => nomatch hw
  queue := Nat.zero_le _
  qualityLow := (by decide : 1 ≤ State.reset.ctrl.quality.toNat)
  qualityHigh := (by decide : State.reset.ctrl.quality.toNat ≤ 100)
  subsample := (by decide : State.reset.ctrl.subsample ≠ 3#2)
  captured := fun hne => absurd rfl hne
  codeRange := (by decide : State.reset.errCode.toNat ≤ 13)

/-! Memory -/

theorem memMapped_memWrite {s : State} (h : MemMapped s) {sp : Space} {i : Nat} (hi : i < spaceWords s.params sp)
    (v : Word) : MemMapped (memWrite s sp i v) := by
  intro a ha
  rw [memWrite_mem, readByte_writeWord] at ha
  split at ha
  · rename_i hin
    simp only [spaceAddr] at hin
    exact ⟨sp, decide_eq_true (by rw [memWrite_params]; omega)⟩
  · exact h a ha

theorem memWhole_memWrite {s : State} (h : MemWhole s) (sp : Space) (i : Nat) (v : Word) :
    MemWhole (memWrite s sp i v) := by
  intro a k ha hk
  have haligned := spaceAddr_aligned sp i
  rw [memWrite_mem, readByte_writeWord, readByte_writeWord]
  by_cases hat : a = spaceAddr sp i
  · rw [if_pos (by omega), if_pos (by omega)]
    rfl
  · rw [if_neg (by omega), if_neg (by omega)]
    exact h a k ha hk

theorem huffman_memWrite {s : State} (hp : s.params.legal = true) (h : HuffmanReservedZero s) {sp : Space} {i : Nat}
    (hi : i < spaceWords s.params sp) {v : Word} (hv : isHuffman sp = true → v.extractLsb' 21 11 = 0#11) :
    HuffmanReservedZero (memWrite s sp i v) := by
  intro sq j w hsq hj hw
  by_cases hsame : sp = sq ∧ i = j
  · obtain ⟨rfl, rfl⟩ := hsame
    obtain rfl : v = w := by simpa using hw
    exact hv hsq
  · exact h sq j w hsq hj ((memRead_memWrite_ne hp v hi hj hsame).symm.trans hw)

/-- A `MemWrite` inside the window, of a word without reserved bits, keeps the invariant. -/
theorem StateInv.memWrite {s : State} (h : StateInv s) {sp : Space} {i : Nat} (hi : i < spaceWords s.params sp)
    {v : Word} (hv : isHuffman sp = true → v.extractLsb' 21 11 = 0#11) : StateInv (memWrite s sp i v) :=
  { h with
    memWf := writeWord_wf s.mem (spaceAddr sp i) v h.memWf
    memMapped := memMapped_memWrite h.memMapped hi v
    memWhole := memWhole_memWrite h.memWhole sp i v
    huffman := huffman_memWrite h.legal h.huffman hi hv }

theorem StateInv.memWriteList {s : State} (h : StateInv s) {sp : Space} (hsp : isHuffman sp = false) {i : Nat}
    {ws : List Word} (hi : i + ws.length ≤ spaceWords s.params sp) : StateInv (memWriteList s sp i ws) := by
  induction ws generalizing s i with
  | nil => exact h
  | cons w ws ih =>
    rw [List.length_cons] at hi
    refine ih (h.memWrite (by omega) (by simp [hsp])) ?_
    rw [memWrite_params]
    omega

/-! The commands -/

/-- A block commits its words, and at most one error. -/
theorem commitBlock_atMostOneError (n : Nat) (s : State) (ro : Nat × BlockOut) :
    AtMostOneError (memWriteList s .result (ro.1 * n) ro.2.words) (commitBlock n s ro) := by
  simp only [commitBlock]
  split
  · exact .inl rfl
  · exact raise_atMostOneError ..

theorem StateInv.commitBlocks {s : State} (h : StateInv s) {n : Nat} {outs : List (Nat × BlockOut)}
    (hin : ∀ ro ∈ outs, ro.1 * n + ro.2.words.length ≤ s.params.resultWords) : StateInv (commitBlocks n s outs) := by
  induction outs generalizing s with
  | nil => exact h
  | cons ro rest ih =>
    obtain ⟨hro, hrest⟩ := List.forall_mem_cons.mp hin
    have hone : StateInv (commitBlock n s ro) :=
      (h.memWriteList (sp := .result) rfl hro).atMostOneError (commitBlock_atMostOneError n s ro)
    refine ih hone fun x hx => ?_
    rw [commitBlock_frame]
    exact hrest x hx

theorem StateInv.execDispatch {comp : BitVec 2} {rsvd : BitVec 22} {arg : Word} {s t : State} (h : StateInv s)
    (ht : exec (.dispatch comp rsvd arg) s = .next t) : StateInv t := by
  obtain hno | ⟨c, outs, -, -, hfits, hbounds, rfl⟩ := execDispatch_stores ht
  · exact h.atMostOneError hno
  · refine h.commitBlocks fun ro hro => ?_
    obtain ⟨hlen, hlo, hhi⟩ := hbounds ro hro
    rw [hlen]
    exact (region_words_bounds hlo hhi).2.trans (of_decide_eq_true hfits)

theorem StateInv.execDcenc {comp : BitVec 2} {rsvd : BitVec 22} {r : Word} {s t : State} (h : StateInv s)
    (ht : exec (.dcenc comp rsvd r) s = .next t) : StateInv t := by
  obtain hno | ⟨c, dc, v, -, hrange, hstored⟩ := execDcenc_stores ht
  · exact h.atMostOneError hno
  · have hpred : StateInv (setPrevDc s c dc) := h.of_invFields rfl
    have hr : r.toNat < spaceWords s.params .dcm := (of_decide_eq_true hrange).2
    exact (hpred.memWrite (sp := .dcm) hr (by simp [isHuffman])).atMostOneError hstored

theorem StateInv.exec {i : Instr} {s t : State} (h : StateInv s) (ht : exec i s = .next t) : StateInv t := by
  cases i with
  | nop | signal | dcrst => cases ht; exact h.of_invFields rfl
  | dispatch => exact h.execDispatch ht
  | dcenc => exact h.execDcenc ht

theorem StateInv.engineStep {s t : State} (h : StateInv s) (ht : engineStep s = .next t) : StateInv t := by
  obtain ⟨-, rfl⟩ | ⟨e, q, i, u, -, -, hexec, rfl⟩ | ⟨e, q, k, -, -, rfl⟩ := engineStep_next ht
  · exact h
  · exact (h.exec hexec).popCommand
  · exact (h.raise ..).popCommand

/-! The Host's accesses -/

theorem StateInv.protectedWrite {s t : State} (h : StateInv s) (ht : StateInv t) (addr : Word) :
    StateInv (protectedWrite addr s t) := by
  unfold Machine.protectedWrite
  split
  · exact h.raise ..
  · exact ht

theorem legalQuality_bounds (q : BitVec 7) : 1 ≤ (legalQuality q).toNat ∧ (legalQuality q).toNat ≤ 100 := by
  unfold legalQuality
  split
  · decide
  · rename_i hzero
    have hpos : q.toNat ≠ 0 := fun h => hzero (BitVec.eq_of_toNat_eq h)
    split
    · decide
    · omega

theorem legalSubsample_ne_three {old : BitVec 2} (hold : old ≠ 3#2) (new : BitVec 2) :
    legalSubsample old new ≠ 3#2 := by
  unfold legalSubsample
  split
  · exact hold
  · assumption

theorem StateInv.writeCtrl {s : State} (h : StateInv s) (w : Word) : StateInv (writeCtrl w s) := by
  by_cases hwrites : busy s = false ∨
      legalQuality (w.extractLsb' 0 7) = s.ctrl.quality ∧
        legalSubsample s.ctrl.subsample (w.extractLsb' 8 2) = s.ctrl.subsample
  · obtain ⟨hlow, hhigh⟩ := legalQuality_bounds (w.extractLsb' 0 7)
    rw [writeCtrl_writes hwrites]
    exact { h with
      qualityLow := hlow, qualityHigh := hhigh, subsample := legalSubsample_ne_three h.subsample _ }
  · obtain ⟨hbusy, hchange⟩ := not_or.mp hwrites
    have henables : StateInv { s with
        ctrl := { s.ctrl with fenceIrqEn := w.getLsbD 16, errIrqEn := w.getLsbD 17 } } := { h with }
    rw [writeCtrl_refuses (by simpa using hbusy) hchange]
    exact henables.raise ..

theorem StateInv.writeReg {s : State} (h : StateInv s) (r : Reg) (addr w : Word) : StateInv (writeReg r addr w s) := by
  cases r with
  | ctrl => exact h.writeCtrl w
  | err => exact h.ackErrors w
  | cmd => exact h.pushCommand w
  | surfW | surfH | compNb | compBase | compSel =>
    refine h.protectedWrite ?_ addr
    exact h.of_invFields rfl
  | _ => exact h.of_invFields rfl

theorem storedWord_reserved {sp : Space} (hsp : isHuffman sp = true) (w : Word) :
    (storedWord sp w).extractLsb' 21 11 = 0#11 := by
  rw [storedWord, if_pos hsp, and_huffmanMask]
  exact BitVec.extractLsb'_append_eq_left

theorem StateInv.hostWrite {s : State} (h : StateInv s) (addr w : Word) : StateInv (hostWrite addr w s) := by
  obtain hw | ⟨r, -, hw⟩ | ⟨sp, i, hi, hw⟩ := hostWrite_cases addr w s <;> rw [hw]
  · exact h.raise ..
  · exact h.writeReg r addr w
  · exact h.protectedWrite (h.memWrite hi fun hsp => storedWord_reserved hsp w) addr

theorem StateInv.hostReadEvent {s : State} (h : StateInv s) (addr : Word) : StateInv (hostReadEvent addr s) := by
  have hread : StateInv (hostRead addr s).2 := by
    obtain hr | hr | hr := hostRead_state addr s <;> rw [hr]
    · exact h
    · exact h.raise ..
    · exact h.of_invFields rfl
  exact hread.of_invFields rfl

/-! The events -/

theorem StateInv.waitEvent {c : WaitCond} {rest : List Input} {s t : State} (h : StateInv s)
    (ht : waitEvent c rest s = .next t) : StateInv t := by
  unfold Machine.waitEvent at ht
  split at ht
  · cases ht
    exact h.of_invFields rfl
  · split at ht
    · exact h.engineStep ht
    · cases ht

/-- Settles O60, by the event that stands first. -/
theorem everyStepKeepsTheInvariant : Obligations.EveryStepKeepsTheInvariant := by
  intro s t h ht
  have hrest (rest : List Input) : StateInv { s with inputs := rest } := h.of_invFields rfl
  unfold step at ht
  generalize s.inputs = events at ht
  match events, ht with
  | [], ht => exact h.engineStep ht
  | .engine :: rest, ht => exact (hrest rest).engineStep ht
  | .hostWrite addr w :: rest, ht =>
    cases ht
    exact (hrest rest).hostWrite addr w
  | .hostRead addr :: rest, ht =>
    cases ht
    exact (hrest rest).hostReadEvent addr
  | .wait c :: rest, ht => exact h.waitEvent ht
  | .reset :: rest, ht =>
    cases ht
    exact (hrest rest).resetEvent

end Sys2Proof.Machine
end

section
/-! SUPPORT. The decoder, opcode by opcode (spec/30_encoding.md R78, R79, R81, R82), and encoding as its inverse. -/

namespace Sys2Proof

theorem decode_nop {e : Entry} (h : opcField e.word = 0x00#8) :
    decode e = .ok (.nop (compField e.word) (rsvdField e.word) e.arg) := by
  simp [decode, h]

theorem decode_dispatch {e : Entry} (h : opcField e.word = 0x01#8) (hc : compField e.word ≠ 3#2) :
    decode e = .ok (.dispatch (compField e.word) (rsvdField e.word) e.arg) := by
  simp [decode, h, hc]

theorem decode_signal {e : Entry} (h : opcField e.word = 0x02#8) :
    decode e = .ok (.signal (compField e.word) (rsvdField e.word) e.arg) := by
  simp [decode, h]

theorem decode_dcrst {e : Entry} (h : opcField e.word = 0x03#8) :
    decode e = .ok (.dcrst (compField e.word) (rsvdField e.word) e.arg) := by
  simp [decode, h]

theorem decode_dcenc {e : Entry} (h : opcField e.word = 0x04#8) (hc : compField e.word ≠ 3#2) :
    decode e = .ok (.dcenc (compField e.word) (rsvdField e.word) e.arg) := by
  simp [decode, h, hc]

theorem decode_badComp {e : Entry} (hc : compField e.word = 3#2)
    (h : opcField e.word = 0x01#8 ∨ opcField e.word = 0x04#8) : decode e = .error .badComp := by
  obtain h | h := h <;> simp [decode, h, hc]

theorem decode_badOpcode {e : Entry} (h : 5 ≤ (opcField e.word).toNat) : decode e = .error .badOpcode := by
  have hne (k : BitVec 8) (hk : k.toNat < 5) : opcField e.word ≠ k := by
    rintro rfl
    omega
  simp [decode, hne]

/-- The rows of R78, and the opcodes R81 reserves. -/
theorem opcode_cases (opc : BitVec 8) :
    opc = 0x00#8 ∨ opc = 0x01#8 ∨ opc = 0x02#8 ∨ opc = 0x03#8 ∨ opc = 0x04#8 ∨ 5 ≤ opc.toNat := by
  bv_omega

/-- The opcode and the fields of every encoding, for all commands at once. -/
theorem encode_fields (i : Instr) : Laws.EncodeFields.Statement i := by
  cases i with
  | nop comp rsvd arg => exact Laws.EncodeFields.nop comp rsvd arg
  | dispatch comp rsvd arg => exact Laws.EncodeFields.dispatch comp rsvd arg
  | signal comp rsvd arg => exact Laws.EncodeFields.signal comp rsvd arg
  | dcrst comp rsvd arg => exact Laws.EncodeFields.dcrst comp rsvd arg
  | dcenc comp rsvd arg => exact Laws.EncodeFields.dcenc comp rsvd arg

theorem entry_of_fields {e : Entry} {opc : BitVec 8} (h : opcField e.word = opc) :
    { word := commandWord opc (compField e.word) (rsvdField e.word), arg := e.arg } = e := by
  subst h
  rw [commandWord_fields]

/-- What decoding can answer: the well-formed command that encodes to the entry, or the rejection its fields name. -/
theorem decode_cases (e : Entry) :
    (∃ i, decode e = .ok i ∧ encode i = e ∧ i.wellFormed = true) ∨
    (decode e = .error .badComp ∧ compField e.word = 3#2 ∧
      (opcField e.word = 0x01#8 ∨ opcField e.word = 0x04#8)) ∨
    (decode e = .error .badOpcode ∧ 5 ≤ (opcField e.word).toNat) := by
  obtain h | h | h | h | h | h := opcode_cases (opcField e.word)
  · exact .inl ⟨_, decode_nop h, entry_of_fields h, rfl⟩
  · by_cases hc : compField e.word = 3#2
    · exact .inr (.inl ⟨decode_badComp hc (.inl h), hc, .inl h⟩)
    · exact .inl ⟨_, decode_dispatch h hc, entry_of_fields h, by simpa [Instr.wellFormed] using hc⟩
  · exact .inl ⟨_, decode_signal h, entry_of_fields h, rfl⟩
  · exact .inl ⟨_, decode_dcrst h, entry_of_fields h, rfl⟩
  · by_cases hc : compField e.word = 3#2
    · exact .inr (.inl ⟨decode_badComp hc (.inr h), hc, .inr h⟩)
    · exact .inl ⟨_, decode_dcenc h hc, entry_of_fields h, by simpa [Instr.wellFormed] using hc⟩
  · exact .inr (.inr ⟨decode_badOpcode h, h⟩)

/-- Settles O2, by the decoder's row for the command's opcode. -/
theorem decodeOfEncodeIsTheCommand : Obligations.DecodeOfEncodeIsTheCommand := by
  intro i hi
  cases i with
  | nop | signal | dcrst =>
    simp [encode, decode_nop, decode_signal, decode_dcrst, opcField_commandWord, compField_commandWord,
      rsvdField_commandWord]
  | dispatch comp | dcenc comp =>
    have hc : comp ≠ 3#2 := by simpa [Instr.wellFormed] using hi
    simp [encode, decode_dispatch, decode_dcenc, hc, opcField_commandWord, compField_commandWord,
      rsvdField_commandWord]

/-- Settles O3: of what decoding can answer, only the first case is a command. -/
theorem encodeOfDecodeIsTheEntry : Obligations.EncodeOfDecodeIsTheEntry := by
  intro e i h
  obtain ⟨j, hj, henc, hwf⟩ | ⟨hrej, -⟩ | ⟨hrej, -⟩ := decode_cases e
  · obtain rfl : j = i := Except.ok.inj (hj.symm.trans h)
    exact ⟨henc, hwf⟩
  · cases hrej.symm.trans h
  · cases hrej.symm.trans h

/-! The opcode table -/

/-- Row `k` has opcode `k` in OPC and zeros below, and its mask is all of OPC. -/
theorem opcodeRows_eq :
    opcodeRows = (List.range 5).map fun k => (BitVec.ofNat 8 k ++ 0#24, BitVec.allOnes 8 ++ 0#24) := by
  decide

theorem rowMatches_iff (opc : BitVec 8) (w : Word) :
    rowMatches (opc ++ 0#24, BitVec.allOnes 8 ++ 0#24) w = true ↔ opcField w = opc := by
  have hw : w = opcField w ++ w.extractLsb' 0 24 :=
    (BitVec.extractLsb'_append_extractLsb' (w := 8) (len := 24)).symm
  have hmask : w &&& (BitVec.allOnes 8 ++ 0#24) = opcField w ++ 0#24 := by
    conv_lhs => rw [hw]
    rw [BitVec.and_append, BitVec.and_allOnes, BitVec.and_zero]
  rw [rowMatches, beq_iff_eq, hmask, BitVec.append_left_inj]

theorem opcodeRows_rowMatches_iff {k : Nat} {row : Word × Word} (h : opcodeRows[k]? = some row) (w : Word) :
    k < 5 ∧ (rowMatches row w = true ↔ opcField w = BitVec.ofNat 8 k) := by
  rw [opcodeRows_eq, List.getElem?_map, Option.map_eq_some_iff] at h
  obtain ⟨j, hj, rfl⟩ := h
  obtain ⟨hk, hjk⟩ := List.getElem?_eq_some_iff.mp hj
  obtain rfl : k = j := by simpa using hjk
  exact ⟨by simpa using hk, rowMatches_iff _ w⟩

theorem rowMatches_reserved {w : Word} (h : 5 ≤ (opcField w).toNat) {row : Word × Word} (hrow : row ∈ opcodeRows) :
    rowMatches row w = false := by
  obtain ⟨k, hk⟩ := List.getElem?_of_mem hrow
  obtain ⟨hlt, hiff⟩ := opcodeRows_rowMatches_iff hk w
  refine Bool.eq_false_iff.mpr fun hmatch => ?_
  rw [hiff.mp hmatch, BitVec.toNat_ofNat] at h
  omega

/-- Settles O4, by the rows' common form and what decoding can answer. -/
theorem opcodeRowsMatchTheirOpcodeOnly : Obligations.OpcodeRowsMatchTheirOpcodeOnly := by
  refine ⟨fun k row w h => (opcodeRows_rowMatches_iff h w).2, fun e i h => ?_, fun e hno => ?_⟩
  · obtain ⟨rfl, -⟩ := encodeOfDecodeIsTheEntry e i h
    exact (encode_fields i).1
  · obtain ⟨i, hi, -⟩ | ⟨-, hcomp, hopc⟩ | ⟨-, hopc⟩ := decode_cases e
    · exact absurd hi (hno i)
    · exact .inr ⟨hcomp, hopc⟩
    · exact .inl fun row => rowMatches_reserved hopc

end Sys2Proof
end

section
/-! SUPPORT. What a rejected entry does at the head of the queue, and what COMP and RSVD reach (spec/30_encoding.md
R79 to R81, R85). -/

namespace Sys2Proof.Machine

theorem popCommand_raise {s : State} {e : Entry} {q : List Entry} (hq : s.cq = e :: q) (k : ErrKind) (r a : Word) :
    popCommand (raise k r a s) = { raise k r a s with cq := q } := by
  simp [popCommand, hq]

theorem engineStep_badOpcode {s : State} {e : Entry} {q : List Entry} (hq : s.cq = e :: q)
    (h : 5 ≤ (opcField e.word).toNat) :
    engineStep s = .next { raise .badOpcode 0#32 e.word s with cq := q } := by
  rw [← popCommand_raise hq]
  simp [engineStep, hq, decode_badOpcode h]

theorem engineStep_badComp {s : State} {e : Entry} {q : List Entry} (hq : s.cq = e :: q)
    (hc : compField e.word = 3#2) (h : opcField e.word = 0x01#8 ∨ opcField e.word = 0x04#8) :
    engineStep s = .next { raise .badComp 0#32 e.word s with cq := q } := by
  rw [← popCommand_raise hq]
  simp [engineStep, hq, decode_badComp hc h]

theorem pushCommand_room {s : State} (h : s.cq.length ≠ s.params.cqDepth) (w : Word) :
    pushCommand w s = { s with cq := s.cq ++ [{ word := w, arg := s.cmdArg }] } :=
  if_neg h

/-- Settles O5: the decoder rejects the opcode, and the push does not look at it. -/
theorem reservedOpcodeIsRecordedAndRemoved : Obligations.ReservedOpcodeIsRecordedAndRemoved := by
  have haddr : IsRegAddr 0x07C#32 .cmd := by decide
  exact ⟨fun s e q => engineStep_badOpcode, fun s w hroom => (hostWrite_reg haddr w s).trans (pushCommand_room hroom w)⟩

/-- Settles O6: the decoder rejects COMP = 3 on DISPATCH and DCENC only, and the other meanings do not use COMP. -/
theorem componentFieldSelectsOrIsRejected : Obligations.ComponentFieldSelectsOrIsRejected := by
  refine ⟨⟨rfl, rfl, rfl⟩, fun s e q => engineStep_badComp, fun e h => ?_, fun _ _ _ _ _ => ⟨rfl, rfl, rfl⟩⟩
  obtain h | h | h := h
  · exact ⟨_, decode_nop h⟩
  · exact ⟨_, decode_signal h⟩
  · exact ⟨_, decode_dcrst h⟩

/-- Settles O1: each example has the fields its rule says. -/
theorem encodingExamplesDecodeAsStated : Obligations.EncodingExamplesDecodeAsStated := by
  have hdcenc : opcField 0x04C00000#32 = 0x04#8 ∧ compField 0x04C00000#32 = 3#2 := by decide
  have hreserved : 5 ≤ (opcField 0x7F000000#32).toNat := by decide
  have hdispatch : opcField 0x01FFFFFF#32 = 0x01#8 ∧ compField 0x01FFFFFF#32 = 3#2 := by decide
  refine ⟨rfl, rfl, rfl, fun s a q hq => ?_, fun s a q hq => ?_, fun a => ?_, rfl, fun s a q hq => ?_⟩
  · exact engineStep_badComp hq hdcenc.2 (.inr hdcenc.1)
  · exact engineStep_badOpcode hq hreserved
  · have hfields : opcField 0x01BFFFFF#32 = 0x01#8 ∧ compField 0x01BFFFFF#32 = 2#2 ∧
        rsvdField 0x01BFFFFF#32 = 0x3FFFFF#22 := by decide
    simp [decode_dispatch, hfields]
  · exact engineStep_badComp hq hdispatch.2 (.inl hdispatch.1)

/-! RSVD -/

/-- The same outcome, but for the command word an error may have captured in ERR_AUX (60_exceptions.md R197). -/
def SameButAux (o o' : Host.Outcome State Fault Refusal) : Prop :=
  o' = o ∨ ∃ t aux, o = .next t ∧ o' = .next { t with errAux := aux }

theorem SameButAux.ite {p : Prop} [Decidable p] {o₁ o₂ o₁' o₂' : Host.Outcome State Fault Refusal}
    (h₁ : SameButAux o₁ o₁') (h₂ : SameButAux o₂ o₂') : SameButAux (if p then o₁ else o₂) (if p then o₁' else o₂') := by
  split
  · exact h₁
  · exact h₂

theorem SameButAux.exists_errAux {t : State} {o : Host.Outcome State Fault Refusal} (h : SameButAux (.next t) o) :
    ∃ aux, o = .next { t with errAux := aux } := by
  obtain rfl | ⟨u, aux, hu, rfl⟩ := h
  · exact ⟨t.errAux, rfl⟩
  · cases hu
    exact ⟨aux, rfl⟩

/-- The word an error is recorded with reaches ERR_AUX only. -/
theorem raise_sameButAux (k : ErrKind) (r a a' : Word) (s : State) :
    SameButAux (.next (raise k r a s)) (.next (raise k r a' s)) := by
  refine .inr ⟨_, (raise k r a' s).errAux, rfl, ?_⟩
  unfold raise
  split <;> rfl

theorem exec_dispatch_sameButAux (comp : BitVec 2) (rsvd rsvd' : BitVec 22) (arg : Word) (s : State) :
    SameButAux (exec (.dispatch comp rsvd arg) s) (exec (.dispatch comp rsvd' arg) s) := by
  simp only [exec, execDispatch]
  cases compOf comp with
  | none => exact raise_sameButAux ..
  | some c => exact .ite (.inl rfl) (.ite (raise_sameButAux ..) (.ite (.inl rfl) (raise_sameButAux ..)))

theorem exec_dcenc_sameButAux (comp : BitVec 2) (rsvd rsvd' : BitVec 22) (r : Word) (s : State) :
    SameButAux (exec (.dcenc comp rsvd r) s) (exec (.dcenc comp rsvd' r) s) := by
  simp only [exec, execDcenc]
  cases compOf comp with
  | none => exact raise_sameButAux ..
  | some c => exact .ite (.inl rfl) (raise_sameButAux ..)

/-- Settles O7: RSVD enters no meaning but in the command word an error records. -/
theorem reservedBitsReachErrAuxOnly : Obligations.ReservedBitsReachErrAuxOnly := by
  intro comp rsvd rsvd' arg s t
  refine ⟨rfl, rfl, rfl, fun h => ?_, fun h => ?_⟩
  · exact (h ▸ exec_dispatch_sameButAux comp rsvd rsvd' arg s).exists_errAux
  · exact (h ▸ exec_dcenc_sameButAux comp rsvd rsvd' arg s).exists_errAux

end Sys2Proof.Machine
end

section
/-! SUPPORT. `Round` of a finite binary32 in each mode of QUANT_ROUND (spec/40_dispatch.md R111). -/

namespace Sys2Proof.Machine

/-- The rounded value of a finite pattern: its sign, and the rounding of its magnitude `n / d`. -/
theorem f32ToInt_finite {w : F32} (h : f32Finite w = true) :
    ∃ n d : Nat, 0 < d ∧ f32Rat w = signRat (f32Neg w) * ((n : ℚ) / d) ∧ ∀ mode,
      f32ToInt mode w =
        some (if f32Neg w then -(roundMagnitude mode n d : Int) else (roundMagnitude mode n d : Int)) := by
  obtain ⟨m, k, hu, hr⟩ := f32Unpack_finite w h
  refine ⟨m * 2 ^ k.toNat, 2 ^ (-k).toNat, by positivity, ?_, fun mode => ?_⟩
  · rw [hr, zpow_split]
    rfl
  · simp only [f32ToInt, hu]

theorem cast_signed (neg : Bool) (n : Nat) :
    ((if neg then -(n : Int) else (n : Int) : Int) : ℚ) = signRat neg * n := by
  cases neg <;> simp [signRat]

theorem signed_mod_two (neg : Bool) (n : Nat) : (if neg then -(n : Int) else (n : Int)) % 2 = 0 ↔ n % 2 = 0 := by
  cases neg <;> simp <;> omega

theorem abs_signRat_mul_sub (neg : Bool) (x y : ℚ) : |signRat neg * x - signRat neg * y| = |x - y| := by
  rw [← mul_sub, abs_mul, abs_signRat, one_mul]

theorem abs_signRat_mul {x : ℚ} (neg : Bool) (hx : 0 ≤ x) : |signRat neg * x| = x := by
  rw [abs_mul, abs_signRat, one_mul, abs_of_nonneg hx]

theorem signRat_mul_self (neg : Bool) : signRat neg * signRat neg = 1 := by
  cases neg <;> norm_num [signRat]

/-- A ratio is its integer quotient and a fraction. -/
theorem natCast_div_eq (n : Nat) {d : Nat} (hd : 0 < d) : (n : ℚ) / d = (n / d : Nat) + ((n % d : Nat) : ℚ) / d := by
  have hdq : (d : ℚ) ≠ 0 := by positivity
  have hn : (n : ℚ) = d * (n / d : Nat) + (n % d : Nat) := by exact_mod_cast (Nat.div_add_mod n d).symm
  field_simp
  exact hn

theorem mod_div_lt_one (n : Nat) {d : Nat} (hd : 0 < d) : ((n % d : Nat) : ℚ) / d < 1 := by
  rw [div_lt_one (by positivity)]
  exact_mod_cast Nat.mod_lt n hd

theorem roundMagnitude_tiesEven (n : Nat) {d : Nat} (hd : 0 < d) :
    |(roundMagnitude .tiesEven n d : ℚ) - n / d| ≤ 1 / 2 ∧
      (|(roundMagnitude .tiesEven n d : ℚ) - n / d| = 1 / 2 → roundMagnitude .tiesEven n d % 2 = 0) := by
  simp only [roundMagnitude]
  obtain ⟨hlow, hhigh, htie⟩ := divNearestEven_spec n d hd
  generalize divNearestEven n d = e at *
  have hdq : (0 : ℚ) < d := by positivity
  have hn : (n : ℚ) = n / d * d := by field_simp
  generalize (n : ℚ) / d = y at *
  have hlow' : (2 : ℚ) * n ≤ (2 * e + 1) * d := by exact_mod_cast hlow
  have hhigh' : (2 : ℚ) * e * d ≤ 2 * n + d := by exact_mod_cast hhigh
  constructor
  · rw [abs_le]
    constructor <;> nlinarith
  · intro h
    apply htie
    rcases (abs_eq (by norm_num)).mp h with h | h
    · right
      have : (2 : ℚ) * e * d = 2 * n + d := by rw [hn, sub_eq_iff_eq_add.mp h]; ring
      exact_mod_cast this
    · left
      have : (2 : ℚ) * n = (2 * e + 1) * d := by rw [hn, sub_eq_iff_eq_add.mp h]; ring
      exact_mod_cast this

theorem roundMagnitude_tiesAway (n : Nat) {d : Nat} (hd : 0 < d) :
    |(roundMagnitude .tiesAway n d : ℚ) - n / d| ≤ 1 / 2 ∧
      (|(roundMagnitude .tiesAway n d : ℚ) - n / d| = 1 / 2 → (n : ℚ) / d < roundMagnitude .tiesAway n d) := by
  have hdq : (0 : ℚ) < d := by positivity
  have hone := mod_div_lt_one n hd
  have hhalf : d ≤ 2 * (n % d) ↔ 1 / 2 ≤ ((n % d : Nat) : ℚ) / d := by
    rw [le_div_iff₀ hdq, one_div_mul_eq_div, div_le_iff₀' (by norm_num)]
    exact_mod_cast Iff.rfl
  have hzero : 0 ≤ ((n % d : Nat) : ℚ) / d := by positivity
  simp only [roundMagnitude, hhalf, natCast_div_eq n hd]
  generalize ((n % d : Nat) : ℚ) / d = t at *
  split
  · rw [Nat.cast_add_one, add_sub_add_left_eq_sub, abs_of_pos (by linarith)]
    exact ⟨by linarith, fun _ => by linarith⟩
  · rw [sub_add_cancel_left, abs_neg, abs_of_nonneg hzero]
    exact ⟨by linarith, fun _ => by linarith⟩

theorem roundMagnitude_trunc (n : Nat) {d : Nat} (hd : 0 < d) :
    |(roundMagnitude .trunc n d : ℚ) - n / d| < 1 ∧ (roundMagnitude .trunc n d : ℚ) ≤ n / d := by
  have hzero : 0 ≤ ((n % d : Nat) : ℚ) / d := by positivity
  simp only [roundMagnitude, natCast_div_eq n hd]
  rw [sub_add_cancel_left, abs_neg, abs_of_nonneg hzero]
  exact ⟨mod_div_lt_one n hd, by linarith⟩

/-- Settles O29: the sign is kept and the magnitude rounded, mode by mode. -/
theorem quotientRoundingFollowsItsMode : Obligations.QuotientRoundingFollowsItsMode := by
  intro x hx
  obtain ⟨n, d, hd, hrat, hint⟩ := f32ToInt_finite hx
  obtain ⟨evenNear, evenTie⟩ := roundMagnitude_tiesEven n hd
  obtain ⟨awayNear, awayTie⟩ := roundMagnitude_tiesAway n hd
  obtain ⟨truncNear, truncLe⟩ := roundMagnitude_trunc n hd
  have hy : (0 : ℚ) ≤ (n : ℚ) / d := by positivity
  refine ⟨_, _, _, hint .tiesEven, hint .tiesAway, hint .trunc, ?_⟩
  simp only [cast_signed, signed_mod_two, hrat, abs_signRat_mul_sub, abs_signRat_mul _ hy,
    abs_signRat_mul _ (Nat.cast_nonneg _)]
  refine ⟨evenNear, evenTie, awayNear, awayTie, truncNear, truncLe, ?_⟩
  rw [mul_mul_mul_comm, signRat_mul_self, one_mul]
  positivity

end Sys2Proof.Machine
end

section
/-! SUPPORT. When a coefficient and a block quantize (spec/40_dispatch.md R112). -/

namespace Sys2Proof.Machine

/-! One coefficient -/

theorem magRat_pos_iff (p : Nat) : 0 < magRat p ↔ p ≠ 0 := by
  have h2 (k : Int) : (0 : ℚ) < 2 ^ k := by positivity
  unfold magRat
  split <;> rw [mul_pos_iff_of_pos_right (h2 _), Nat.cast_pos] <;> omega

theorem f32Neg_eq (w : F32) : f32Neg w = decide (2 ^ 31 ≤ w.toNat) := BitVec.msb_eq_decide w

/-- A legal divisor is a positive finite value. -/
theorem divisorOk_iff (qd : F32) : divisorOk qd = true ↔ f32Finite qd = true ∧ 0 < f32Rat qd := by
  simp only [divisorOk, Bool.and_eq_true, Bool.not_eq_true', bne_iff_ne, and_assoc]
  refine and_congr_right fun hf => ?_
  rw [(f32Rat_eq qd hf).1]
  cases hs : f32Neg qd with
  | true =>
    have hle := magRat_nonneg (qd.toNat % 2 ^ 31)
    rw [if_pos rfl, neg_one_mul, neg_pos]
    simp only [Bool.true_eq_false, false_and, false_iff, not_lt, hle]
  | false =>
    have hlt : qd.toNat < 2 ^ 31 := by simpa [f32Neg_eq] using hs
    rw [Nat.mod_eq_of_lt hlt, if_neg (by decide), one_mul, magRat_pos_iff]
    simp [BitVec.toNat_eq]

/-- `Round` has an answer exactly where its operand is finite. -/
theorem f32ToInt_eq_none_iff (mode : QuantRound) (w : F32) : f32ToInt mode w = none ↔ f32Finite w = false := by
  cases hf : f32Finite w with
  | true =>
    obtain ⟨m, k, hu, -⟩ := f32Unpack_finite w hf
    simp [f32ToInt, hu]
  | false =>
    have he : f32Exp w = 255 := by simpa [f32Finite] using hf
    by_cases h0 : f32Frac w = 0 <;> simp [f32ToInt, f32Unpack, he, h0]

theorem quantizeOne_some {mode : QuantRound} {f qd : F32} {q : Int} (h : quantizeOne mode f qd = some q) :
    f32ToInt mode (f32Div f qd) = some q := by
  unfold quantizeOne at h
  split at h
  · split at h
    · cases h
    · rename_i z hz
      split at h <;> cases h
      exact hz
  · cases h

/-- A coefficient fails exactly at one of the four points of the rule. -/
theorem quantizeOne_eq_none_iff (mode : QuantRound) (f qd : F32) :
    quantizeOne mode f qd = none ↔
      (f32Finite qd = false ∨ f32Rat qd ≤ 0) ∨ f32Finite f = false ∨ f32Finite (f32Div f qd) = false ∨
        ∃ q, f32ToInt mode (f32Div f qd) = some q ∧ (q < -2 ^ 31 ∨ 2 ^ 31 - 1 < q) := by
  have hdivisor : f32Finite qd = false ∨ f32Rat qd ≤ 0 ↔ divisorOk qd = false := by
    rw [← Bool.not_eq_true (divisorOk qd), divisorOk_iff, not_and_or, Bool.not_eq_true, not_lt]
  rw [hdivisor, ← f32ToInt_eq_none_iff mode (f32Div f qd), quantizeOne]
  cases divisorOk qd with
  | false => simp
  | true =>
    cases f32Finite f with
    | false => simp
    | true =>
      cases f32ToInt mode (f32Div f qd) with
      | none => simp
      | some z =>
        simp only [Bool.and_self, if_true, ite_eq_right_iff, reduceCtorEq, imp_false, Bool.true_eq_false,
          Option.some.injEq, exists_eq_left', false_or]
        omega

/-! The scan of a block -/

/-- The scan stops at a coefficient. -/
def quantizeFails (mode : QuantRound) (x : F32 × F32) : Bool := (quantizeOne mode x.1 x.2).isNone

theorem quantizeFrom_cons_none {mode : QuantRound} {x : F32 × F32} (n : Nat) (rest : List (F32 × F32))
    (h : quantizeOne mode x.1 x.2 = none) : quantizeFrom mode n (x :: rest) = .error n := by
  simp only [quantizeFrom, h]

theorem quantizeFrom_cons_some {mode : QuantRound} {x : F32 × F32} {q : Int} (n : Nat) (rest : List (F32 × F32))
    (h : quantizeOne mode x.1 x.2 = some q) :
    quantizeFrom mode n (x :: rest) = (quantizeFrom mode (n + 1) rest).map (q :: ·) := by
  simp only [quantizeFrom, h]
  cases quantizeFrom mode (n + 1) rest <;> rfl

theorem quantizeFrom_eq_error_iff (mode : QuantRound) (n : Nat) (l : List (F32 × F32)) (bad : Nat) :
    quantizeFrom mode n l = .error bad ↔ (l.findIdx? (quantizeFails mode)).map (n + ·) = some bad := by
  induction l generalizing n with
  | nil => simp [quantizeFrom]
  | cons x rest ih =>
    rw [List.findIdx?_cons]
    cases hx : quantizeOne mode x.1 x.2 with
    | none => simp [quantizeFrom_cons_none n rest hx, quantizeFails, hx]
    | some q =>
      have hshift : (fun k => n + 1 + k) = (n + ·) ∘ (· + 1) := by
        funext k
        simp only [Function.comp_apply]
        omega
      rw [quantizeFrom_cons_some n rest hx, if_neg (by simp [quantizeFails, hx]), Option.map_map, ← hshift, ← ih]
      cases quantizeFrom mode (n + 1) rest <;> simp [Except.map]

theorem quantizeFrom_eq_ok_iff (mode : QuantRound) (n : Nat) (l : List (F32 × F32)) (qs : List Int) :
    quantizeFrom mode n l = .ok qs ↔ l.map (fun x => quantizeOne mode x.1 x.2) = qs.map some := by
  induction l generalizing n qs with
  | nil => cases qs <;> simp [quantizeFrom]
  | cons x rest ih =>
    cases hx : quantizeOne mode x.1 x.2 with
    | none => cases qs <;> simp [quantizeFrom_cons_none n rest hx, hx]
    | some q =>
      rw [quantizeFrom_cons_some n rest hx]
      cases qs with
      | nil => cases quantizeFrom mode (n + 1) rest <;> simp [Except.map]
      | cons q' qs =>
        rw [List.map_cons, List.map_cons, List.cons.injEq, ← ih (n + 1), hx]
        cases quantizeFrom mode (n + 1) rest <;> simp [Except.map]

/-- A list of optional values, each present, entry by entry. -/
theorem map_eq_map_some_iff {α β : Type} (f : α → Option β) (l : List α) (bs : List β) :
    l.map f = bs.map some ↔ bs.length = l.length ∧ ∀ (n : Nat) x, l[n]? = some x → f x = bs[n]? := by
  constructor
  · intro h
    have hlen : bs.length = l.length := by simpa using (congrArg List.length h).symm
    refine ⟨hlen, fun n x hx => ?_⟩
    obtain ⟨hn, rfl⟩ := List.getElem?_eq_some_iff.mp hx
    have hget : (l.map f)[n]? = (bs.map some)[n]? := by rw [h]
    simpa [hn, hlen] using hget
  · rintro ⟨hlen, hget⟩
    refine List.ext_getElem (by simp [hlen]) fun n hl hb => ?_
    rw [List.length_map] at hl hb
    rw [List.getElem_map, List.getElem_map, hget n l[n] (List.getElem?_eq_getElem hl), List.getElem?_eq_getElem hb]

/-- The smallest index of an entry with a property, in terms of the entries present. -/
theorem findIdx?_eq_some_iff_entries {α : Type} (p : α → Bool) (l : List α) (k : Nat) :
    l.findIdx? p = some k ↔
      k < l.length ∧ (∀ x, l[k]? = some x → p x = true) ∧ ∀ n x, n < k → l[n]? = some x → ¬p x = true := by
  rw [List.findIdx?_eq_some_iff_getElem]
  constructor
  · rintro ⟨hk, hfound, hbefore⟩
    refine ⟨hk, fun x hx => ?_, fun n x hn hx => ?_⟩
    · exact (List.getElem?_eq_some_iff.mp hx).2 ▸ hfound
    · exact (List.getElem?_eq_some_iff.mp hx).2 ▸ hbefore n hn
  · rintro ⟨hk, hfound, hbefore⟩
    exact ⟨hk, hfound _ (List.getElem?_eq_getElem hk), fun n hn => hbefore n _ hn (List.getElem?_eq_getElem _)⟩

/-- Settles O30: the scan stops at the first coefficient that fails, and is otherwise `quantizeOne` entry by entry. -/
theorem quantizationFailsAtTheFirstBadIndex : Obligations.QuantizationFailsAtTheFirstBadIndex := by
  intro mode l
  refine ⟨quantizeOne_eq_none_iff mode, fun f qd q => quantizeOne_some, fun bad => ?_, fun qs => ?_⟩
  · simp only [quantizeFrom_eq_error_iff, Nat.zero_add, Option.map_id', findIdx?_eq_some_iff_entries, quantizeFails,
      Option.isNone_iff_eq_none, ne_eq]
  · rw [quantizeFrom_eq_ok_iff, map_eq_map_some_iff]

end Sys2Proof.Machine
end

section
/-! SUPPORT. The transform under SEQ32 and the outcomes of a block (spec/40_dispatch.md R108, 41_zigzag_ac.md R141 to
R144). -/

namespace Sys2Proof.Machine

theorem matMul_length (a b : List F32) : (matMul a b).length = 64 := by simp [matMul]

/-- An entry of a product, its eight products and seven sums written out. -/
theorem matMul_entry (a b : List F32) {r c : Nat} {x : Nat → F32} (hr : r < 8) (hc : c < 8)
    (hx : ∀ k, x k = f32Mul (a.getD (8 * r + k) 0#32) (b.getD (8 * k + c) 0#32)) :
    (matMul a b)[8 * r + c]? = some (f32Add (f32Add (f32Add (f32Add (f32Add (f32Add (f32Add (x 0) (x 1)) (x 2))
      (x 3)) (x 4)) (x 5)) (x 6)) (x 7)) := by
  rw [matMul_getElem? a b hr hc]
  simp only [hx]
  rfl

section
variable {p : Params} {tb : Tables} {table : Nat → Option Word} {n : Nat} {samples : List F32}

theorem encodeBlock_quantInvalid {bad : Nat}
    (h : quantizeFrom p.quantRound 0 ((fdct p tb.d tb.dt samples).zip tb.q) = .error bad) :
    encodeBlock p tb table n samples =
      .ok (failedBlock 0#32 (List.replicate (n - 2) 0#32) .quantInvalid (BitVec.ofNat 32 bad)) := by
  simp only [encodeBlock, h]

theorem encodeBlock_quantized {q : List Int}
    (h : quantizeFrom p.quantRound 0 ((fdct p tb.d tb.dt samples).zip tb.q) = .ok q) :
    encodeBlock p tb table n samples = encodeRegion table n q := by
  simp only [encodeBlock, h]

end

section
variable {table : Nat → Option Word} {n : Nat} {q : List Int}

theorem encodeRegion_category {v : Int} (h : encodeAc table (zigzag q) = .error (.category v)) :
    encodeRegion table n q = .ok (failedBlock (BitVec.ofInt 32 (q.getD 0 0)) (List.replicate (n - 2) 0#32) .acCategory
      (BitVec.ofInt 32 v)) := by
  simp only [encodeRegion, h]

theorem encodeRegion_noCode {rs : Nat} (h : encodeAc table (zigzag q) = .error (.noCode rs)) :
    encodeRegion table n q = .ok (failedBlock (BitVec.ofInt 32 (q.getD 0 0)) (List.replicate (n - 2) 0#32) .acNoCode
      (BitVec.ofNat 32 rs)) := by
  simp only [encodeRegion, h]

theorem encodeRegion_overflow {bits : List Bool} (h : encodeAc table (zigzag q) = .ok bits)
    (hlen : 32 * (n - 2) < bits.length) :
    encodeRegion table n q = .ok (failedBlock (BitVec.ofInt 32 (q.getD 0 0)) (pack bits n) .acOverflow
      (BitVec.ofNat 32 bits.length)) := by
  simp only [encodeRegion, h, if_pos hlen]

theorem encodeRegion_fits {bits : List Bool} (h : encodeAc table (zigzag q) = .ok bits)
    (hlen : bits.length ≤ 32 * (n - 2)) :
    encodeRegion table n q = .ok
      { words := regionWords (BitVec.ofInt 32 (q.getD 0 0)) (pack bits n) (BitVec.ofNat 32 bits.length)
        err := none } := by
  simp only [encodeRegion, h, if_neg (Nat.not_lt.mpr hlen)]

end

/-- Settles O37: a block's outcome is its quantization's failure or, quantized, the outcome of its AC coding. -/
theorem regionHoldsTheOutcomeOfItsBlock : Obligations.RegionHoldsTheOutcomeOfItsBlock := by
  refine ⟨fun p d dt samples hp => by simp only [fdct, hp],
    fun a b => ⟨matMul_length a b, fun r c x hr hc hx => matMul_entry a b hr hc hx⟩, ?_⟩
  intro p tb table n samples
  refine ⟨fun bad hbad => encodeBlock_quantInvalid hbad, fun q hq => ?_⟩
  rw [encodeBlock_quantized hq]
  exact ⟨fun v hv => encodeRegion_category hv, fun rs hrs => encodeRegion_noCode hrs,
    fun bits hbits hlen => encodeRegion_overflow hbits hlen, fun bits hbits hlen => encodeRegion_fits hbits hlen⟩

end Sys2Proof.Machine
end

section
/-! SUPPORT. A DISPATCH whose tables are defined completes (spec/40_dispatch.md R100, R102). -/

namespace Sys2Proof.Machine

theorem spaceWords_qtabOf (s : State) (c : Comp) : spaceWords s.params (qtabOf s c) = 64 := by
  unfold qtabOf
  split <;> rfl

theorem spaceWords_achufOf (s : State) (c : Comp) : spaceWords s.params (achufOf s c) = 256 := by
  unfold achufOf
  split <;> rfl

/-- A RAM of `n` defined words is read whole. -/
theorem SpaceDefined.fetchWords {s : State} {sp : Space} {n : Nat} (h : SpaceDefined s sp)
    (hn : spaceWords s.params sp = n) : ∃ ws, fetchWords s sp 0 n = .ok ws := by
  refine fetchWords_defined fun k hk => ?_
  rw [Nat.zero_add]
  exact h k (hn ▸ hk)

theorem fetchTables_defined {s : State} {c : Comp} (hd : SpaceDefined s .dmat) (hdt : SpaceDefined s .dtmat)
    (hq : SpaceDefined s (qtabOf s c)) : ∃ tb, fetchTables s c = .ok tb := by
  obtain ⟨d, hd⟩ := hd.fetchWords (n := 64) rfl
  obtain ⟨dt, hdt⟩ := hdt.fetchWords (n := 64) rfl
  obtain ⟨q, hq⟩ := hq.fetchWords (spaceWords_qtabOf s c)
  exact ⟨⟨d, dt, q⟩, by simp only [fetchTables, hd, hdt, hq]⟩

theorem blockOut_of_encodeBlock {s : State} {c : Comp} {tb : Tables} {col row : Nat} {out : BlockOut}
    (h : encodeBlock s.params tb (memRead s (achufOf s c)) (ebs s) (sampleBlock s c col row) = .ok out) :
    blockOut s c tb (col, row) = .ok out := by
  simp only [blockOut, h]

/-- With its tables read and an outcome for every block, a DISPATCH commits the outcomes in order. -/
theorem dispatchGrid_ok {s : State} {c : Comp} {tb : Tables} {outs : List (Nat × BlockOut)}
    (ht : fetchTables s c = .ok tb) (h : blockOuts s c tb (gridBlocks (gridCols s c) (gridRows s c)) = .ok outs) :
    dispatchGrid c s = .ok (commitBlocks (ebs s) s outs) := by
  simp only [dispatchGrid, ht, h]

/-- Once the outcomes of a grid are committed, the region of each of its blocks holds the words of its outcome. -/
theorem memRead_commitBlocks_grid {s : State} {c : Comp} {tb : Tables} {outs : List (Nat × BlockOut)}
    {blk : Nat × Nat} {out : BlockOut} {k : Nat}
    (h : blockOuts s c tb (gridBlocks (gridCols s c) (gridRows s c)) = .ok outs)
    (hblk : blk ∈ gridBlocks (gridCols s c) (gridRows s c)) (hout : blockOut s c tb blk = .ok out) (hk : k < ebs s) :
    memRead (commitBlocks (ebs s) s outs) .result (blockRegion s c blk * ebs s + k) = out.words[k]? := by
  obtain ⟨hregions, houtcomes⟩ := blockOuts_ok h
  obtain ⟨n, hn⟩ := List.getElem?_of_mem hblk
  obtain ⟨out', hmem, hout'⟩ := houtcomes n blk hn
  obtain rfl : out' = out := Except.ok.inj (hout'.symm.trans hout)
  exact memRead_commitBlocks (ebs s) outs s (fun ro hro => (blockOuts_bounds h ro hro).1)
    (hregions ▸ gridRegions_nodup s c) k hk _ (List.mem_of_getElem? hmem)

/-- Settles O23: the tables are read, every block has an outcome, and its region keeps it. -/
theorem dispatchWritesEveryRegionOfTheGrid : Obligations.DispatchWritesEveryRegionOfTheGrid := by
  intro comp c rsvd arg s hc hgrid hw hh hfits hd hdt hq hac
  obtain ⟨tb, htb⟩ := fetchTables_defined hd hdt hq
  have coded {col row : Nat} (hcol : col < gridCols s c) (hrow : row < gridRows s c) :
      ∃ out, encodeBlock s.params tb (memRead s (achufOf s c)) (ebs s) (sampleBlock s c col row) = .ok out := by
    rcases hac with hdefined | hblocks
    · exact encodeBlock_defined fun k hk => hdefined k (spaceWords_achufOf s c ▸ hk)
    · exact hblocks tb col row htb hcol hrow
  obtain ⟨outs, houts⟩ : ∃ outs, blockOuts s c tb (gridBlocks (gridCols s c) (gridRows s c)) = .ok outs := by
    refine blockOuts_of_blocks fun blk hblk => ?_
    obtain ⟨hcol, hrow⟩ := mem_gridBlocks.mp hblk
    obtain ⟨out, hout⟩ := coded hcol hrow
    exact ⟨out, blockOut_of_encodeBlock hout⟩
  obtain ⟨hlengths, hwords⟩ := fetchTables_ok htb
  refine ⟨tb, commitBlocks (ebs s) s outs, ?_, hlengths, hwords, fun col row hcol hrow => ?_⟩
  · rw [exec_dispatch_grid hc hgrid hw hh hfits, dispatchGrid_ok htb houts]
  · obtain ⟨out, hout⟩ := coded hcol hrow
    have hblock := blockOut_of_encodeBlock hout
    exact ⟨out, hout, blockOut_length hblock,
      fun k hk => memRead_commitBlocks_grid (blk := (col, row)) houts (mem_gridBlocks.mpr ⟨hcol, hrow⟩) hblock hk⟩

end Sys2Proof.Machine
end

section
/-! SUPPORT. The pixels and the value of a sample (spec/40_dispatch.md R103 to R107). -/

namespace Sys2Proof.Machine

/-! Place -/

theorem sampleBlock_length (s : State) (c : Comp) (bx row : Nat) : (sampleBlock s c bx row).length = 64 := by
  simp [sampleBlock]

theorem surfaceTexel_listed {s : State} {x y : Nat} {texels : List Word} {t : Word} (hrow : s.surface[y]? = some texels)
    (ht : texels[x]? = some t) : surfaceTexel s x y = t := by
  simp only [surfaceTexel, hrow, List.getD_eq_getElem?_getD, ht, Option.getD_some]

theorem footprint_chroma {c : Comp} (hc : c ≠ .y) :
    footprint c 0#2 = (8, 8) ∧ footprint c 1#2 = (16, 8) ∧ footprint c 2#2 = (16, 16) := by
  cases c with
  | y => exact absurd rfl hc
  | cb => exact ⟨rfl, rfl, rfl⟩
  | cr => exact ⟨rfl, rfl, rfl⟩

/-- A footprint is a whole number of cells wide and high. -/
theorem footprint_multiple (c : Comp) (m : BitVec 2) : (footprint c m).1 % 8 = 0 ∧ (footprint c m).2 % 8 = 0 := by
  cases c <;> revert m <;> decide

theorem clampCoord_lt {dim : BitVec 16} (h : dim ≠ 0#16) (v : Nat) : clampCoord v dim.toNat < dim.toNat := by
  have : dim.toNat ≠ 0 := fun h0 => h (BitVec.eq_of_toNat_eq h0)
  simp only [clampCoord]
  omega

theorem sampleCell_mem {s : State} {fx fy bx row i j : Nat} {xy : Nat × Nat} (hw : s.surfW ≠ 0#16) (hh : s.surfH ≠ 0#16)
    (h : xy ∈ sampleCell s fx fy bx row i j) : xy.1 < s.surfW.toNat ∧ xy.2 < s.surfH.toNat := by
  simp only [sampleCell, List.mem_flatMap, List.mem_map] at h
  obtain ⟨b, -, a, -, rfl⟩ := h
  exact ⟨clampCoord_lt hw _, clampCoord_lt hh _⟩

/-- A pixel of a block inside the image is not clamped. -/
theorem clampCoord_inside {f blk i a dim : Nat} (hf : f % 8 = 0) (hi : i < 8) (ha : a < f / 8)
    (h : (blk + 1) * f ≤ dim) : clampCoord (blk * f + i * (f / 8) + a) dim = blk * f + i * (f / 8) + a := by
  have hcells : (i + 1) * (f / 8) ≤ 8 * (f / 8) := Nat.mul_le_mul_right _ hi
  rw [Nat.add_mul, Nat.one_mul] at hcells h
  simp only [clampCoord]
  omega

theorem sampleCell_inside {s : State} {fx fy bx row i j : Nat} (hfx : fx % 8 = 0) (hfy : fy % 8 = 0) (hi : i < 8)
    (hj : j < 8) (hx : (bx + 1) * fx ≤ s.surfW.toNat) (hy : (row + 1) * fy ≤ s.surfH.toNat) :
    sampleCell s fx fy bx row i j = (List.range (fy / 8)).flatMap fun b => (List.range (fx / 8)).map fun a =>
      (bx * fx + i * (fx / 8) + a, row * fy + j * (fy / 8) + b) := by
  refine List.flatMap_congr fun b hb => List.map_congr_left fun a ha => ?_
  rw [clampCoord_inside hfx hi (List.mem_range.mp ha) hx, clampCoord_inside hfy hj (List.mem_range.mp hb) hy]

/-! Filter -/

theorem filterCell_first {p : Params} (c : Comp) (t : Word) {ts : List Word} (h : p.chromaFilter = .point ∨ ts = []) :
    filterCell p c (t :: ts) = convertTexel p c t := by
  cases ts with
  | nil => rfl
  | cons t' ts =>
    have hpoint : p.chromaFilter = .point := h.resolve_right (List.cons_ne_nil t' ts)
    simp only [filterCell, hpoint]

theorem f32OfRatio_two : f32OfRatio 2 1 = 0x40000000#32 := by decide

theorem f32OfRatio_four : f32OfRatio 4 1 = 0x40800000#32 := by decide

theorem filterCell_box {p : Params} (c : Comp) (h : p.chromaFilter = .box) (t t' : Word) (ts : List Word) :
    filterCell p c (t :: t' :: ts) =
      f32Div ((t' :: ts).foldl (fun acc u => f32Add acc (convertTexel p c u)) (convertTexel p c t))
        (f32OfRatio ((t :: t' :: ts).length : Nat) 1) := by
  simp only [filterCell, h]

theorem f32Rat_two : f32Rat 0x40000000#32 = 2 := by
  have hu : f32Unpack 0x40000000#32 = .fin false (2 ^ 23) (-22) := by decide
  norm_num [f32Rat, hu]

theorem f32Rat_four : f32Rat 0x40800000#32 = 4 := by
  have hu : f32Unpack 0x40800000#32 = .fin false (2 ^ 23) (-21) := by decide
  norm_num [f32Rat, hu]

/-! Conversion -/

/-- The exact JFIF value of a pixel, level shift included (R106). -/
def jfifRat (c : Comp) (r g b : ℚ) : ℚ :=
  match c with
  | .y => 0.299 * r + 0.587 * g + 0.114 * b - 128
  | .cb => -0.168736 * r - 0.331264 * g + 0.5 * b
  | .cr => 0.5 * r - 0.418688 * g - 0.081312 * b

theorem jfifConvert_nearest (c : Comp) {r g b : Nat} (hr : r ≤ 255) (hg : g ≤ 255) (hb : b ≤ 255) :
    NearestEven (jfifConvert c r g b) (jfifRat c r g b) := by
  have nearest {z : Int} {den : Nat} {x : ℚ} (hd : 0 < den) (hz : z.natAbs < 2 ^ 100) (hx : (z : ℚ) / den = x) :
      NearestEven (f32OfRatio z den) x := hx ▸ (f32OfRatio_nearest z den hd hz).2
  cases c <;> exact nearest (by norm_num) (by omega) (by push_cast [jfifRat]; ring)

/-- Settles O27: the pixels of a sample, their filter and their conversion, each by its own lemma. -/
theorem sampledPixelsLieInsideTheSurface : Obligations.SampledPixelsLieInsideTheSurface := by
  refine ⟨fun s c bx row => ⟨sampleBlock_length s c bx row, fun i j hi hj => sampleBlock_getElem? s c bx row hi hj⟩,
    fun s x y texels t => surfaceTexel_listed, fun m => rfl, fun c => footprint_chroma,
    fun s fx fy bx row i j => rfl, fun s fx fy bx row i j xy => sampleCell_mem, ?_,
    fun p c t ts => filterCell_first c t, ?_, ⟨f32Rat_two, f32Rat_four⟩, ?_⟩
  · intro s c bx row i j hi hj hx hy
    obtain ⟨hfx, hfy⟩ := footprint_multiple c s.ctrl.subsample
    exact sampleCell_inside hfx hfy hi hj hx hy
  · intro p c conv hbox hconv
    obtain rfl : conv = convertTexel p c := funext hconv
    refine ⟨fun t0 t1 => ?_, fun t0 t1 t2 t3 => ?_⟩
    · rw [filterCell_box c hbox, ← f32OfRatio_two]
      rfl
    · rw [filterCell_box c hbox, ← f32OfRatio_four]
      rfl
  · intro p c r g b hr hg hb
    refine ⟨colorConvert_finite p c hr hg hb, fun hp => ?_⟩
    rw [colorConvert, hp]
    exact jfifConvert_nearest c hr hg hb

end Sys2Proof.Machine
end

section
/-! SUPPORT. The zig-zag order of a block (spec/41_zigzag_ac.md R130, R131). -/

namespace Sys2Proof.Machine

theorem zzRom_perm : zzRom.Perm (List.range 64) := by decide

theorem lt_of_mem_zzRom {n : Nat} (h : n ∈ zzRom) : n < 64 := List.mem_range.mp (zzRom_perm.mem_iff.mp h)

/-- The ROM's permutation carries over to the coefficients it reads. -/
theorem zigzag_perm {q : List Int} (hq : q.length = 64) : (zigzag q).Perm q := by
  have hread : (List.range 64).map (fun n => q.getD n 0) = q :=
    List.ext_getElem (by simp [hq]) fun n _ hn => by simp [hn]
  calc (zigzag q).Perm ((List.range 64).map fun n => q.getD n 0) := zzRom_perm.map _
    _ = q := hread

theorem zigzag_getElem? {q : List Int} (hq : q.length = 64) {k n : Nat} (h : zzRom[k]? = some n) :
    (zigzag q)[k]? = q[n]? := by
  have hn : n < q.length := hq ▸ lt_of_mem_zzRom (List.mem_of_getElem? h)
  rw [zigzag, List.getElem?_map, h, Option.map_some, List.getD_eq_getElem _ _ hn, List.getElem?_eq_getElem hn]

/-- Settles O31: the ROM is checked entry by entry, and the zig-zag reads each coefficient through it. -/
theorem zigzagIsAPermutationOfTheBlock : Obligations.ZigzagIsAPermutationOfTheBlock :=
  ⟨zzRom_perm, rfl, rfl, rfl, rfl, fun _ hq => ⟨zigzag_perm hq, fun _ _ => zigzag_getElem? hq⟩⟩

end Sys2Proof.Machine
end

section
/-! SUPPORT. The sign of a value in its amplitude (spec/41_zigzag_ac.md R135). -/

namespace Sys2Proof.Machine

/-- The top bit of a nonzero number is the last of its bit length. -/
theorem two_pow_size_le {n : Nat} (h : n ≠ 0) : 2 ^ Nat.size n ≤ 2 * n := by
  obtain ⟨t, ht⟩ := Nat.exists_eq_add_one.mpr (Nat.size_pos.mpr (Nat.pos_of_ne_zero h))
  have htop : 2 ^ t ≤ n := Nat.lt_size.mp (by omega)
  rw [ht, Nat.pow_succ]
  omega

theorem amplitude_pos {v : Int} (hv : 0 < v) :
    (amplitude v (Nat.size v.natAbs) : Int) = v ∧
      2 ^ Nat.size v.natAbs ≤ 2 * amplitude v (Nat.size v.natAbs) := by
  have hval : (amplitude v (Nat.size v.natAbs) : Int) = v := by
    rw [amplitude, if_pos hv.le, Int.toNat_of_nonneg hv.le]
  have htop := two_pow_size_le (n := v.natAbs) (by omega)
  exact ⟨hval, by omega⟩

/-- One's complement in `s` bits, whose top bit is 0 because that of the magnitude is 1. -/
theorem amplitude_neg {v : Int} (hv : v < 0) :
    (amplitude v (Nat.size v.natAbs) : Int) = v + 2 ^ Nat.size v.natAbs - 1 ∧
      2 * amplitude v (Nat.size v.natAbs) < 2 ^ Nat.size v.natAbs := by
  have hfits : v.natAbs < 2 ^ Nat.size v.natAbs := Nat.lt_size_self _
  have htop := two_pow_size_le (n := v.natAbs) (by omega)
  have hcast : ((2 ^ Nat.size v.natAbs : Nat) : Int) = 2 ^ Nat.size v.natAbs := by norm_cast
  have hval : (amplitude v (Nat.size v.natAbs) : Int) = v + 2 ^ Nat.size v.natAbs - 1 := by
    rw [amplitude, if_neg hv.not_ge, Int.toNat_of_nonneg (by omega)]
  exact ⟨hval, by omega⟩

/-- Settles O32: the bit length bounds the magnitude from both sides, which fixes the amplitude's top bit. -/
theorem categoryAndAmplitudeDetermineTheValue : Obligations.CategoryAndAmplitudeDetermineTheValue := by
  refine ⟨fun m => ⟨fun hm => ⟨?_, Nat.size_le.mpr hm⟩, fun hm => ?_⟩, ?_⟩
  · rw [catLut_eq, if_pos hm]
  · rw [catLut_eq, if_neg hm.not_gt]
  · rintro v s rfl
    exact ⟨amplitude_lt v, amplitude_pos, amplitude_neg⟩

end Sys2Proof.Machine
end

section
/-! SUPPORT. The first failing step of AC coding (spec/41_zigzag_ac.md R132, R134, R136, R144). -/

namespace Sys2Proof.Machine

section
variable {table : Nat → Option Word} {run : Nat} {v : Int} {zrl : List Bool} {stop : AcStop}

theorem coefficientBits_zrl_stop (h16 : 16 ≤ run) (h : acLookup table 0xF0 = .error stop) :
    coefficientBits table run v = .error stop := by
  simp only [coefficientBits, zrlBits_error h16 h]

theorem coefficientBits_category_stop (hv : 1024 ≤ v.natAbs) (hz : 16 ≤ run → acLookup table 0xF0 = .ok zrl) :
    coefficientBits table run v = .error (.category v) := by
  simp only [coefficientBits, zrlBits_of_run hz, acCategoryOf_large hv]

theorem coefficientBits_symbol_stop (hv : v.natAbs ≤ 1023) (hz : 16 ≤ run → acLookup table 0xF0 = .ok zrl)
    (h : acLookup table (run % 16 * 16 + Nat.size v.natAbs) = .error stop) :
    coefficientBits table run v = .error stop := by
  simp only [coefficientBits, zrlBits_of_run hz, acCategoryOf_small hv, h]

variable {dc : Int} {rest : List Int}

theorem encodeAc_stop_here (h0 : v ≠ 0) (h : coefficientBits table run v = .error stop) :
    encodeAc table (dc :: (List.replicate run 0 ++ v :: rest)) = .error stop := by
  simp only [encodeAc_nonzero table dc v run rest h0, h]

theorem encodeAc_stop_later {bits : List Bool} (h0 : v ≠ 0) (hbits : coefficientBits table run v = .ok bits)
    (h : encodeAc table (dc :: rest) = .error stop) :
    encodeAc table (dc :: (List.replicate run 0 ++ v :: rest)) = .error stop := by
  simp only [encodeAc_nonzero table dc v run rest h0, hbits, h]

/-- A run that has been counted already codes as that many zeros. -/
theorem encodeAcFrom_eq_encodeAc (table : Nat → Option Word) (dc : Int) (run : Nat) (l : List Int) :
    encodeAcFrom table run l = encodeAc table (dc :: (List.replicate run 0 ++ l)) := by
  rw [encodeAc, List.tail_cons, encodeAcFrom_zeros, Nat.zero_add]

/-- The bits of ZRL where a run needs it, and any bits where not: the form in which `zrlBits_of_run` takes them. -/
theorem exists_zrl_of_run (h : 16 ≤ run → ∃ zrl, acLookup table 0xF0 = .ok zrl) :
    ∃ zrl, 16 ≤ run → acLookup table 0xF0 = .ok zrl := by
  by_cases h16 : 16 ≤ run
  · obtain ⟨zrl, hz⟩ := h h16
    exact ⟨zrl, fun _ => hz⟩
  · exact ⟨[], fun h => absurd h h16⟩

end

/-- Settles O34: the steps of one coefficient in the order of R132, and then those of the coefficients behind it. -/
theorem tooLargeCoefficientStopsTheCoding : Obligations.TooLargeCoefficientStopsTheCoding := by
  refine ⟨fun table v run rest hv hzrl => ?_,
    fun table dc v k rest h0 => ⟨fun stop h16 h => encodeAc_stop_here h0 (coefficientBits_zrl_stop h16 h), fun hzrl => ?_⟩⟩
  · obtain ⟨zrl, hz⟩ := exists_zrl_of_run hzrl
    rw [encodeAcFrom_eq_encodeAc table 0]
    exact encodeAc_stop_here (by omega) (coefficientBits_category_stop hv hz)
  · obtain ⟨zrl, hz⟩ := exists_zrl_of_run hzrl
    exact ⟨fun hv => encodeAc_stop_here h0 (coefficientBits_category_stop hv hz),
      fun stop hv h => encodeAc_stop_here h0 (coefficientBits_symbol_stop hv hz h),
      fun code stop hv hc h => encodeAc_stop_later h0 (coefficientBits_ok hv hz hc) h⟩

end Sys2Proof.Machine
end

section
/-! SUPPORT. The length of a bitstring, under any table (spec/41_zigzag_ac.md R138). -/

namespace Sys2Proof.Machine

section
variable {table : Nat → Option Word} {bits : List Bool}

/-- A code has at most 16 bits. -/
theorem acLookup_length_le {rs : Nat} (h : acLookup table rs = .ok bits) : bits.length ≤ 16 := by
  simp only [acLookup] at h
  split at h
  · cases h
  · next e _ =>
    split at h
    · next hvalid =>
      cases h
      rw [emitBits_length]
      exact (of_decide_eq_true hvalid).2
    · cases h

theorem zrlBits_length_le {n : Nat} (h : zrlBits table n = .ok bits) : bits.length ≤ 16 * n := by
  cases n with
  | zero =>
    cases h
    exact le_rfl
  | succ n =>
    cases hz : acLookup table 0xF0 with
    | error e => simp only [zrlBits, hz, reduceCtorEq] at h
    | ok zrl =>
      rw [zrlBits_replicate hz] at h
      cases h
      rw [List.length_flatten, List.map_replicate, List.sum_replicate, smul_eq_mul, Nat.mul_comm 16]
      exact Nat.mul_le_mul_left _ (acLookup_length_le hz)

/-- The ZRLs of a coefficient take a bit for each zero at most, its symbol 16 bits and its amplitude 10. -/
theorem coefficientBits_length_le {run : Nat} {v : Int} (h : coefficientBits table run v = .ok bits) :
    bits.length ≤ run + 26 := by
  simp only [coefficientBits] at h
  split at h
  · cases h
  next zrls hzrls =>
  split at h
  · cases h
  next s hs =>
  split at h
  · cases h
  next code hcode =>
  cases h
  have hzrl := zrlBits_length_le hzrls
  have hsym := acLookup_length_le hcode
  have hcat := acCategoryOf_ok hs
  simp only [List.length_append, emitBits_length]
  omega

/-- The zeros of the present run count as coefficients: 26 bits for each is enough for all. -/
theorem encodeAcFrom_length_le {run : Nat} {l : List Int} (h : encodeAcFrom table run l = .ok bits) :
    bits.length ≤ 26 * (run + l.length) := by
  induction l generalizing run bits with
  | nil =>
    cases run with
    | zero => cases h; exact le_rfl
    | succ run =>
      have heob : bits.length ≤ 16 := acLookup_length_le h
      omega
  | cons v rest ih =>
    simp only [encodeAcFrom] at h
    split at h
    · have := ih h
      rw [List.length_cons]
      omega
    · split at h
      · cases h
      next first hfirst =>
      split at h
      · cases h
      next more hmore =>
      cases h
      have hv := coefficientBits_length_le hfirst
      have hrest := ih hmore
      rw [List.length_append, List.length_cons]
      omega

end

/-- Settles O35: 63 coefficients of at most 26 bits, and a region of 6 to 35 words. -/
theorem acBitstringIsBounded : Obligations.AcBitstringIsBounded := by
  refine ⟨fun table zz bits hlen h => ?_, fun s hlow hhigh => ?_⟩
  · have := encodeAcFrom_length_le h
    rw [List.length_tail, hlen] at this
    exact this
  · obtain ⟨-, -, hebs, -⟩ := ebsFollowsQuality
    obtain ⟨h6, h35⟩ := hebs s hlow hhigh
    omega

end Sys2Proof.Machine
end

section
/-! SUPPORT. Packing, bit by bit (spec/41_zigzag_ac.md R140). -/

namespace Sys2Proof.Machine

theorem pack_length (bits : List Bool) (n : Nat) : (pack bits n).length = n - 2 := by
  rw [pack, List.length_map, List.length_range]

/-- Word `i` packs the stream from bit `32 * i` on. -/
theorem eq_packWord_of_pack_getElem? {bits : List Bool} {n i : Nat} {w : Word} (h : (pack bits n)[i]? = some w) :
    w = packWord (bits.drop (32 * i)) := by
  obtain ⟨hi, rfl⟩ := List.getElem?_eq_some_iff.mp h
  simp only [pack, List.getElem_map, List.getElem_range]

/-- Settles O36: stream bit `p` is bit `p % 32` of the stream from word `p / 32` on. -/
theorem packingIsMsbFirst : Obligations.PackingIsMsbFirst := by
  refine fun bits n => ⟨pack_length bits n, fun p w h => ?_⟩
  rw [eq_packWord_of_pack_getElem? h, packWord_getLsbD _ _ (Nat.mod_lt p (by decide)), List.getD_eq_getElem?_getD,
    List.getElem?_drop, Nat.div_add_mod, ← List.getD_eq_getElem?_getD]

end Sys2Proof.Machine
end

section
/-! SUPPORT. DCENC of a difference that codes, and the fields of its DCM word (spec/42_dc_coder.md R156 to R162). -/

namespace Sys2Proof.Machine

/-- DCENC of a component, in range, past its DC word, where the coding answers a state. -/
theorem exec_dcenc_ok {comp : BitVec 2} {c : Comp} {r dc : Word} {s t : State} (rsvd : BitVec 22)
    (hc : compOf comp = some c) (hr : dcRangeOk s r.toNat = true)
    (hdc : memRead s .result (r.toNat * ebs s) = some dc) (h : dcencWith c r dc s = .ok t) :
    exec (.dcenc comp rsvd r) s = .next t := by
  simp only [exec, execDcenc, hc, hr, if_true, fetchWord_ok.mpr hdc, h]

/-- A difference of a category, with a code for it. -/
theorem dcencWith_coded {c : Comp} {r dc e : Word} {s : State} (hd : (dcDiff s c dc).natAbs ≤ 2047)
    (he : memRead s (dchufOf s c) (Nat.size (dcDiff s c dc).natAbs) = some e) (hv : huffValid e = true) :
    dcencWith c r dc s = .ok (memWrite (setPrevDc s c dc) .dcm r.toNat
      (dcmWord (huffLen e) (huffCode e) (Nat.size (dcDiff s c dc).natAbs) (dcDiff s c dc))) := by
  have hcat : catLut (dcDiff s c dc).natAbs = some (Nat.size (dcDiff s c dc).natAbs) := by
    rw [catLut_eq, if_pos (by omega)]
  simp only [dcencWith, hcat, fetchWord_ok.mpr he, hv, if_true]

/-- Settles O14: past its checks, DCENC is the coding of the difference with the entry of its category. -/
theorem dcencWritesTheCodedDifference : Obligations.DcencWritesTheCodedDifference := by
  rintro comp c rsvd r s dc e _ _ _ hc hresult hdcm hdc rfl hd rfl he rfl hlow hhigh
  have hr : dcRangeOk s r.toNat = true := decide_eq_true ⟨hresult, hdcm⟩
  have hv : huffValid e = true := decide_eq_true ⟨hlow, hhigh⟩
  exact exec_dcenc_ok rsvd hc hr hdc (dcencWith_coded hd he hv)

/-- A code of `len` bits and an amplitude of `cat` bits after it are `len + cat` bits. -/
theorem code_amplitude_lt {len code cat amp : Nat} (hcode : code < 2 ^ len) (hamp : amp < 2 ^ cat) :
    code * 2 ^ cat + amp < 2 ^ (len + cat) := by
  calc code * 2 ^ cat + amp < (code + 1) * 2 ^ cat := by rw [Nat.succ_mul]; omega
    _ ≤ 2 ^ len * 2 ^ cat := Nat.mul_le_mul_right _ hcode
    _ = 2 ^ (len + cat) := (pow_add 2 len cat).symm

/-- The DCM word is its two fields side by side: no bit of one reaches the other. -/
theorem dcmWord_eq_append {len code cat : Nat} {diff : Int} (hlen : len + cat ≤ 27) (hcode : code < 2 ^ len)
    (hamp : amplitude diff cat < 2 ^ cat) :
    dcmWord len code cat diff =
      BitVec.ofNat 5 (len + cat) ++ BitVec.ofNat 27 (code * 2 ^ cat + amplitude diff cat) := by
  have hbits : code * 2 ^ cat + amplitude diff cat < 2 ^ 27 :=
    (code_amplitude_lt hcode hamp).trans_le (Nat.pow_le_pow_right two_pos hlen)
  have hle : code ≤ code * 2 ^ cat := Nat.le_mul_of_pos_right code (Nat.two_pow_pos cat)
  have hor : code * 2 ^ cat ||| amplitude diff cat = code * 2 ^ cat + amplitude diff cat := by
    rw [← Nat.shiftLeft_eq, Nat.shiftLeft_add_eq_or_of_lt hamp]
  apply BitVec.eq_of_toNat_eq
  rw [BitVec.toNat_append, dcmWord, BitVec.or_assoc, BitVec.toNat_or, BitVec.toNat_or, BitVec.toNat_shiftLeft,
    BitVec.toNat_shiftLeft]
  simp (disch := omega) only [BitVec.toNat_ofNat, Nat.shiftLeft_eq, Nat.mod_eq_of_lt, hor]

/-- Settles O15: the two fields of the DCM word, and the widths of the code and the amplitude. -/
theorem dcmWordHoldsLengthAndBitstring : Obligations.DcmWordHoldsLengthAndBitstring := by
  rintro len code _ diff hlow hhigh hcat hcode rfl
  have hamp := amplitude_lt diff
  have hbits := code_amplitude_lt hcode hamp
  have hlen : len + Nat.size diff.natAbs ≤ 27 := by omega
  rw [dcmWord_eq_append hlen hcode hamp]
  refine ⟨BitVec.extractLsb'_append_eq_left, ?_, hbits, by omega, hlen⟩
  rw [BitVec.extractLsb'_append_eq_right, BitVec.toNat_ofNat,
    Nat.mod_eq_of_lt (hbits.trans_le (Nat.pow_le_pow_right two_pos hlen))]

end Sys2Proof.Machine
end

section
/-! SUPPORT. The predictors along a run of commands: what sets one, and what keeps it (spec/42_dc_coder.md R155,
R157, R166, R167). -/

namespace Sys2Proof.Machine

/-- Settles O13, by the meaning of DCRST and its row of the decoder. -/
theorem dcrstClearsTheThreePredictors : Obligations.DcrstClearsTheThreePredictors :=
  ⟨fun _ _ _ _ => rfl, fun _ h => ⟨_, _, _, decode_dcrst h⟩, by decide⟩

/-- A command that sets no predictor of `c`. -/
def KeepsPredictor (c : Comp) (i : Instr) : Prop :=
  (∀ comp rsvd arg, i ≠ .dcrst comp rsvd arg) ∧ ∀ comp rsvd arg, compOf comp = some c → i ≠ .dcenc comp rsvd arg

theorem exec_prevDc_get {c : Comp} {i : Instr} {s t : State} (hi : KeepsPredictor c i) (h : exec i s = .next t) :
    t.prevDc.get c = s.prevDc.get c := by
  obtain ⟨hdcrst, hdcenc⟩ := hi
  cases i with
  | nop | signal | dispatch => rw [exec_prevDc h (by simp)]
  | dcrst comp rsvd arg => exact absurd rfl (hdcrst comp rsvd arg)
  | dcenc comp rsvd arg => exact execDcenc_prevDc h fun hc => hdcenc comp rsvd arg hc rfl

/-- A run of commands that ends runs its first command to a state, and the others from there. -/
theorem execAll_cons_next {i : Instr} {rest : List Instr} {s u : State} (h : execAll (i :: rest) s = .next u) :
    ∃ t, exec i s = .next t ∧ execAll rest t = .next u := by
  rw [execAll] at h
  split at h
  · exact ⟨_, ‹_›, h⟩
  · cases h
  · cases h

theorem execAll_prevDc_get {c : Comp} {mid : List Instr} {s u : State} (hmid : ∀ i ∈ mid, KeepsPredictor c i)
    (h : execAll mid s = .next u) : u.prevDc.get c = s.prevDc.get c := by
  induction mid generalizing s with
  | nil => cases h; rfl
  | cons i rest ih =>
    obtain ⟨hi, hrest⟩ := List.forall_mem_cons.mp hmid
    obtain ⟨t, hfirst, hrun⟩ := execAll_cons_next h
    rw [ih hrest hrun, exec_prevDc_get hi hfirst]

/-- The next difference is against the predictor a run of such commands started from. -/
theorem execAll_dcDiff {c : Comp} {mid : List Instr} {t u : State} {p : Word} (hmid : ∀ i ∈ mid, KeepsPredictor c i)
    (hrun : execAll mid t = .next u) (hp : t.prevDc.get c = p) (dc' : Word) :
    u.prevDc.get c = p ∧ dcDiff u c dc' = dc'.toInt - p.toInt := by
  have hget : u.prevDc.get c = p := (execAll_prevDc_get hmid hrun).trans hp
  exact ⟨hget, by rw [dcDiff, hget]⟩

/-- DCENC in range leaves the DC it read in its predictor, whether the coding succeeded or not. -/
theorem execDcenc_prevDc_self {comp : BitVec 2} {c : Comp} {rsvd : BitVec 22} {r dc : Word} {s t : State}
    (hc : compOf comp = some c) (hr : dcRangeOk s r.toNat = true)
    (hdc : memRead s .result (r.toNat * ebs s) = some dc) (h : exec (.dcenc comp rsvd r) s = .next t) :
    t.prevDc.get c = dc := by
  obtain ⟨hnone, -⟩ | ⟨c', hc', ⟨hrange, -⟩ | ⟨dc', -, hdc', hcoded⟩⟩ := execDcenc_next h
  · cases hc.symm.trans hnone
  · cases hr.symm.trans hrange
  · obtain rfl : c = c' := Option.some.inj (hc.symm.trans hc')
    obtain rfl : dc = dc' := Option.some.inj (hdc.symm.trans hdc')
    obtain ⟨v, hstored⟩ := dcencWith_stores hcoded
    rw [hstored.prevDc, memWrite_prevDc, setPrevDc_prevDc, PerComp_get_set_same]

theorem execDcrst_prevDc_get {comp : BitVec 2} {rsvd : BitVec 22} {arg : Word} {s t : State} (c : Comp)
    (h : exec (.dcrst comp rsvd arg) s = .next t) : t.prevDc.get c = 0#32 := by
  cases h
  cases c <;> rfl

theorem step_reset_prevDc_get {s t : State} {rest : List Input} (c : Comp) (hin : s.inputs = .reset :: rest)
    (h : step s = .next t) : t.prevDc.get c = 0#32 := by
  rw [step, hin] at h
  cases h
  cases c <;> rfl

/-- Settles O21: each of the three starts sets the predictor, and the commands between keep it. -/
theorem differencesAreTakenAgainstTheLastCodedDc : Obligations.DifferencesAreTakenAgainstTheLastCodedDc := by
  intro c mid hmid
  have fromZero {t u : State} (hrun : execAll mid t = .next u) (hp : t.prevDc.get c = 0#32) (dc' : Word) :
      u.prevDc.get c = 0#32 ∧ dcDiff u c dc' = dc'.toInt := by
    simpa using execAll_dcDiff hmid hrun hp dc'
  refine ⟨fun comp rsvd r s t u dc dc' hc hr hdc h hrun => ?_, fun comp rsvd arg s t u dc' h hrun => ?_,
    fun s t u rest dc' hin h hrun => ?_⟩
  · exact execAll_dcDiff hmid hrun (execDcenc_prevDc_self hc hr hdc h) dc'
  · exact fromZero hrun (execDcrst_prevDc_get c h) dc'
  · exact fromZero hrun (step_reset_prevDc_get c hin h) dc'

end Sys2Proof.Machine
end

section
/-! SUPPORT. The Engine's step by the entry at the head of the queue, and the meanings of NOP and SIGNAL
(spec/43_sync.md R175 to R178, R212). -/

namespace Sys2Proof.Machine

/-! The events of a step -/

theorem step_of_inputs_nil {s : State} (h : s.inputs = []) : step s = engineStep s := by
  simp only [step, h]

theorem step_engine {s : State} {rest : List Input} (h : s.inputs = .engine :: rest) :
    step s = engineStep { s with inputs := rest } := by
  simp only [step, h]

theorem step_wait {s : State} {c : WaitCond} {rest : List Input} (h : s.inputs = .wait c :: rest) :
    step s = waitEvent c rest s := by
  simp only [step, h]

/-! The head of the queue -/

theorem engineStep_idle {s : State} (hq : s.cq = []) : engineStep s = .next s := by
  simp only [engineStep, hq]

theorem engineStep_decoded {s : State} {e : Entry} {q : List Entry} {i : Instr} (hq : s.cq = e :: q)
    (hi : decode e = .ok i) : engineStep s = mapNext popCommand (exec i s) := by
  simp only [engineStep, hq, hi]

theorem engineStep_rejected {s : State} {e : Entry} {q : List Entry} {r : Reject} (hq : s.cq = e :: q)
    (hr : decode e = .error r) : ∃ k, engineStep s = .next (popCommand (raise k 0#32 e.word s)) := by
  cases r with
  | badOpcode => exact ⟨.badOpcode, by simp only [engineStep, hq, hr]⟩
  | badComp => exact ⟨.badComp, by simp only [engineStep, hq, hr]⟩

theorem exec_cq {i : Instr} {s t : State} (h : exec i s = .next t) : t.cq = s.cq := by
  rw [exec_frame h]

/-- A command that answers a next state leaves it but for its own entry. -/
theorem engineStep_completes {s t : State} {e : Entry} {q : List Entry} {i : Instr} (hq : s.cq = e :: q)
    (hi : decode e = .ok i) (h : exec i s = .next t) : engineStep s = .next { t with cq := q } := by
  have htail : t.cq.tail = q := by rw [exec_cq h, hq, List.tail_cons]
  rw [engineStep_decoded hq hi, h, ← htail]
  rfl

theorem engineStep_cq {s t : State} (h : engineStep s = .next t) : t.cq = s.cq.tail := by
  obtain ⟨hq, rfl⟩ | ⟨e, q, i, u, -, -, hexec, rfl⟩ | ⟨e, q, k, -, -, rfl⟩ := engineStep_next h
  · rw [hq, List.tail_nil]
  · rw [popCommand_cq, exec_cq hexec]
  · rw [popCommand_cq, raise_cq]

/-- Settles O8: an Engine step runs the command its head decodes to, whichever event lets it. -/
theorem stepRunsTheDecodedCommand : Obligations.StepRunsTheDecodedCommand := by
  intro s e q i hq hi
  have hengine := engineStep_decoded hq hi
  exact ⟨hengine, fun h => (step_of_inputs_nil h).trans hengine,
    fun rest h => (step_engine h).trans (engineStep_decoded (s := { s with inputs := rest }) hq hi)⟩

/-- Settles O9: no command touches the queue, so the removal after it is all; a rejected head is recorded first. -/
theorem engineStepRemovesExactlyTheHead : Obligations.EngineStepRemovesExactlyTheHead := by
  refine ⟨fun s t => engineStep_cq, fun s e q r hq hr => ?_,
    fun s hq hin => (step_of_inputs_nil hin).trans (engineStep_idle hq)⟩
  obtain ⟨k, hk⟩ := engineStep_rejected hq hr
  refine ⟨_, hk, ?_, raise_err_ne_zero k 0#32 e.word s⟩
  rw [engineStep_cq hk, hq, List.tail_cons]

/-! BUSY and the Host's wait -/

theorem busy_eq_true_iff (s : State) : busy s = true ↔ s.cq ≠ [] := by simp [busy]

theorem waitEvent_holds {s : State} {c : WaitCond} (h : waitHolds s c = true) (rest : List Input) :
    waitEvent c rest s = .next { s with inputs := rest } :=
  if_pos h

theorem waitEvent_busy {s : State} {c : WaitCond} (h : waitHolds s c = false) (hq : s.cq ≠ []) (rest : List Input) :
    waitEvent c rest s = engineStep s := by
  rw [waitEvent, if_neg (Bool.eq_false_iff.mp h), if_pos ((busy_eq_true_iff s).mpr hq)]

theorem waitEvent_stuck {s : State} {c : WaitCond} (h : waitHolds s c = false) (hq : s.cq = []) (rest : List Input) :
    waitEvent c rest s = .fault (.waitNeverEnds c) := by
  rw [waitEvent, if_neg (Bool.eq_false_iff.mp h), if_neg fun hb => (busy_eq_true_iff s).mp hb hq]

theorem waitHolds_notBusy (s : State) : waitHolds s .notBusy = decide (s.cq = []) := by
  rw [Bool.eq_iff_iff, decide_eq_true_iff, ← busy_eq_false_iff]
  simp [waitHolds]

theorem waitHolds_irqHigh (s : State) : waitHolds s .irqHigh = (statusWord s).getLsbD 2 := by
  obtain ⟨-, -, hirq, -⟩ := statusWord_fields s
  exact hirq.symm

/-- Settles O10, by the cases of a wait: its condition holds, or a command is queued, or neither. -/
theorem hostWaitEndsWhenItsConditionHolds : Obligations.HostWaitEndsWhenItsConditionHolds := by
  intro s c rest hin
  rw [step_wait hin]
  exact ⟨fun h => waitEvent_holds h rest, fun h hq => waitEvent_busy h hq rest, fun h hq => waitEvent_stuck h hq rest,
    fun v => rfl, waitHolds_notBusy s, waitHolds_irqHigh s⟩

/-! NOP, SIGNAL and the push of a command -/

/-- Settles O11: NOP answers the state it ran from, and its step removes its entry. -/
theorem nopChangesOnlyTheQueue : Obligations.NopChangesOnlyTheQueue := by
  refine ⟨fun _ _ _ _ => rfl, fun e hopc => ⟨_, _, _, decode_nop hopc⟩, fun s e q hq hopc => ⟨?_, ?_⟩⟩
  · obtain ⟨hbusy, -⟩ := statusWord_fields s
    rw [hbusy, busy_eq_true_iff, hq]
    exact List.cons_ne_nil e q
  · exact engineStep_completes hq (decode_nop hopc) rfl

/-- Settles O12, by the meaning of SIGNAL and its row of the decoder. -/
theorem signalPublishesItsArgument : Obligations.SignalPublishesItsArgument :=
  ⟨fun _ _ _ _ => rfl, fun _ _ => rfl, fun _ hopc => ⟨_, _, decode_signal hopc⟩, by decide, fun _ _ => rfl⟩

theorem pushCommand_full {s : State} (h : s.cq.length = s.params.cqDepth) (w : Word) :
    pushCommand w s = raise .cqOverflow 0#32 w s :=
  if_pos h

/-- Settles O47: a write to CMD is the push, into a queue with room or a full one. -/
theorem cmdWritePushesOrOverflows : Obligations.CmdWritePushesOrOverflows := by
  intro w s
  rw [hostWrite_reg (r := .cmd) (by decide)]
  exact ⟨fun hroom => pushCommand_room hroom w, fun hfull => pushCommand_full hfull w⟩

end Sys2Proof.Machine
end

section
/-! SUPPORT. The fence guarantee along a run of Engine steps (spec/43_sync.md R176, R179). -/

namespace Sys2Proof.Machine

theorem opcField_of_decode {e : Entry} {i : Instr} (h : decode e = .ok i) : opcField e.word = opcodeOf i := by
  obtain ⟨-, hopc, -⟩ := opcodeRowsMatchTheirOpcodeOnly
  exact hopc e i h

/-- An Engine step takes no event from the list, and adds none. -/
theorem engineStep_inputs {s t : State} (h : engineStep s = .next t) : t.inputs = s.inputs := by
  obtain ⟨-, rfl⟩ | ⟨e, q, i, u, -, -, hexec, rfl⟩ | ⟨e, q, k, -, -, rfl⟩ := engineStep_next h
  · rfl
  · rw [popCommand_inputs, exec_frame hexec]
  · rw [popCommand_inputs, raise_inputs]

/-- An entry that is no SIGNAL, executed or rejected, does not write FENCE_COMPLETED. -/
theorem engineStep_fenceCompleted {s t : State} {e : Entry} {q : List Entry} (hq : s.cq = e :: q)
    (hopc : opcField e.word ≠ 0x02#8) (h : engineStep s = .next t) : t.fenceCompleted = s.fenceCompleted := by
  obtain ⟨hnil, -⟩ | ⟨e', q', i, u, hq', hi, hexec, rfl⟩ | ⟨e', q', k, -, -, rfl⟩ := engineStep_next h
  · cases hq.symm.trans hnil
  · obtain ⟨rfl, -⟩ : e = e' ∧ q = q' := List.cons.inj (hq.symm.trans hq')
    rw [popCommand_fenceCompleted]
    refine exec_fenceCompleted hexec fun comp rsvd arg hsignal => hopc ?_
    rw [opcField_of_decode hi, hsignal]
    rfl
  · rw [popCommand_fenceCompleted, raise_fenceCompleted]

theorem engineStep_signal {s : State} {e : Entry} {q : List Entry} (hq : s.cq = e :: q)
    (hopc : opcField e.word = 0x02#8) : engineStep s = .next { s with cq := q, fenceCompleted := e.arg } :=
  engineStep_completes hq (decode_signal hopc) rfl

theorem run_one (s : State) : Sys2Proof.core.run 1 s = step s := by
  rw [run_succ]
  cases step s <;> rfl

/-- A run of one step more, from its last step. -/
theorem run_succ_next {n : Nat} {s u : State} :
    Sys2Proof.core.run (n + 1) s = .next u ↔ ∃ t, Sys2Proof.core.run n s = .next t ∧ step t = .next u := by
  rw [run_add]
  cases Sys2Proof.core.run n s with
  | next t =>
    refine ⟨fun h => ⟨t, rfl, (run_one t).symm.trans h⟩, ?_⟩
    rintro ⟨_, ⟨⟩, hstep⟩
    exact (run_one t).trans hstep
  | fault => simp
  | refused => simp

/-- A run over entries that are no SIGNAL, with no event pending: each step completes one of them, and
FENCE_COMPLETED keeps its value. -/
theorem run_before_signal {s t : State} {pre rest : List Entry} {n : Nat} (hin : s.inputs = [])
    (hq : s.cq = pre ++ rest) (hpre : ∀ x ∈ pre, opcField x.word ≠ 0x02#8) (hn : n ≤ pre.length)
    (hrun : Sys2Proof.core.run n s = .next t) :
    t.inputs = [] ∧ t.cq = pre.drop n ++ rest ∧ t.fenceCompleted = s.fenceCompleted := by
  induction n generalizing t with
  | zero =>
    cases hrun
    exact ⟨hin, hq, rfl⟩
  | succ n ih =>
    obtain ⟨m, hm, hstep⟩ := run_succ_next.mp hrun
    obtain ⟨hmin, hmq, hmfence⟩ := ih (Nat.le_of_succ_le hn) hm
    rw [List.drop_eq_getElem_cons hn, List.cons_append] at hmq
    rw [step_of_inputs_nil hmin] at hstep
    refine ⟨(engineStep_inputs hstep).trans hmin, ?_, ?_⟩
    · rw [engineStep_cq hstep, hmq, List.tail_cons]
    · exact (engineStep_fenceCompleted hmq (hpre _ (List.getElem_mem hn)) hstep).trans hmfence

/-- Settles O56: once the entries before it have completed, the SIGNAL is at the head, and its step cannot fail. -/
theorem fenceValueFollowsEveryEarlierCommand : Obligations.FenceValueFollowsEveryEarlierCommand := by
  intro s pre post e hin hq hopc hpre
  have hsignal {m : State} (hm : Sys2Proof.core.run pre.length s = .next m) :
      step m = .next { m with cq := post, fenceCompleted := e.arg } := by
    obtain ⟨hmin, hmq, -⟩ := run_before_signal hin hq hpre le_rfl hm
    rw [List.drop_length, List.nil_append] at hmq
    rw [step_of_inputs_nil hmin, engineStep_signal hmq hopc]
  refine ⟨fun n t hn hrun => ?_, fun t hrun => ?_, fun m hm => ⟨_, run_succ_next.mpr ⟨m, hm, hsignal hm⟩⟩⟩
  · obtain ⟨-, htq, hfence⟩ := run_before_signal hin hq hpre hn hrun
    exact ⟨hfence, htq⟩
  · obtain ⟨m, hm, hstep⟩ := run_succ_next.mp hrun
    cases (hsignal hm).symm.trans hstep
    exact ⟨rfl, rfl⟩

end Sys2Proof.Machine
end

section
/-! SUPPORT. Recording an error, and the interrupt level (spec/60_exceptions.md R196, R197, R213). -/

namespace Sys2Proof.Machine

theorem raise_first {s : State} (h : s.err = 0#13) (e : ErrKind) (region aux : Word) :
    raise e region aux s =
      { s with errCode := errCodeOf e, errRegion := region, errAux := aux, err := errMask e } := by
  rw [raise, if_pos h, h, BitVec.zero_or]

theorem raise_later {s : State} (h : s.err ≠ 0#13) (e : ErrKind) (region aux : Word) :
    raise e region aux s = { s with err := s.err ||| errMask e } :=
  if_neg h

theorem errMask_getLsbD_self (e : ErrKind) : (errMask e).getLsbD (errBit e) = true := by cases e <;> rfl

/-- Settles O38, by the two cases of `raise`: ERR is 0, or an error is recorded already. -/
theorem raiseCapturesOnlyTheFirstError : Obligations.RaiseCapturesOnlyTheFirstError := by
  refine ⟨rfl, fun e region aux s => ⟨fun h => raise_first h e region aux, fun h => raise_later h e region aux, ?_⟩⟩
  rw [raise_err, BitVec.getLsbD_or, errMask_getLsbD_self, Bool.or_true]

theorem fenceIrq_iff (s : State) :
    fenceIrq s = true ↔ s.ctrl.fenceIrqEn = true ∧ s.fenceEvent.toNat ≤ s.fenceCompleted.toNat := by
  rw [fenceIrq, Bool.and_eq_true, decide_eq_true_iff]

theorem errIrq_iff (s : State) : errIrq s = true ↔ s.ctrl.errIrqEn = true ∧ s.err ≠ 0#13 := by
  rw [errIrq, Bool.and_eq_true, bne_iff_ne]

/-- Settles O40: the level is the two sources, and STATUS shows it. -/
theorem interruptIsALevelOfThePresentState : Obligations.InterruptIsALevelOfThePresentState := by
  refine ⟨fun s => ?_, fun s => ?_, by decide⟩
  · rw [irq, Bool.or_eq_true, fenceIrq_iff, errIrq_iff]
  · obtain ⟨-, -, hirq, -⟩ := statusWord_fields s
    rw [hostRead_reg (r := .status) (by decide)]
    exact hirq

end Sys2Proof.Machine
end

section
/-! SUPPORT. The errors of a DCENC and of a DISPATCH as a whole (spec/60_exceptions.md R201, R202, R207, R208). -/

namespace Sys2Proof.Machine

/-! DCENC -/

theorem dcencWith_tooLarge {c : Comp} {dc : Word} {s : State} (r : Word) (hd : 2048 ≤ (dcDiff s c dc).natAbs) :
    dcencWith c r dc s = .ok (raise .dcCategory r (BitVec.ofInt 32 (dcDiff s c dc))
      (memWrite (setPrevDc s c dc) .dcm r.toNat dcmMarker)) := by
  have hcat : catLut (dcDiff s c dc).natAbs = none := if_neg (by omega)
  simp only [dcencWith, hcat]

theorem dcencWith_noCode {c : Comp} {dc e : Word} {s : State} (r : Word) (hd : (dcDiff s c dc).natAbs ≤ 2047)
    (he : memRead s (dchufOf s c) (Nat.size (dcDiff s c dc).natAbs) = some e) (hv : huffValid e = false) :
    dcencWith c r dc s = .ok (raise .dcNoCode r (BitVec.ofNat 32 (Nat.size (dcDiff s c dc).natAbs))
      (memWrite (setPrevDc s c dc) .dcm r.toNat dcmMarker)) := by
  have hcat : catLut (dcDiff s c dc).natAbs = some (Nat.size (dcDiff s c dc).natAbs) := by
    rw [catLut_eq, if_pos (by omega)]
  simp [dcencWith, hcat, fetchWord_ok.mpr he, hv]

theorem exec_dcenc_outOfRange {comp : BitVec 2} {c : Comp} {r : Word} {s : State} (rsvd : BitVec 22)
    (hc : compOf comp = some c) (hr : dcRangeOk s r.toNat = false) :
    exec (.dcenc comp rsvd r) s = .next (raise .range r (commandWord 0x04#8 comp rsvd) s) := by
  simp [exec, execDcenc, hc, hr]

/-- Settles O16: CAT_LUT has no entry for the difference. -/
theorem dcencTooLargeDifferenceIsRecorded : Obligations.DcencTooLargeDifferenceIsRecorded := by
  refine ⟨⟨rfl, rfl⟩, ?_⟩
  rintro comp c rsvd r s dc _ hc hresult hdcm hdc rfl hd
  exact exec_dcenc_ok rsvd hc (decide_eq_true ⟨hresult, hdcm⟩) hdc (dcencWith_tooLarge r hd)

/-- Settles O17: the entry of the category is not valid. -/
theorem dcencMissingCodeIsRecorded : Obligations.DcencMissingCodeIsRecorded := by
  refine ⟨⟨rfl, rfl⟩, ?_⟩
  rintro comp c rsvd r s dc e _ _ hc hresult hdcm hdc rfl hd rfl he hlen
  have hv : huffValid e = false := by
    refine decide_eq_false fun ⟨hlow, hhigh⟩ => ?_
    rw [huffLen] at hlow hhigh
    omega
  exact exec_dcenc_ok rsvd hc (decide_eq_true ⟨hresult, hdcm⟩) hdc (dcencWith_noCode r hd he hv)

/-! DISPATCH -/

section
variable {comp : BitVec 2} {c : Comp} {s : State} (rsvd : BitVec 22) (arg : Word)

theorem exec_dispatch_empty (hc : compOf comp = some c) (hgrid : gridCols s c * gridRows s c = 0) :
    exec (.dispatch comp rsvd arg) s = .next s := by
  simp only [exec, execDispatch, hc, hgrid, if_true]

theorem exec_dispatch_noSurface (hc : compOf comp = some c) (hgrid : gridCols s c * gridRows s c ≠ 0)
    (hsurf : s.surfW = 0#16 ∨ s.surfH = 0#16) :
    exec (.dispatch comp rsvd arg) s = .next (raise .cfg 0#32 (commandWord 0x01#8 comp rsvd) s) := by
  simp only [exec, execDispatch, hc, hgrid, hsurf, if_false, if_true]

theorem exec_dispatch_outOfRange (hc : compOf comp = some c) (hgrid : gridCols s c * gridRows s c ≠ 0)
    (hw : s.surfW ≠ 0#16) (hh : s.surfH ≠ 0#16) (hfits : gridFits s c = false) :
    exec (.dispatch comp rsvd arg) s =
      .next (raise .range (BitVec.ofNat 32 (regionBase s c)) (commandWord 0x01#8 comp rsvd) s) := by
  simp [exec, execDispatch, hc, hgrid, hw, hh, hfits]

end

/-- Settles O22: the grid is looked at first, and then the surface. -/
theorem dispatchWithoutASurfaceIsRecorded : Obligations.DispatchWithoutASurfaceIsRecorded :=
  ⟨⟨rfl, rfl⟩, fun _ _ rsvd arg _ hc =>
    ⟨fun hgrid hsurf => exec_dispatch_noSurface rsvd arg hc hgrid hsurf,
      fun hempty => exec_dispatch_empty rsvd arg hc (mul_eq_zero.mpr hempty)⟩⟩

/-- Settles O18: the range check of each command fails. -/
theorem rangeErrorsWriteNothing : Obligations.RangeErrorsWriteNothing := by
  refine ⟨⟨rfl, rfl⟩, fun comp c rsvd arg s hc hgrid hw hh hover => ?_, fun comp c rsvd r s hc hover => ?_⟩
  · exact exec_dispatch_outOfRange rsvd arg hc hgrid hw hh (decide_eq_false (not_le.mpr hover))
  · exact exec_dcenc_outOfRange rsvd hc (decide_eq_false (by omega))

end Sys2Proof.Machine
end

section
/-! SUPPORT. The errors a DISPATCH records of its blocks (spec/60_exceptions.md R196, R211). -/

namespace Sys2Proof.Machine

/-! The outcomes of a list of blocks -/

section
variable {s : State} {c : Comp} {tb : Tables}

theorem blockOuts_cons_ok {blk : Nat × Nat} {rest : List (Nat × Nat)} {outs : List (Nat × BlockOut)}
    (h : blockOuts s c tb (blk :: rest) = .ok outs) :
    ∃ out others, outs = (blockRegion s c blk, out) :: others ∧ blockOut s c tb blk = .ok out ∧
      blockOuts s c tb rest = .ok others := by
  simp only [blockOuts] at h
  cases hblk : blockOut s c tb blk with
  | error f => simp [hblk] at h
  | ok out =>
    cases hrest : blockOuts s c tb rest with
    | error f => simp [hblk, hrest] at h
    | ok others =>
      simp only [hblk, hrest, Except.ok.injEq] at h
      exact ⟨out, others, h.symm, rfl, rfl⟩

/-- The outcomes of a list of blocks are the outcome of each, with its region. -/
theorem mem_blockOuts {blks : List (Nat × Nat)} {outs : List (Nat × BlockOut)} (h : blockOuts s c tb blks = .ok outs)
    (ro : Nat × BlockOut) :
    ro ∈ outs ↔ ∃ blk ∈ blks, blockRegion s c blk = ro.1 ∧ blockOut s c tb blk = .ok ro.2 := by
  induction blks generalizing outs with
  | nil =>
    cases h
    simp
  | cons blk rest ih =>
    obtain ⟨out, others, rfl, hblk, hrest⟩ := blockOuts_cons_ok h
    have hhead : ro = (blockRegion s c blk, out) ↔ blockRegion s c blk = ro.1 ∧ blockOut s c tb blk = .ok ro.2 := by
      rw [hblk, Except.ok.injEq, eq_comm, Prod.ext_iff]
    simp only [List.mem_cons, exists_eq_or_imp, hhead, ih hrest]

/-- Where no block of the list has an error, no outcome has one. -/
theorem blockOuts_err_none {blks : List (Nat × Nat)} {outs : List (Nat × BlockOut)}
    (h : blockOuts s c tb blks = .ok outs)
    (hclean : ∀ blk ∈ blks, ∃ out, blockOut s c tb blk = .ok out ∧ out.err = none) : ∀ ro ∈ outs, ro.2.err = none := by
  intro ro hro
  obtain ⟨blk, hmem, -, hblk⟩ := (mem_blockOuts h ro).mp hro
  obtain ⟨out, hout, hnone⟩ := hclean blk hmem
  cases hblk.symm.trans hout
  exact hnone

/-- A DISPATCH that passes its checks and completes has an outcome for every block, and commits them in order. -/
theorem exec_dispatch_commits {comp : BitVec 2} {rsvd : BitVec 22} {arg : Word} {t : State}
    (hc : compOf comp = some c) (hgrid : gridCols s c * gridRows s c ≠ 0) (hw : s.surfW ≠ 0#16) (hh : s.surfH ≠ 0#16)
    (hfits : (regionBase s c + gridCols s c * gridRows s c) * ebs s ≤ s.params.resultWords)
    (htb : fetchTables s c = .ok tb) (h : exec (.dispatch comp rsvd arg) s = .next t) :
    ∃ outs, blockOuts s c tb (gridBlocks (gridCols s c) (gridRows s c)) = .ok outs ∧
      t = commitBlocks (ebs s) s outs := by
  rw [exec_dispatch_grid hc hgrid hw hh hfits] at h
  cases houts : blockOuts s c tb (gridBlocks (gridCols s c) (gridRows s c)) with
  | error f =>
    rw [dispatchGrid_blockOuts_error htb houts] at h
    cases h
  | ok outs =>
    rw [dispatchGrid_ok htb houts] at h
    cases h
    exact ⟨outs, rfl, rfl⟩

end

/-! What committing outcomes does to the error registers -/

/-- `t` has the error registers of `s`. -/
def SameErrors (s t : State) : Prop :=
  t.err = s.err ∧ t.errCode = s.errCode ∧ t.errRegion = s.errRegion ∧ t.errAux = s.errAux

theorem memWriteList_sameErrors (s : State) (sp : Space) (i : Nat) (ws : List Word) :
    SameErrors s (memWriteList s sp i ws) := by
  rw [memWriteList_frame]
  exact ⟨rfl, rfl, rfl, rfl⟩

section
variable {s : State} (n : Nat)

theorem commitBlocks_append (outs others : List (Nat × BlockOut)) :
    commitBlocks n s (outs ++ others) = commitBlocks n (commitBlocks n s outs) others :=
  List.foldl_append

theorem commitBlock_clean {ro : Nat × BlockOut} (h : ro.2.err = none) : SameErrors s (commitBlock n s ro) := by
  simp only [commitBlock, h]
  exact memWriteList_sameErrors ..

theorem commitBlocks_clean {outs : List (Nat × BlockOut)} (h : ∀ ro ∈ outs, ro.2.err = none) :
    SameErrors s (commitBlocks n s outs) := by
  induction outs generalizing s with
  | nil => exact ⟨rfl, rfl, rfl, rfl⟩
  | cons ro rest ih =>
    obtain ⟨hro, hrest⟩ := List.forall_mem_cons.mp h
    obtain ⟨herr, hcode, hregion, haux⟩ := commitBlock_clean (s := s) n hro
    obtain ⟨herr', hcode', hregion', haux'⟩ := ih (s := commitBlock n s ro) hrest
    exact ⟨herr'.trans herr, hcode'.trans hcode, hregion'.trans hregion, haux'.trans haux⟩

/-- From ERR = 0 a failed block is captured. -/
theorem commitBlock_captures {ro : Nat × BlockOut} {e : ErrKind} {aux : Word} (h0 : s.err = 0#13)
    (h : ro.2.err = some (e, aux)) :
    (commitBlock n s ro).err ≠ 0#13 ∧ (commitBlock n s ro).errCode = errCodeOf e ∧
      (commitBlock n s ro).errRegion = BitVec.ofNat 32 ro.1 ∧ (commitBlock n s ro).errAux = aux := by
  obtain ⟨herr, -⟩ := memWriteList_sameErrors s .result (ro.1 * n) ro.2.words
  simp only [commitBlock, h]
  exact ⟨raise_err_ne_zero _ _ _ _, by simp [herr, h0], by simp [herr, h0], by simp [herr, h0]⟩

/-- From ERR = 0 the first failed block of several is captured, and no later one. -/
theorem commitBlocks_captures_first {outs others : List (Nat × BlockOut)} {ro : Nat × BlockOut} {e : ErrKind}
    {aux : Word} (h0 : s.err = 0#13) (hclean : ∀ ro ∈ outs, ro.2.err = none) (h : ro.2.err = some (e, aux)) :
    (commitBlocks n s (outs ++ ro :: others)).errCode = errCodeOf e ∧
      (commitBlocks n s (outs ++ ro :: others)).errRegion = BitVec.ofNat 32 ro.1 ∧
      (commitBlocks n s (outs ++ ro :: others)).errAux = aux := by
  obtain ⟨herr, -⟩ := commitBlocks_clean (s := s) n hclean
  obtain ⟨hne, hcode, hregion, haux⟩ := commitBlock_captures n (herr.trans h0) h
  obtain ⟨hcode', hregion', haux'⟩ := commitBlocks_captured n _ others hne
  rw [commitBlocks_append]
  exact ⟨hcode'.trans hcode, hregion'.trans hregion, haux'.trans haux⟩

end

/-- Settles O24: the blocks' outcomes are committed in raster order, and each commit raises its block's error. -/
theorem dispatchCapturesTheFirstFailingBlock : Obligations.DispatchCapturesTheFirstFailingBlock := by
  intro comp c rsvd arg s t tb hc hgrid hw hh hfits htb h
  obtain ⟨outs, houts, rfl⟩ := exec_dispatch_commits hc hgrid hw hh hfits htb h
  have hbits (k : Nat) : (commitBlocks (ebs s) s outs).err.getLsbD k = true ↔ s.err.getLsbD k = true ∨
      ∃ blk ∈ gridBlocks (gridCols s c) (gridRows s c), ∃ (out : BlockOut) (e : ErrKind) (aux : Word),
        blockOut s c tb blk = .ok out ∧ out.err = some (e, aux) ∧ errBit e = k := by
    rw [commitBlocks_err]
    refine or_congr_right ⟨?_, ?_⟩
    · rintro ⟨ro, hro, e, aux, herr⟩
      obtain ⟨blk, hmem, -, hblk⟩ := (mem_blockOuts houts ro).mp hro
      exact ⟨blk, hmem, ro.2, e, aux, hblk, herr⟩
    · rintro ⟨blk, hmem, out, e, aux, hblk, herr⟩
      exact ⟨(blockRegion s c blk, out), (mem_blockOuts houts _).mpr ⟨blk, hmem, rfl, hblk⟩, e, aux, herr⟩
  refine ⟨hbits, commitBlocks_captured (ebs s) s outs, fun pre post hpre => ⟨fun hall => ?_, ?_⟩⟩
  · exact commitBlocks_clean (ebs s) (blockOuts_err_none houts (hall ▸ hpre))
  · intro blk out e aux h0 hsplit hblk herr
    have hbit := (hbits (errBit e)).mpr (.inr ⟨blk, by simp [hsplit], out, e, aux, hblk, herr, rfl⟩)
    obtain ⟨before, _, rfl, hbefore, hrest⟩ := blockOuts_append (hsplit ▸ houts)
    obtain ⟨out', after, rfl, hblk', -⟩ := blockOuts_cons_ok hrest
    cases hblk.symm.trans hblk'
    obtain ⟨hcode, hregion, haux⟩ :=
      commitBlocks_captures_first (ebs s) (ro := (blockRegion s c blk, out)) (others := after) h0 (blockOuts_err_none hbefore hpre) herr
    exact ⟨hcode, hregion, haux, hbit⟩

end Sys2Proof.Machine
end

section
/-! SUPPORT. With every table loaded, DISPATCH and DCENC answer a next state (spec/70_reset_and_hazards.md R232,
10_state.md R50). -/

namespace Sys2Proof.Machine

section
variable {s : State} {c : Comp}

/-! Every table a component can select is among those loaded -/

theorem TablesLoaded.qtabOf (h : TablesLoaded s) : SpaceDefined s (qtabOf s c) := by
  obtain ⟨-, -, hq0, hq1, -⟩ := h
  unfold Machine.qtabOf
  split
  · exact hq1
  · exact hq0

theorem TablesLoaded.achufOf (h : TablesLoaded s) : SpaceDefined s (achufOf s c) := by
  obtain ⟨-, -, -, -, hac0, hac1, -⟩ := h
  unfold Machine.achufOf
  split
  · exact hac1
  · exact hac0

theorem TablesLoaded.dchufOf (h : TablesLoaded s) : SpaceDefined s (dchufOf s c) := by
  obtain ⟨-, -, -, -, -, -, hdc0, hdc1⟩ := h
  unfold Machine.dchufOf
  split
  · exact hdc1
  · exact hdc0

theorem spaceWords_dchufOf (s : State) (c : Comp) : spaceWords s.params (dchufOf s c) = 12 := by
  unfold dchufOf
  split <;> rfl

/-! DCENC -/

theorem exec_dcenc_badComp {comp : BitVec 2} (hc : compOf comp = none) (rsvd : BitVec 22) (r : Word) (s : State) :
    exec (.dcenc comp rsvd r) s = .next (raise .badComp 0#32 (commandWord 0x04#8 comp rsvd) s) := by
  simp only [exec, execDcenc, hc]

/-- A difference that has a category has one of the 12 entries of its DCHUF, and one that has none reads no entry. -/
theorem dcencWith_completes (h : SpaceDefined s (dchufOf s c)) (r dc : Word) : ∃ t, dcencWith c r dc s = .ok t := by
  by_cases hlarge : 2048 ≤ (dcDiff s c dc).natAbs
  · exact ⟨_, dcencWith_tooLarge r hlarge⟩
  · have hd : (dcDiff s c dc).natAbs ≤ 2047 := by omega
    have hcat : Nat.size (dcDiff s c dc).natAbs < spaceWords s.params (dchufOf s c) := by
      rw [spaceWords_dchufOf]
      exact Nat.lt_succ_of_le (Nat.size_le.mpr (by omega))
    obtain ⟨e, he⟩ := Option.isSome_iff_exists.mp (h _ hcat)
    cases hv : huffValid e with
    | true => exact ⟨_, dcencWith_coded hd he hv⟩
    | false => exact ⟨_, dcencWith_noCode r hd he hv⟩

theorem exec_dcenc_completes (h : TablesLoaded s) (comp : BitVec 2) (rsvd : BitVec 22) {r : Word}
    (hresult : dcRangeOk s r.toNat = true → (memRead s .result (r.toNat * ebs s)).isSome = true) :
    ∃ t, exec (.dcenc comp rsvd r) s = .next t := by
  cases hc : compOf comp with
  | none => exact ⟨_, exec_dcenc_badComp hc rsvd r s⟩
  | some c =>
    cases hr : dcRangeOk s r.toNat with
    | false => exact ⟨_, exec_dcenc_outOfRange rsvd hc hr⟩
    | true =>
      obtain ⟨dc, hdc⟩ := Option.isSome_iff_exists.mp (hresult hr)
      obtain ⟨t, ht⟩ := dcencWith_completes (c := c) h.dchufOf r dc
      exact ⟨t, exec_dcenc_ok rsvd hc hr hdc ht⟩

/-! DISPATCH -/

theorem exec_dispatch_badComp {comp : BitVec 2} (hc : compOf comp = none) (rsvd : BitVec 22) (arg : Word) (s : State) :
    exec (.dispatch comp rsvd arg) s = .next (raise .badComp 0#32 (commandWord 0x01#8 comp rsvd) s) := by
  simp only [exec, execDispatch, hc]

theorem dispatchGrid_completes (h : TablesLoaded s) (c : Comp) : ∃ t, dispatchGrid c s = .ok t := by
  have ⟨hd, hdt, _⟩ := h
  obtain ⟨tb, htb⟩ := fetchTables_defined (c := c) hd hdt h.qtabOf
  obtain ⟨outs, houts⟩ := blockOuts_defined (tb := tb) (gridBlocks (gridCols s c) (gridRows s c)) h.achufOf
  exact ⟨_, dispatchGrid_ok htb houts⟩

theorem exec_dispatch_completes (h : TablesLoaded s) (comp : BitVec 2) (rsvd : BitVec 22) (arg : Word) :
    ∃ t, exec (.dispatch comp rsvd arg) s = .next t := by
  cases hc : compOf comp with
  | none => exact ⟨_, exec_dispatch_badComp hc rsvd arg s⟩
  | some c =>
    by_cases hgrid : gridCols s c * gridRows s c = 0
    · exact ⟨s, exec_dispatch_empty rsvd arg hc hgrid⟩
    by_cases hsurf : s.surfW = 0#16 ∨ s.surfH = 0#16
    · exact ⟨_, exec_dispatch_noSurface rsvd arg hc hgrid hsurf⟩
    obtain ⟨hw, hh⟩ := not_or.mp hsurf
    cases hfits : gridFits s c with
    | false => exact ⟨_, exec_dispatch_outOfRange rsvd arg hc hgrid hw hh hfits⟩
    | true =>
      obtain ⟨t, ht⟩ := dispatchGrid_completes h c
      exact ⟨t, by rw [exec_dispatch_grid hc hgrid hw hh (of_decide_eq_true hfits), ht]⟩

end

/-- Settles O57, by the command: only DISPATCH and DCENC read memory. -/
theorem commandsCompleteAfterBoot : Obligations.CommandsCompleteAfterBoot := by
  intro i s h hresult
  cases i with
  | nop | signal | dcrst => exact ⟨_, rfl⟩
  | dispatch comp rsvd arg => exact exec_dispatch_completes h comp rsvd arg
  | dcenc comp rsvd r => exact exec_dcenc_completes h comp rsvd (hresult comp rsvd r rfl)

end Sys2Proof.Machine
end

section
/-! SUPPORT. The reset state and the reset event (spec/10_state.md section 7, 70_reset_and_hazards.md R230, R231). -/

namespace Sys2Proof.Machine

/-- Every word of every RAM is undefined after reset. -/
theorem memRead_reset (sp : Space) (i : Nat) : memRead State.reset sp i = none := rfl

theorem map_hostRead_value {addrs : List Word} (h : ∀ a ∈ addrs, a.toNat % 4 = 0 ∧ a.toNat < 0x100) (s : State) :
    addrs.map (fun a => (hostRead a s).1) = addrs.map fun a => readReg s (regAt a.toNat) := by
  simpa using congrArg (List.map Prod.fst) (map_hostRead_reg h s)

/-- Settles O52: every address named is that of a register, read in the reset state. -/
theorem resetStateReadsAsTabled : Obligations.ResetStateReadsAsTabled := by
  refine ⟨?_, ?_, ?_, ?_, rfl, rfl, memRead_reset⟩ <;> rw [map_hostRead_value (by simp)] <;> rfl

theorem step_reset {s : State} {rest : List Input} (h : s.inputs = .reset :: rest) :
    step s = .next (resetEvent { s with inputs := rest }) := by
  simp only [step, h]

/-- Settles O53: the reset event takes itself from the list and leaves the reset state. -/
theorem resetInputRestoresTheResetState : Obligations.ResetInputRestoresTheResetState :=
  fun _ _ => step_reset

/-- Settles O59: nothing is stored or queued, no error is recorded, and CTRL has its reset value. -/
theorem resetMeetsTheInvariant : Obligations.ResetMeetsTheInvariant where
  legal := by decide
  memWf := rfl
  memMapped := fun _ ha => nomatch ha
  memWhole := fun _ _ _ _ => rfl
  huffman := fun sp i _ _ _ hw => by simp [memRead_reset sp i] at hw
  queue := by decide
  qualityLow := by decide
  qualityHigh := by decide
  subsample := by decide
  captured := fun hne => absurd rfl hne
  codeRange := by decide

end Sys2Proof.Machine
end
